-- ==== Sys2Proof/Word.lean ====
section
/-! DEFINITION. The word types of the core: bytes and 32-bit host register words (spec/00_scope.md R8, R10). -/

namespace Sys2Proof

/-- One byte (`u8`, 00_scope.md R10). -/
abbrev Byte := BitVec 8

/-- One host register word (REG_BITS = 32, 00_scope.md R8). -/
abbrev Word := BitVec 32

/-- The number of one of the 16 pixels of a block, `p = 4*j + i` (00_scope.md R14). -/
abbrev Lane := Fin 16

end Sys2Proof
end

