-- ==== Sys2Proof/Config.lean ====
section
/-! DEFINITION. What an implementation fixes, and the free values: the parameters of spec/00_scope.md R9 and the draws of
spec/93_implementation_defined.md U10, U12 and U17, and what a byte that nothing has written holds. An opaque constant has no value that a proof could use. -/

namespace Sys2Proof

/-- An RGB triple of bytes (the expanded endpoints of 10_state.md R36). -/
structure Rgb where
  r : Byte
  g : Byte
  b : Byte
  deriving DecidableEq, Repr, Inhabited

/-- A pixel `(R, G, B, A)` (00_scope.md R14). -/
structure Pixel where
  r : Byte
  g : Byte
  b : Byte
  a : Byte
  deriving DecidableEq, Repr, Inhabited

/-- The parameter BC3_COLOR_MODE (00_scope.md R9, 92_eei_decisions.md D12): which table a BC3 colour half uses. -/
inductive Bc3ColorMode where
  | fourColorAlways
  | orderSelected
  deriving DecidableEq, Repr, Inhabited

/-- The two agents that take steps (10_state.md R20). -/
inductive Agent where
  | host
  | engine
  deriving DecidableEq, Repr, Inhabited

/-- The parameters that are plain data (00_scope.md R9). They sit in the state, no step changes them, and a statement about
every state holds for every admissible value. WORKERS is an integer of at least 1, held as WORKERS - 1. -/
structure Params where
  colorMode : Bc3ColorMode
  extraWorkers : Nat
  deriving DecidableEq, Repr

/-- The defaults of 00_scope.md R9: FOUR_COLOR_ALWAYS, and WORKERS = 1. -/
def Params.default : Params := { colorMode := .fourColorAlways, extraWorkers := 0 }

/-- YCOCG_INV (00_scope.md R9, 42_color_transform.md R162; OPEN, D20): a total function of the pixel's four bytes alone. -/
opaque Config.ycocgInv : Pixel → Pixel

/-- HEMIOCT_INV (00_scope.md R9, 42_color_transform.md R165; OPEN, D22): a total function of the stored bytes R and G alone. -/
opaque Config.hemioctInv : Byte → Byte → Rgb

/-- The two byte arrays (20_memory.md R50, R51). -/
inductive Buffer where
  | src
  | dst
  deriving DecidableEq, Repr, Inhabited

/-- How many turns in a row the host has at the given draw before the engine's next one, when both can move (93 U12,
70_reset_and_hazards.md R249). Free value; that it is a number is the weak fairness which R253 has a model assume. -/
opaque Config.hostTurns : Nat → Nat

/-- Which block a worker takes at the given draw, when WORKERS > 1 (93 U17, 43_orchestrator.md R183). Free value. -/
opaque Config.freeBlock : Nat → Nat

/-- What a byte of SRC or DST that nothing has written holds (20_memory.md R61: it is readable; log entry 2). Free value. -/
opaque Config.unwritten : Buffer → Nat → Byte

/-- The byte that a DST cell holds after a reset while BUSY (93 U10, 70_reset_and_hazards.md R241). Free value. -/
opaque Config.freeByte : Nat → Byte

end Sys2Proof
end

