-- ==== Sys2Proof/Syntax.lean ====
section
/-! DEFINITION. The operations of the core, one constructor per row of spec/opcode_table.json (30_encoding.md R81). -/

namespace Sys2Proof

/-- The format selector CTRL.FMT / L_FMT (10_state.md R24, R33): 0 = BC1-only, 1 = BC3. -/
inductive Format where
  | bc1
  | bc3
  deriving DecidableEq, Repr, Inhabited

/-- The opacity mode OM of the BC1 block decoder (40_bc1_decoder.md R100). -/
inductive OpacityMode where
  | punchThroughCapable
  | alwaysOpaque
  deriving DecidableEq, Repr, Inhabited

/-- Which of the two colour endpoints an expansion writes: c0 and E0, or c1 and E1 (40_bc1_decoder.md R107). -/
inductive Endpoint where
  | zero
  | one
  deriving DecidableEq, Repr, Inhabited

/-- The operations of 30_encoding.md R81. Operands are the fields that the operation takes from its own encoding; what it
reads from registers, latched state and memory is its meaning's affair. A transform operation carries the pixel number it
works on and the free bits of the CTRL word that selects it (`f` FMT, `y` YCOCG, `n` NORMALIZE, `h` HEMIOCT). -/
inductive Instr where
  /-- DECODE.BC1: START with CTRL.FMT = 0 (43_orchestrator.md R181). -/
  | decodeBc1
  /-- DECODE.BC3: START with CTRL.FMT = 1 (43_orchestrator.md R182). -/
  | decodeBc3
  /-- ABORT (43_orchestrator.md R189). -/
  | abort
  /-- BLOCK.STEP (43_orchestrator.md R185). -/
  | blockStep
  /-- BC1.EXPAND of the packed endpoint `c` (40_bc1_decoder.md R105). -/
  | bc1Expand (e : Endpoint) (c : BitVec 16)
  /-- BC1.LUT4 (40_bc1_decoder.md R109). -/
  | bc1Lut4
  /-- BC1.LUT3 (40_bc1_decoder.md R110). -/
  | bc1Lut3
  /-- BC1.IDX2 of the index field `I` (40_bc1_decoder.md R113). -/
  | bc1Idx2 (idx : BitVec 32)
  /-- BC1.LOOKUP (40_bc1_decoder.md R118). -/
  | bc1Lookup
  /-- BC3A.LUT8 (41_bc3_alpha_decoder.md R142). -/
  | bc3aLut8 (e0 e1 : Byte)
  /-- BC3A.LUT6 (41_bc3_alpha_decoder.md R143). -/
  | bc3aLut6 (e0 e1 : Byte)
  /-- BC3A.IDX3 of the index field `J` (41_bc3_alpha_decoder.md R146). -/
  | bc3aIdx3 (idx : BitVec 48)
  /-- BC3A.LOOKUP (41_bc3_alpha_decoder.md R148). -/
  | bc3aLookup
  /-- XF.YCOCG of pixel `p` (42_color_transform.md R162). -/
  | xfYcocg (p : Lane) (h n f : Bool)
  /-- XF.SWAP_RA of pixel `p` (42_color_transform.md R163). -/
  | xfSwapRa (p : Lane) (h y f : Bool)
  /-- XF.NRM_SQRT of pixel `p` (42_color_transform.md R164). -/
  | xfNrmSqrt (p : Lane) (y f : Bool)
  /-- XF.NRM_HEMIOCT of pixel `p` (42_color_transform.md R165). -/
  | xfNrmHemioct (p : Lane) (y f : Bool)
  deriving DecidableEq, Repr

end Sys2Proof
end

