-- ==== Sys2Proof/WellFormed.lean ====
section
/-! DEFINITION. Which operations some encoding selects (spec/30_encoding.md R80, R81). -/

namespace Sys2Proof

/-- The operands are ones that an encoding of the operation can hold. Three checks:
the 8-step alpha table is selected only by `e0 > e1` and the 6-step table only by `e0 <= e1` (41_bc3_alpha_decoder.md R141),
and a CTRL word with HEMIOCT = 1 and NORMALIZE = 0 is illegal (30_encoding.md R80). -/
def Instr.wellFormed : Instr → Bool
  | .bc3aLut8 e0 e1 => decide (e1.toNat < e0.toNat)
  | .bc3aLut6 e0 e1 => decide (e0.toNat ≤ e1.toNat)
  | .xfYcocg _ h n _ => !h || n
  | .decodeBc1 | .decodeBc3 | .abort | .blockStep => true
  | .bc1Expand _ _ | .bc1Lut4 | .bc1Lut3 | .bc1Idx2 _ | .bc1Lookup => true
  | .bc3aIdx3 _ | .bc3aLookup => true
  | .xfSwapRa _ _ _ _ | .xfNrmSqrt _ _ _ | .xfNrmHemioct _ _ _ => true

end Sys2Proof
end

