-- ==== Sys2Proof/Decode.lean ====
section
/-! DEFINITION. The encodings of spec/30_encoding.md: the command words, the CTRL word, the block formats, the operation map
R81 (which operations an encoding selects, in the order the core performs them), and after it the encoder.
A decoding is total on any bytes and rejects by name. -/

namespace Sys2Proof

/-! ## Bytes and fields -/

/-- `LE(b[0..n-1])`: the little-endian number of a list of bytes (00_scope.md R12). -/
def le : List Byte → Nat
  | [] => 0
  | b :: bs => b.toNat + 256 * le bs

/-- The `n` little-endian bytes of a number. -/
def leBytes : Nat → Nat → List Byte
  | 0, _ => []
  | n + 1, v => BitVec.ofNat 8 v :: leBytes n (v / 256)

/-- The byte offsets of the host registers (10_state.md R23). -/
def offCtrl : Nat := 0x00
def offWidth : Nat := 0x04
def offHeight : Nat := 0x08
def offStride : Nat := 0x0C
def offSrcLen : Nat := 0x10
def offDstLen : Nat := 0x14
def offCmd : Nat := 0x18
def offStatus : Nat := 0x1C

/-- CTRL.FMT, bit 0 (10_state.md R24). -/
def ctrlFmt (w : Word) : Format := if w.getLsbD 0 then .bc3 else .bc1
/-- CTRL.YCOCG, bit 1 (10_state.md R24). -/
def ctrlYcocg (w : Word) : Bool := w.getLsbD 1
/-- CTRL.NORMALIZE, bit 2 (10_state.md R24). -/
def ctrlNormalize (w : Word) : Bool := w.getLsbD 2
/-- CTRL.HEMIOCT, bit 3 (10_state.md R24). -/
def ctrlHemioct (w : Word) : Bool := w.getLsbD 3
/-- CTRL[31:4], the reserved bits (10_state.md R24). -/
def ctrlReserved (w : Word) : BitVec 28 := w.extractLsb' 4 28

/-- `CTRLV(fmt, ycocg, normalize, hemioct)` (30_encoding.md R84). -/
def ctrlWord (f y n h : Bool) : Word :=
  BitVec.ofNat 32 (f.toNat + 2 * y.toNat + 4 * n.toNat + 8 * h.toNat)

/-- A CTRL word that START accepts: reserved bits 0, and no HEMIOCT without NORMALIZE (30_encoding.md R80). -/
def ctrlLegal (w : Word) : Bool := ctrlReserved w == 0 && (!ctrlHemioct w || ctrlNormalize w)

/-! ## The block formats -/

/-- The fields of a BC1 colour block (30_encoding.md R71). -/
structure ColourBlock where
  c0 : BitVec 16
  c1 : BitVec 16
  idx : BitVec 32
  deriving DecidableEq, Repr

/-- The fields of a BC3 alpha sub-block (30_encoding.md R75). -/
structure AlphaBlock where
  e0 : Byte
  e1 : Byte
  idx : BitVec 48
  deriving DecidableEq, Repr

/-- The colour block in bytes `b[0..7]` (30_encoding.md R71). -/
def colourBlock (b : List Byte) : ColourBlock :=
  { c0 := BitVec.ofNat 16 (le (b.take 2))
    c1 := BitVec.ofNat 16 (le ((b.drop 2).take 2))
    idx := BitVec.ofNat 32 (le ((b.drop 4).take 4)) }

/-- The alpha sub-block in bytes `a[0..7]` (30_encoding.md R75). -/
def alphaBlock (a : List Byte) : AlphaBlock :=
  { e0 := BitVec.ofNat 8 (le (a.take 1))
    e1 := BitVec.ofNat 8 (le ((a.drop 1).take 1))
    idx := BitVec.ofNat 48 (le ((a.drop 2).take 6)) }

/-- `BS`, the block length of a format in bytes (10_state.md R33, 30_encoding.md R82). -/
def blockSize : Format → Nat
  | .bc1 => 8
  | .bc3 => 16

/-- The opacity mode a format implies (40_bc1_decoder.md R103, R104). -/
def opacityOf : Format → OpacityMode
  | .bc1 => .punchThroughCapable
  | .bc3 => .alwaysOpaque

/-! ## The operation map -/

/-- Table mode selection (40_bc1_decoder.md R108): the packed endpoints compared as unsigned 16-bit integers. -/
def fourColour (om : OpacityMode) (mode : Bc3ColorMode) (c0 c1 : BitVec 16) : Bool :=
  decide (c1.toNat < c0.toNat) || (om == .alwaysOpaque && mode == .fourColorAlways)

/-- The operations of a colour block, in the order of 40_bc1_decoder.md R120. -/
def colourOps (om : OpacityMode) (mode : Bc3ColorMode) (b : ColourBlock) : List Instr :=
  [.bc1Expand .zero b.c0, .bc1Expand .one b.c1,
   if fourColour om mode b.c0 b.c1 then .bc1Lut4 else .bc1Lut3,
   .bc1Idx2 b.idx, .bc1Lookup]

/-- The operations of an alpha sub-block, in the order of 41_bc3_alpha_decoder.md R150 (mode selection: R141). -/
def alphaOps (a : AlphaBlock) : List Instr :=
  [if a.e1.toNat < a.e0.toNat then .bc3aLut8 a.e0 a.e1 else .bc3aLut6 a.e0 a.e1,
   .bc3aIdx3 a.idx, .bc3aLookup]

/-- The transform operations on pixel `p` that the CTRL bits select, in the order of 42_color_transform.md R161. -/
def xfOps (f y n h : Bool) (p : Lane) : List Instr :=
  (if y then [.xfYcocg p h n f] else []) ++
  (if n then [.xfSwapRa p h y f] else []) ++
  (if n && !h then [.xfNrmSqrt p y f] else []) ++
  (if n && h then [.xfNrmHemioct p y f] else [])

/-- The lanes 0 to 15 of a block, in order. -/
def lanes : List Lane := List.finRange 16

/-- The decoding half of a block step on the bytes of one block (43_orchestrator.md R185): alpha before colour in a BC3
block, whose first 8 bytes are the alpha sub-block (20_memory.md R56, 30_encoding.md R77). -/
def decodeOps (fmt : Format) (mode : Bc3ColorMode) (blk : List Byte) : List Instr :=
  match fmt with
  | .bc1 => colourOps (opacityOf .bc1) mode (colourBlock blk)
  | .bc3 => alphaOps (alphaBlock (blk.take 8)) ++ colourOps (opacityOf .bc3) mode (colourBlock (blk.drop 8))

/-- Every operation of one block step, in order: the decoding, then the transform of each pixel (43_orchestrator.md R185). -/
def blockOps (fmt : Format) (mode : Bc3ColorMode) (y n h : Bool) (blk : List Byte) : List Instr :=
  decodeOps fmt mode blk ++ lanes.flatMap (xfOps (fmt == .bc3) y n h)

/-! ## Decoding by encoding space -/

/-- What the core reads as an encoding (30_encoding.md R70, R81): a value written to CMD under a CTRL.FMT, a block at CURSOR
under an L_FMT, a packed endpoint, a colour block under an opacity mode, an alpha sub-block, the CTRL word for a pixel. -/
inductive Space where
  | command (fmt : Format)
  | block (fmt : Format)
  | endpoint (e : Endpoint)
  | colour (om : OpacityMode) (mode : Bc3ColorMode)
  | alpha
  | ctrl (p : Lane)
  deriving DecidableEq, Repr

/-- Why bytes are no encoding of a space. -/
inductive Reject where
  /-- The bytes are not as many as the format has (30_encoding.md R70). -/
  | wrongLength
  /-- A CMD value other than 1 and 2 (30_encoding.md R80). -/
  | reservedCommand
  /-- A CTRL word with a reserved bit set, or HEMIOCT without NORMALIZE (30_encoding.md R80). -/
  | illegalConfiguration
  deriving DecidableEq, Repr

/-- The result of a decoding: the operations selected, in order, or a rejection by name. -/
inductive Decoded where
  | ops (l : List Instr)
  | rejected (why : Reject)
  deriving DecidableEq, Repr

/-- The command a value written to CMD is, under the CTRL.FMT that START latches (10_state.md R30, 30_encoding.md R81). -/
def decodeCommand (fmt : Format) (v : Word) : Option Instr :=
  if v = 1#32 then
    match fmt with
    | .bc1 => some .decodeBc1
    | .bc3 => some .decodeBc3
  else if v = 2#32 then some .abort
  else none

/-- The number of bytes of an encoding of a space (30_encoding.md R70). -/
def Space.length : Space → Nat
  | .command _ => 4
  | .block fmt => blockSize fmt
  | .endpoint _ => 2
  | .colour _ _ => 8
  | .alpha => 8
  | .ctrl _ => 4

/-- The decoder: total on any bytes. -/
def decode (sp : Space) (bs : List Byte) : Decoded :=
  if bs.length = sp.length then
    match sp with
    | .command fmt =>
      match decodeCommand fmt (BitVec.ofNat 32 (le bs)) with
      | some x => .ops [x]
      | none => .rejected .reservedCommand
    | .block _ => .ops [.blockStep]
    | .endpoint e => .ops [.bc1Expand e (BitVec.ofNat 16 (le bs))]
    | .colour om mode => .ops (colourOps om mode (colourBlock bs))
    | .alpha => .ops (alphaOps (alphaBlock bs))
    | .ctrl p =>
      let w : Word := BitVec.ofNat 32 (le bs)
      if ctrlLegal w then .ops (xfOps (ctrlFmt w == .bc3) (ctrlYcocg w) (ctrlNormalize w) (ctrlHemioct w) p)
      else .rejected .illegalConfiguration
  else .rejected .wrongLength

/-! ## The encoder -/

/-- The bytes of a colour block (30_encoding.md R71). -/
def encodeColour (b : ColourBlock) : List Byte :=
  leBytes 2 b.c0.toNat ++ leBytes 2 b.c1.toNat ++ leBytes 4 b.idx.toNat

/-- The bytes of an alpha sub-block (30_encoding.md R75). -/
def encodeAlpha (a : AlphaBlock) : List Byte :=
  leBytes 1 a.e0.toNat ++ leBytes 1 a.e1.toNat ++ leBytes 6 a.idx.toNat

/-- An encoding of an operation: the space it stands in and its bytes. An operation without a field of its own
(40_bc1_decoder.md R109, R110, R118, 41_bc3_alpha_decoder.md R148) gets a block that selects it; fields of a block that
belong to other operations are 0, as far as the selection allows. -/
def encode : Instr → Space × List Byte
  | .decodeBc1 => (.command .bc1, leBytes 4 1)
  | .decodeBc3 => (.command .bc3, leBytes 4 1)
  | .abort => (.command .bc1, leBytes 4 2)
  | .blockStep => (.block .bc1, leBytes 8 0)
  | .bc1Expand e c => (.endpoint e, leBytes 2 c.toNat)
  | .bc1Lut4 => (.colour .punchThroughCapable .fourColorAlways, encodeColour { c0 := 1, c1 := 0, idx := 0 })
  | .bc1Lut3 => (.colour .punchThroughCapable .fourColorAlways, encodeColour { c0 := 0, c1 := 0, idx := 0 })
  | .bc1Idx2 x => (.colour .punchThroughCapable .fourColorAlways, encodeColour { c0 := 0, c1 := 0, idx := x })
  | .bc1Lookup => (.colour .punchThroughCapable .fourColorAlways, encodeColour { c0 := 0, c1 := 0, idx := 0 })
  | .bc3aLut8 e0 e1 => (.alpha, encodeAlpha { e0 := e0, e1 := e1, idx := 0 })
  | .bc3aLut6 e0 e1 => (.alpha, encodeAlpha { e0 := e0, e1 := e1, idx := 0 })
  | .bc3aIdx3 x => (.alpha, encodeAlpha { e0 := 0, e1 := 0, idx := x })
  | .bc3aLookup => (.alpha, encodeAlpha { e0 := 0, e1 := 0, idx := 0 })
  | .xfYcocg p h n f => (.ctrl p, leBytes 4 (ctrlWord f true n h).toNat)
  | .xfSwapRa p h y f => (.ctrl p, leBytes 4 (ctrlWord f y true h).toNat)
  | .xfNrmSqrt p y f => (.ctrl p, leBytes 4 (ctrlWord f y true false).toNat)
  | .xfNrmHemioct p y f => (.ctrl p, leBytes 4 (ctrlWord f y true true).toNat)

/-! ## The host's reading of a table word -/

/-- The last operation of a decoding, none where the decoder refuses or selects nothing. -/
def Decoded.last? : Decoded → Option Instr
  | .ops l => l.getLast?
  | .rejected _ => none

/-- The operation that the decoder reads from an encoding of `nbits` bits with the value `w` (bit 0 the least significant bit
of the first byte). The opcode table puts two encodings on 32-bit words: a value written to CMD, and the CTRL word. A word
that is a command is read as that command, with CTRL.FMT = 0 as at reset; any other word as a CTRL word, which selects a
sequence of transform operations (42_color_transform.md R161), of which the answer is the last one, for pixel 0. A 16-bit word is
a packed endpoint, 64 and 128 bits are a BC1 and a BC3 block at CURSOR, which BLOCK.STEP consumes. -/
def decodeTableWord (nbits w : Nat) : Option Instr :=
  match nbits with
  | 16 => (decode (.endpoint .zero) (leBytes 2 w)).last?
  | 32 =>
    match decode (.command .bc1) (leBytes 4 w) with
    | .ops l => l.getLast?
    | .rejected _ => (decode (.ctrl 0) (leBytes 4 w)).last?
  | 64 => (decode (.block .bc1) (leBytes 8 w)).last?
  | 128 => (decode (.block .bc3) (leBytes 16 w)).last?
  | _ => none

end Sys2Proof
end

