-- ==== Sys2Proof/Machine/State.lean ====
section
/-! DEFINITION. The state of the machine: everything spec/10_state.md gives it, the pending host actions, and the stops. -/

namespace Sys2Proof.Machine

/-! ## Reasons to stop -/

/-- The datapath registers by name (10_state.md R36, R37), for the fault that names one. -/
inductive DatapathReg where
  | e0Rgb
  | e1Rgb
  | table
  | idx2
  | value
  | idx3
  | origin
  deriving DecidableEq, Repr

/-- Where the machine stops. None of these is an error of the spec: those are STATUS values (60_exceptions.md R211). -/
inductive Fault where
  /-- A read of a datapath register that has no value, which the spec makes a fault (10_state.md R38, 93 U9). Raised by a
  datapath or transform operation outside a block step; safe. -/
  | datapathNoValue (reg : DatapathReg)
  /-- A read of the latched state before an accepted START, which has no value (10_state.md R33, 70_reset_and_hazards.md R240):
  93_implementation_defined.md U9 treats that read as a fault. Raised by an operation that reads it; safe. -/
  | latchNoValue
  /-- A SRC read at or above L_SRC_LEN, which is not defined (20_memory.md R50). Raised by BLOCK.STEP; safe. -/
  | srcOutOfRange
  /-- A DST access at or above L_DST_LEN, which is not defined (20_memory.md R51). Raised by the lookups and transforms; safe. -/
  | dstOutOfRange
  /-- A host access to DST, or a write of SRC, while BUSY: the host has no such move (70 R251 H-1, H-2, 93 U13). Raised by the
  host's move; safe. -/
  | hostAccessWhileBusy
  /-- A host register access at an offset that is no multiple of 4: the host has no such move (70 R251 H-5, 93 U14). Raised by the
  host's move; safe. -/
  | hostUnalignedRegister
  deriving DecidableEq, Repr

/-- An instruction without a meaning. -/
inductive Refusal where
  /-- Raised by the arms of `exec` that have no meaning yet (there is none left); safe. -/
  | notModelled (mnemonic : String)
  deriving DecidableEq, Repr

/-! ## Memory -/

/-- A byte array as the cells that have been written: addresses strictly rising. An unlisted address holds a free value, which
`Memory.byteAt` gives (log entry 2). -/
abbrev Memory := List Host.Cell

/-- The canonical form: addresses strictly rising. What an unlisted address holds is a free value, so no entry is known to equal
it, and a written byte stays listed (log entry 2). -/
def Memory.wf : Memory → Bool
  | [] => true
  | [_] => true
  | c :: d :: m => decide (c.1 < d.1) && Memory.wf (d :: m)

/-! ## Registers -/

/-- The error codes of STATUS.ERR but NONE (10_state.md R31, 60_exceptions.md R211). -/
inductive ErrCode where
  | invalidConfiguration
  | inputTooShort
  | destinationTooSmall
  | cancelled
  deriving DecidableEq, Repr

/-- STATUS (10_state.md R31). ERR is non-zero exactly in STATE = ERROR, so the code belongs to that state. -/
inductive Status where
  | idle
  | busy
  | done
  | error (code : ErrCode)
  deriving DecidableEq, Repr

/-- The latched command state (10_state.md R33). -/
structure Latch where
  fmt : Format
  ycocg : Bool
  normalize : Bool
  hemioct : Bool
  w : Word
  h : Word
  stride : Word
  srcLen : Word
  dstLen : Word
  deriving DecidableEq, Repr

/-- The pixel origin `(ox, oy)` of the block of the running block step (40_bc1_decoder.md R100). -/
structure Origin where
  x : Nat
  y : Nat
  deriving DecidableEq, Repr

/-- The per-block datapath registers (10_state.md R36, R37) and the block's origin. `none` is the spec's own "no value"
(R38, R41): what they hold at reset and between block steps. -/
structure Datapath where
  c0 : Option (BitVec 16)
  c1 : Option (BitVec 16)
  e0Rgb : Option Rgb
  e1Rgb : Option Rgb
  table : Option (Vector Pixel 4)
  four : Option Bool
  idx2 : Option (Vector (BitVec 2) 16)
  e0 : Option Byte
  e1 : Option Byte
  value : Option (Vector Byte 8)
  idx3 : Option (Vector (BitVec 3) 16)
  origin : Option Origin
  deriving DecidableEq, Repr

/-- No datapath register has a value (10_state.md R38). -/
def Datapath.empty : Datapath :=
  { c0 := none, c1 := none, e0Rgb := none, e1Rgb := none, table := none, four := none, idx2 := none
    e0 := none, e1 := none, value := none, idx3 := none, origin := none }

/-! ## The host -/

/-- What the host does (30_encoding.md R84, 70_reset_and_hazards.md R240, R243): its pending actions are the machine's input. -/
inductive HostAction where
  /-- `WR reg, value`: a 32-bit write at a byte offset. -/
  | wr (off : Nat) (v : Word)
  /-- `RD reg`: a 32-bit read at a byte offset. -/
  | rd (off : Nat)
  /-- `WAIT reg.field != v`: read until the field (its lowest bit and its width) differs from `v`. -/
  | wait (off lo width v : Nat)
  /-- `SRC[off..] = bytes`. -/
  | placeSrc (off : Nat) (bytes : List Byte)
  /-- `DST[off..] = bytes`. -/
  | placeDst (off : Nat) (bytes : List Byte)
  /-- The host reads one byte of DST (70 R243 step 6). -/
  | readDst (off : Nat)
  /-- The host resets the core (70 R240). -/
  | reset
  deriving DecidableEq, Repr

/-! ## State -/

/-- The state of the machine. The fields after `dst` are the model's own (log entries 3 and 5 to 8). -/
structure State where
  ctrl : Word
  width : Word
  height : Word
  stride : Word
  srcLen : Word
  dstLen : Word
  status : Status
  latch : Option Latch
  bX : Nat
  bY : Nat
  cursor : Nat
  abortReq : Bool
  dp : Datapath
  src : Memory
  dst : Memory
  params : Params
  ahead : List Nat
  prog : List HostAction
  turns : List Agent
  draws : Nat
  rdata : Word
  deriving DecidableEq, Repr

/-- The machine right after reset (10_state.md R41, 70_reset_and_hazards.md R240), with nothing placed in SRC and DST, the
parameters at their defaults (00_scope.md R9) and no pending host action. -/
def State.reset : State :=
  { ctrl := 0, width := 0, height := 0, stride := 0, srcLen := 0, dstLen := 0
    status := .idle, latch := none, bX := 0, bY := 0, cursor := 0, abortReq := false
    dp := Datapath.empty, src := [], dst := []
    params := Params.default, ahead := [], prog := [], turns := [], draws := 0, rdata := 0 }

end Sys2Proof.Machine
end

