-- ==== Sys2Proof/Machine/Operands.lean ====
section
/-! DEFINITION. The arithmetic of the operations and where their operands and results stand: sizes and addresses
(spec/20_memory.md), endpoint expansion, the tables, the index fields, the transforms on one pixel. All of it is exact unsigned
arithmetic, narrowed at the end (spec/00_scope.md R11). -/

namespace Sys2Proof.Machine

/-! ## Sizes and addresses -/

/-- `ceil4(n)` (00_scope.md R11). -/
def ceil4 (n : Nat) : Nat := (n + 3) / 4

/-- `BS` of the latched command (10_state.md R33). -/
def Latch.bs (L : Latch) : Nat := blockSize L.fmt
/-- `BCX`, block columns (10_state.md R33, 43_orchestrator.md R183). -/
def Latch.bcx (L : Latch) : Nat := ceil4 L.w.toNat
/-- `BCY`, block rows (10_state.md R33, 43_orchestrator.md R183). -/
def Latch.bcy (L : Latch) : Nat := ceil4 L.h.toNat
/-- `SRCREQ` (20_memory.md R55). -/
def Latch.srcReq (L : Latch) : Nat := L.bcx * L.bcy * L.bs
/-- `DSTREQ` (20_memory.md R53), for `L_H >= 1`. -/
def Latch.dstReq (L : Latch) : Nat := (L.h.toNat - 1) * L.stride.toNat + 4 * L.w.toNat

/-- `pix(x, y)`, the DST offset of the R byte of a pixel (20_memory.md R52). -/
def Latch.pix (L : Latch) (x y : Nat) : Nat := y * L.stride.toNat + 4 * x

/-- The absolute column of a lane (40_bc1_decoder.md R115). -/
def laneX (o : Origin) (p : Lane) : Nat := o.x + p.val % 4
/-- The absolute row of a lane (40_bc1_decoder.md R115). -/
def laneY (o : Origin) (p : Lane) : Nat := o.y + p.val / 4

/-- The lane's pixel lies in the image (40_bc1_decoder.md R115, R116). -/
def inBounds (L : Latch) (o : Origin) (p : Lane) : Bool :=
  decide (laneX o p < L.w.toNat) && decide (laneY o p < L.h.toNat)

/-- The DST offset of the lane's pixel (20_memory.md R52). -/
def lanePix (L : Latch) (o : Origin) (p : Lane) : Nat := L.pix (laneX o p) (laneY o p)

/-! ## Endpoint expansion -/

/-- `expand5`, 5 bits to 8 by bit replication (40_bc1_decoder.md R105). -/
def expand5 (v : BitVec 5) : Byte := BitVec.ofNat 8 ((v.toNat <<< 3) ||| (v.toNat >>> 2))
/-- `expand6`, 6 bits to 8 by bit replication (40_bc1_decoder.md R105). -/
def expand6 (v : BitVec 6) : Byte := BitVec.ofNat 8 ((v.toNat <<< 2) ||| (v.toNat >>> 4))

/-- `EXPAND(c)` (40_bc1_decoder.md R105), with the RGB565 fields of 30_encoding.md R72. -/
def expand (c : BitVec 16) : Rgb :=
  { r := expand5 (c.extractLsb' 11 5), g := expand6 (c.extractLsb' 5 6), b := expand5 (c.extractLsb' 0 5) }

/-! ## Tables -/

/-- An opaque pixel of an expanded endpoint. -/
def opaquePixel (c : Rgb) : Pixel := { r := c.r, g := c.g, b := c.b, a := 255 }

/-- `(2*u + v) // 3` on bytes (40_bc1_decoder.md R109). -/
def third (u v : Byte) : Byte := BitVec.ofNat 8 ((2 * u.toNat + v.toNat) / 3)
/-- `(u + v) // 2` on bytes (40_bc1_decoder.md R110). -/
def half (u v : Byte) : Byte := BitVec.ofNat 8 ((u.toNat + v.toNat) / 2)

/-- A channel function applied to the three channels of two endpoints (40_bc1_decoder.md R112), opaque. -/
def mixRgb (f : Byte → Byte → Byte) (u v : Rgb) : Pixel :=
  { r := f u.r v.r, g := f u.g v.g, b := f u.b v.b, a := 255 }

/-- The 4-colour table (40_bc1_decoder.md R109). -/
def lut4 (c d : Rgb) : Vector Pixel 4 :=
  #v[opaquePixel c, opaquePixel d, mixRgb third c d, mixRgb third d c]

/-- The 3-colour table (40_bc1_decoder.md R110). -/
def lut3 (c d : Rgb) : Vector Pixel 4 :=
  #v[opaquePixel c, opaquePixel d, mixRgb half c d, { r := 0, g := 0, b := 0, a := 0 }]

/-- Entry `i` of 2..7 of the 8-step alpha table (41_bc3_alpha_decoder.md R142). -/
def step8 (e0 e1 : Byte) (i : Nat) : Byte :=
  BitVec.ofNat 8 (((8 - i) * e0.toNat + (i - 1) * e1.toNat + 3) / 7)
/-- Entry `i` of 2..5 of the 6-step alpha table (41_bc3_alpha_decoder.md R143). -/
def step6 (e0 e1 : Byte) (i : Nat) : Byte :=
  BitVec.ofNat 8 (((6 - i) * e0.toNat + (i - 1) * e1.toNat + 2) / 5)

/-- The 8-step alpha table (41_bc3_alpha_decoder.md R142). -/
def lut8 (e0 e1 : Byte) : Vector Byte 8 :=
  #v[e0, e1, step8 e0 e1 2, step8 e0 e1 3, step8 e0 e1 4, step8 e0 e1 5, step8 e0 e1 6, step8 e0 e1 7]
/-- The 6-step alpha table (41_bc3_alpha_decoder.md R143). -/
def lut6 (e0 e1 : Byte) : Vector Byte 8 :=
  #v[e0, e1, step6 e0 e1 2, step6 e0 e1 3, step6 e0 e1 4, step6 e0 e1 5, 0, 255]

/-! ## Index fields -/

/-- `IDX2[p] = I[2p+1:2p]` (40_bc1_decoder.md R113, 30_encoding.md R73). -/
def unpackIdx2 (x : BitVec 32) : Vector (BitVec 2) 16 :=
  Vector.ofFn fun p : Lane => x.extractLsb' (2 * p.val) 2
/-- `IDX3[p] = J[3p+2:3p]` (41_bc3_alpha_decoder.md R146, 30_encoding.md R76). -/
def unpackIdx3 (x : BitVec 48) : Vector (BitVec 3) 16 :=
  Vector.ofFn fun p : Lane => x.extractLsb' (3 * p.val) 3

/-- `table[IDX2[p]]` (40_bc1_decoder.md R114). -/
def tableAt (t : Vector Pixel 4) (idx : Vector (BitVec 2) 16) (p : Lane) : Pixel :=
  t[(idx[p.val]'p.isLt).toNat]'(idx[p.val]'p.isLt).isLt
/-- `value[IDX3[p]]` (41_bc3_alpha_decoder.md R147). -/
def valueAt (t : Vector Byte 8) (idx : Vector (BitVec 3) 16) (p : Lane) : Byte :=
  t[(idx[p.val]'p.isLt).toNat]'(idx[p.val]'p.isLt).isLt

/-! ## What the lookups store: pairs of a DST offset and a byte, in the order of the pseudocode -/

/-- The bytes that lane `p` of BC1.LOOKUP stores (40_bc1_decoder.md R117, R118). -/
def colourLaneStores (om : OpacityMode) (L : Latch) (o : Origin) (t : Vector Pixel 4) (idx : Vector (BitVec 2) 16)
    (p : Lane) : List Host.Cell :=
  if inBounds L o p then
    let c := tableAt t idx p
    [(lanePix L o p, c.r), (lanePix L o p + 1, c.g), (lanePix L o p + 2, c.b)] ++
      (if om = .punchThroughCapable then [(lanePix L o p + 3, c.a)] else [])
  else []

/-- The bytes that BC1.LOOKUP stores (40_bc1_decoder.md R118). -/
def colourStores (om : OpacityMode) (L : Latch) (o : Origin) (t : Vector Pixel 4) (idx : Vector (BitVec 2) 16) :
    List Host.Cell :=
  lanes.flatMap (colourLaneStores om L o t idx)

/-- The byte that lane `p` of BC3A.LOOKUP stores (41_bc3_alpha_decoder.md R148). -/
def alphaLaneStores (L : Latch) (o : Origin) (t : Vector Byte 8) (idx : Vector (BitVec 3) 16) (p : Lane) :
    List Host.Cell :=
  if inBounds L o p then [(lanePix L o p + 3, valueAt t idx p)] else []

/-- The bytes that BC3A.LOOKUP stores (41_bc3_alpha_decoder.md R148). -/
def alphaStores (L : Latch) (o : Origin) (t : Vector Byte 8) (idx : Vector (BitVec 3) 16) : List Host.Cell :=
  lanes.flatMap (alphaLaneStores L o t idx)

/-! ## The transforms on one pixel -/

/-- One round of `isqrt` per bit, from the highest. -/
def isqrtFrom : Nat → Nat → Nat → Nat
  | 0, _, acc => acc
  | k + 1, n, acc => isqrtFrom k n (if (acc + 2 ^ k) * (acc + 2 ^ k) ≤ n then acc + 2 ^ k else acc)

/-- `isqrt(n)`, the largest integer whose square is at most `n` (00_scope.md R11). -/
def isqrt (n : Nat) : Nat := isqrtFrom (Nat.log2 n + 1) n 0

/-- `D` of XF.NRM_SQRT (42_color_transform.md R164); `Int.toNat` is the clamp at 0. -/
def nrmD (r g : Byte) : Nat :=
  (65025 - (2 * (r.toNat : Int) - 255) ^ 2 - (2 * (g.toNat : Int) - 255) ^ 2).toNat

/-- `B` of XF.NRM_SQRT (42_color_transform.md R164). -/
def nrmB (r g : Byte) : Byte := BitVec.ofNat 8 (128 + isqrt (nrmD r g / 4))

/-- XF.SWAP_RA on a pixel (42_color_transform.md R163). -/
def swapRa (P : Pixel) : Pixel := { r := P.a, g := P.g, b := P.b, a := P.r }
/-- XF.NRM_SQRT on a pixel (42_color_transform.md R164). -/
def nrmSqrt (P : Pixel) : Pixel := { P with b := nrmB P.r P.g }
/-- XF.NRM_HEMIOCT on a pixel (42_color_transform.md R165). -/
def nrmHemioct (P : Pixel) : Pixel :=
  let v := Config.hemioctInv P.r P.g
  { r := v.r, g := v.g, b := v.b, a := P.a }

/-- Channel `k` of a pixel: 0 is R, 1 is G, 2 is B, 3 is A (20_memory.md R52). -/
def channel (P : Pixel) (k : Fin 4) : Byte :=
  match k with
  | 0 => P.r
  | 1 => P.g
  | 2 => P.b
  | 3 => P.a

/-- The stores of the given channels of a pixel at a DST offset. -/
def pixelStores (base : Nat) (P : Pixel) (ks : List (Fin 4)) : List Host.Cell :=
  ks.map fun k => (base + k.val, channel P k)

end Sys2Proof.Machine
end

