-- ==== Sys2Proof/Machine/Flags.lean ====
section
/-! DEFINITION. STATUS as a word, what START latches, and the START checks (spec/10_state.md R31, R33,
spec/60_exceptions.md R212 to R215). The core has no condition codes (10_state.md R39). -/

namespace Sys2Proof.Machine

/-- STATUS.ERR of an error (10_state.md R31). -/
def errCode : ErrCode → Nat
  | .invalidConfiguration => 1
  | .inputTooShort => 2
  | .destinationTooSmall => 3
  | .cancelled => 4

/-- STATUS.STATE (10_state.md R31). -/
def stateCode : Status → Nat
  | .idle => 0
  | .busy => 1
  | .done => 2
  | .error _ => 3

/-- STATUS.ERR (10_state.md R31). -/
def errField : Status → Nat
  | .error c => errCode c
  | _ => 0

/-- The word that a read of STATUS returns (10_state.md R31): STATE in bits 1:0, ERR in bits 7:4, the rest 0. -/
def statusWord (st : Status) : Word := BitVec.ofNat 32 (stateCode st + 16 * errField st)

/-- What START latches (10_state.md R33). The format is the command's own: DECODE.BC1 is a START with CTRL.FMT = 0 and
DECODE.BC3 one with CTRL.FMT = 1 (30_encoding.md R81). -/
def latchOf (fmt : Format) (s : State) : Latch :=
  { fmt := fmt
    ycocg := ctrlYcocg s.ctrl
    normalize := ctrlNormalize s.ctrl
    hemioct := ctrlHemioct s.ctrl
    w := s.width
    h := s.height
    stride := s.stride
    srcLen := s.srcLen
    dstLen := s.dstLen }

/-- The causes of InvalidConfiguration (60_exceptions.md R212). -/
def badConfig (ctrl : Word) (L : Latch) : Bool :=
  ctrlReserved ctrl != 0 || (L.hemioct && !L.normalize) || L.w == 0 || L.h == 0 ||
    decide (L.stride.toNat < 4 * L.w.toNat)

/-- The error of START, the first check that fails (60_exceptions.md R212 to R215). -/
def startError (ctrl : Word) (L : Latch) : Option ErrCode :=
  if badConfig ctrl L then some .invalidConfiguration
  else if L.srcLen.toNat < L.srcReq then some .inputTooShort
  else if L.dstLen.toNat < L.dstReq then some .destinationTooSmall
  else none

end Sys2Proof.Machine
end

