-- ==== Sys2Proof/Machine/Ops.lean ====
section
/-! DEFINITION. The named operations over memory, registers and the sequencer that the meanings share. -/

namespace Sys2Proof.Machine

/-! ## Outcomes -/

/-- What a step or an operation answers. -/
abbrev Result := Host.Outcome State Fault Refusal

/-- Do `f` after `o`, if `o` answers a next state. -/
def andThen (o : Result) (f : State → Result) : Result :=
  match o with
  | .next s => f s
  | .fault r => .fault r
  | .refused r => .refused r

/-- Go on with the value that a read gives, or stop with its fault. -/
def withValue {α : Type} (r : Except Fault α) (f : α → Result) : Result :=
  match r with
  | .ok v => f v
  | .error e => .fault e

/-! ## Memory -/

/-- The byte written at an address, none where nothing has been written. -/
def Memory.read : Memory → Nat → Option Byte
  | [], _ => none
  | c :: m, a => if c.1 = a then some c.2 else Memory.read m a

/-- Write a byte, keeping the addresses strictly rising. -/
def Memory.write : Memory → Nat → Byte → Memory
  | [], a, v => [(a, v)]
  | c :: m, a, v =>
    if a < c.1 then (a, v) :: c :: m
    else if a = c.1 then (a, v) :: m
    else c :: Memory.write m a v

/-- Write bytes at increasing addresses. -/
def Memory.writeBytes : Memory → Nat → List Byte → Memory
  | m, _, [] => m
  | m, a, b :: bs => Memory.writeBytes (Memory.write m a b) (a + 1) bs

/-- The byte that a buffer holds at an address: the one written there, else a free value that is fixed for the address
(20_memory.md R61; log entry 2). -/
def Memory.byteAt (buf : Buffer) (m : Memory) (a : Nat) : Byte := (Memory.read m a).getD (Config.unwritten buf a)

/-- The `n` bytes that a buffer holds at an address and above. -/
def Memory.bytesAt (buf : Buffer) (m : Memory) : Nat → Nat → List Byte
  | _, 0 => []
  | a, n + 1 => Memory.byteAt buf m a :: Memory.bytesAt buf m (a + 1) n

/-! ## The latched state and the datapath registers -/

/-- The latched command state (10_state.md R33); a read before an accepted START is a fault
(93_implementation_defined.md U9). -/
def latched (s : State) : Except Fault Latch :=
  match s.latch with
  | some L => .ok L
  | none => .error .latchNoValue

/-- The value of a datapath register; a read of one without value faults (10_state.md R38). -/
def regValue {α : Type} (reg : DatapathReg) (v : Option α) : Except Fault α :=
  match v with
  | some x => .ok x
  | none => .error (.datapathNoValue reg)

/-! ## The two ports -/

/-- `SrcRead(off, n)`, defined when `off + n <= L_SRC_LEN` (20_memory.md R50); every offset below is readable (R61). -/
def srcRead (L : Latch) (s : State) (off n : Nat) : Except Fault (List Byte) :=
  if off + n ≤ L.srcLen.toNat then .ok (Memory.bytesAt .src s.src off n) else .error .srcOutOfRange

/-- `DstRead(off)`, defined when `off < L_DST_LEN` (20_memory.md R51). -/
def dstRead (L : Latch) (s : State) (off : Nat) : Except Fault Byte :=
  if off < L.dstLen.toNat then .ok (Memory.byteAt .dst s.dst off) else .error .dstOutOfRange

/-- `DstWrite(off, v)`, defined when `off < L_DST_LEN` (20_memory.md R51). -/
def dstWrite (L : Latch) (off : Nat) (v : Byte) (s : State) : Result :=
  if off < L.dstLen.toNat then .next { s with dst := Memory.write s.dst off v } else .fault .dstOutOfRange

/-- A sequence of DST byte writes. -/
def dstWriteAll (L : Latch) : List Host.Cell → State → Result
  | [], s => .next s
  | c :: cs, s => andThen (dstWrite L c.1 c.2 s) (dstWriteAll L cs)

/-- The four bytes of a pixel (42_color_transform.md R160). -/
def pixelRead (L : Latch) (s : State) (base : Nat) : Except Fault Pixel :=
  match dstRead L s base, dstRead L s (base + 1), dstRead L s (base + 2), dstRead L s (base + 3) with
  | .ok r, .ok g, .ok b, .ok a => .ok { r := r, g := g, b := b, a := a }
  | .error e, _, _, _ => .error e
  | _, .error e, _, _ => .error e
  | _, _, .error e, _ => .error e
  | _, _, _, .error e => .error e

/-- A transform operation on pixel `p` of the block: read the four bytes, apply `f`, write back the channels `ks` that it
changes; an overhang pixel is never transformed (42_color_transform.md R160). -/
def transformPixel (p : Lane) (f : Pixel → Pixel) (ks : List (Fin 4)) (s : State) : Result :=
  withValue (latched s) fun L =>
  withValue (regValue .origin s.dp.origin) fun o =>
  if inBounds L o p then
    withValue (pixelRead L s (lanePix L o p)) fun P =>
      dstWriteAll L (pixelStores (lanePix L o p) (f P) ks) s
  else .next s

/-! ## Errors -/

/-- `raise`: an error ends the command, and STATUS is all that is written (00_scope.md R13, 60_exceptions.md R210). There is no
return: STATUS keeps the error until the next accepted START (60_exceptions.md R218). -/
def raise (code : ErrCode) (s : State) : State := { s with status := .error code }

/-- The START action of a command of the given format (43_orchestrator.md R180), the only way out of an error (R218):
dropped while BUSY; else it latches, clears ABORT_REQ, checks, and raises the first error or begins the command. -/
def start (fmt : Format) (s : State) : State :=
  if s.status = .busy then s
  else
    let L := latchOf fmt s
    let t := { s with latch := some L, abortReq := false }
    match startError s.ctrl L with
    | some e => raise e t
    | none => { t with bX := 0, bY := 0, cursor := 0, ahead := [], status := .busy }

/-- Cancel at a block boundary (43_orchestrator.md R190). -/
def cancel (s : State) : State := raise .cancelled { s with abortReq := false, ahead := [] }

/-! ## The sequencer -/

/-- The number of the block at the sequencer position, in row-major order (43_orchestrator.md R183). -/
def blockNumber (L : Latch) (s : State) : Nat := s.bY * L.bcx + s.bX

/-- Advance CURSOR and the position by one block (43_orchestrator.md R186). -/
def advanceOne (L : Latch) (s : State) : State :=
  if s.bX + 1 = L.bcx then { s with cursor := s.cursor + L.bs, bX := 0, bY := s.bY + 1 }
  else { s with cursor := s.cursor + L.bs, bX := s.bX + 1 }

/-- Advance over the blocks that workers have decoded ahead of the position (none of them with WORKERS = 1). -/
def catchUp (L : Latch) : Nat → State → State
  | 0, s => s
  | k + 1, s =>
    if blockNumber L s ∈ s.ahead then
      catchUp L k (advanceOne L { s with ahead := s.ahead.filter (· != blockNumber L s) })
    else s

/-- The command is complete when no block row is left (43_orchestrator.md R186, R187). -/
def finish (L : Latch) (s : State) : State := if s.bY = L.bcy then { s with status := .done } else s

/-- The end of the block step that decoded block `n` (43_orchestrator.md R186): the datapath registers lose their values
(10_state.md R38); if `n` is the block at the position the sequencer advances, else the block is one done ahead. -/
def advance (L : Latch) (n : Nat) (s : State) : State :=
  let t := { s with dp := Datapath.empty }
  if n = blockNumber L t then finish L (catchUp L t.ahead.length (advanceOne L t))
  else { t with ahead := t.ahead ++ [n] }

/-- The block that the next block step decodes, and the state after the choice: the block at the position with WORKERS = 1,
any block not yet decoded (a free value) with WORKERS > 1 (43_orchestrator.md R183). -/
def pickBlock (L : Latch) (s : State) : Nat × State :=
  let pos := blockNumber L s
  if s.params.extraWorkers = 0 then (pos, s)
  else
    let n := pos + Config.freeBlock s.draws % (L.bcx * L.bcy - pos)
    (if n ∈ s.ahead then pos else n, { s with draws := s.draws + 1 })

/-- The column, row and SRC offset of block `n` (43_orchestrator.md R184): the sequencer's own position and CURSOR for the
block at the position (R185). -/
def blockPlace (L : Latch) (s : State) (n : Nat) : Nat × Nat × Nat :=
  if n = blockNumber L s then (s.bX, s.bY, s.cursor) else (n % L.bcx, n / L.bcx, L.bs * n)

/-! ## The host registers -/

/-- The value that a host read of a register returns (10_state.md R23, R30, R31). -/
def regRead (s : State) (off : Nat) : Word :=
  if off = offCtrl then s.ctrl
  else if off = offWidth then s.width
  else if off = offHeight then s.height
  else if off = offStride then s.stride
  else if off = offSrcLen then s.srcLen
  else if off = offDstLen then s.dstLen
  else if off = offStatus then statusWord s.status
  else 0

/-- A host write of a configuration register, dropped while BUSY (10_state.md R32); a write of STATUS or of any other
offset has no effect (R23, R31). CMD is no storage: a write of it is a command. -/
def regWrite (s : State) (off : Nat) (v : Word) : State :=
  if s.status = .busy then s
  else if off = offCtrl then { s with ctrl := v }
  else if off = offWidth then { s with width := v }
  else if off = offHeight then { s with height := v }
  else if off = offStride then { s with stride := v }
  else if off = offSrcLen then { s with srcLen := v }
  else if off = offDstLen then { s with dstLen := v }
  else s

end Sys2Proof.Machine
end

