-- ==== Sys2Proof/Machine/Bc1.lean ====
section
/-! DEFINITION. The BC1 block decoder (spec/40_bc1_decoder.md): one meaning per operation. Each writes its datapath registers or
stores to DST; none raises an error (R121). Outside a block step the registers it reads have no value, and it faults. -/

namespace Sys2Proof.Machine

/-- BC1.EXPAND: the packed endpoint and its expansion (40_bc1_decoder.md R105, R107). -/
def execBc1Expand (e : Endpoint) (c : BitVec 16) (s : State) : Result :=
  match e with
  | .zero => .next { s with dp := { s.dp with c0 := some c, e0Rgb := some (expand c) } }
  | .one => .next { s with dp := { s.dp with c1 := some c, e1Rgb := some (expand c) } }

/-- BC1.LUT4: the 4-colour table (40_bc1_decoder.md R109). DESIGN CHOICE (log entry 20): it also writes `four` = 1, an assignment that
R108 and R120 make outside any named operation. -/
def execBc1Lut4 (s : State) : Result :=
  withValue (regValue .e0Rgb s.dp.e0Rgb) fun c =>
  withValue (regValue .e1Rgb s.dp.e1Rgb) fun d =>
  .next { s with dp := { s.dp with table := some (lut4 c d), four := some true } }

/-- BC1.LUT3: the 3-colour table (40_bc1_decoder.md R110). DESIGN CHOICE (log entry 20): it also writes `four` = 0, as BC1.LUT4 writes
1. -/
def execBc1Lut3 (s : State) : Result :=
  withValue (regValue .e0Rgb s.dp.e0Rgb) fun c =>
  withValue (regValue .e1Rgb s.dp.e1Rgb) fun d =>
  .next { s with dp := { s.dp with table := some (lut3 c d), four := some false } }

/-- BC1.IDX2: the 16 two-bit indices (40_bc1_decoder.md R113). -/
def execBc1Idx2 (x : BitVec 32) (s : State) : Result :=
  .next { s with dp := { s.dp with idx2 := some (unpackIdx2 x) } }

/-- BC1.LOOKUP: the 16-lane lookup and clipped write (40_bc1_decoder.md R118), in the opacity mode of the latched format (R104). -/
def execBc1Lookup (s : State) : Result :=
  withValue (latched s) fun L =>
  withValue (regValue .table s.dp.table) fun t =>
  withValue (regValue .idx2 s.dp.idx2) fun x =>
  withValue (regValue .origin s.dp.origin) fun o =>
  dstWriteAll L (colourStores (opacityOf L.fmt) L o t x) s

end Sys2Proof.Machine
end

