-- ==== Sys2Proof/Machine/Bc3a.lean ====
section
/-! DEFINITION. The BC3 alpha sub-block decoder (spec/41_bc3_alpha_decoder.md): one meaning per operation. None raises an
error (R151). -/

namespace Sys2Proof.Machine

/-- BC3A.LUT8: the 8-step alpha table (41_bc3_alpha_decoder.md R141, R142). DESIGN CHOICE (log entry 20): it also writes e0 and e1, an
assignment that R141 and R150 make outside any named operation. -/
def execBc3aLut8 (e0 e1 : Byte) (s : State) : Result :=
  .next { s with dp := { s.dp with e0 := some e0, e1 := some e1, value := some (lut8 e0 e1) } }

/-- BC3A.LUT6: the 6-step alpha table (41_bc3_alpha_decoder.md R141, R143). DESIGN CHOICE (log entry 20): it also writes e0 and e1, as
BC3A.LUT8 does. -/
def execBc3aLut6 (e0 e1 : Byte) (s : State) : Result :=
  .next { s with dp := { s.dp with e0 := some e0, e1 := some e1, value := some (lut6 e0 e1) } }

/-- BC3A.IDX3: the 16 three-bit indices (41_bc3_alpha_decoder.md R146). -/
def execBc3aIdx3 (x : BitVec 48) (s : State) : Result :=
  .next { s with dp := { s.dp with idx3 := some (unpackIdx3 x) } }

/-- BC3A.LOOKUP: the 16-lane lookup and clipped alpha write (41_bc3_alpha_decoder.md R148). -/
def execBc3aLookup (s : State) : Result :=
  withValue (latched s) fun L =>
  withValue (regValue .value s.dp.value) fun t =>
  withValue (regValue .idx3 s.dp.idx3) fun x =>
  withValue (regValue .origin s.dp.origin) fun o =>
  dstWriteAll L (alphaStores L o t x) s

end Sys2Proof.Machine
end

