-- ==== Sys2Proof/Machine/Xform.lean ====
section
/-! DEFINITION. The colour-space and normal transforms (spec/42_color_transform.md): one meaning per operation, on one pixel of the
block of the running block step. Each writes back the channels it changes (R160). None raises an error (R170). -/

namespace Sys2Proof.Machine

/-- XF.YCOCG: all four channels through the open parameter YCOCG_INV (42_color_transform.md R162). -/
def execXfYcocg (p : Lane) (s : State) : Result :=
  transformPixel p Config.ycocgInv [0, 1, 2, 3] s

/-- XF.SWAP_RA: exchange R and A (42_color_transform.md R163). -/
def execXfSwapRa (p : Lane) (s : State) : Result :=
  transformPixel p swapRa [0, 3] s

/-- XF.NRM_SQRT: B from R and G by square root (42_color_transform.md R164). -/
def execXfNrmSqrt (p : Lane) (s : State) : Result :=
  transformPixel p nrmSqrt [2] s

/-- XF.NRM_HEMIOCT: R, G and B from R and G through the open parameter HEMIOCT_INV (42_color_transform.md R165). -/
def execXfNrmHemioct (p : Lane) (s : State) : Result :=
  transformPixel p nrmHemioct [0, 1, 2] s

end Sys2Proof.Machine
end

