-- ==== Sys2Proof/Machine/Orchestrator.lean ====
section
/-! DEFINITION. The host commands and the block step (spec/43_orchestrator.md). -/

namespace Sys2Proof.Machine

/-- DECODE.BC1: the START action with L_FMT = 0; the block steps follow as steps of the engine (43_orchestrator.md R181). -/
def execDecodeBc1 (s : State) : Result := .next (start .bc1 s)

/-- DECODE.BC3: the START action with L_FMT = 1; the block steps follow as steps of the engine (43_orchestrator.md R182). -/
def execDecodeBc3 (s : State) : Result := .next (start .bc3 s)

/-- ABORT: request cancellation while BUSY, else no effect (43_orchestrator.md R189). -/
def execAbort (s : State) : Result :=
  .next (if s.status = .busy then { s with abortReq := true } else s)

/-- One operation of a block step. A block selects datapath and transform operations only (30_encoding.md R81), so the four
arms of the commands and of BLOCK.STEP itself are never used; they do nothing. -/
def runOp (x : Instr) (s : State) : Result :=
  match x with
  | .bc1Expand e c => execBc1Expand e c s
  | .bc1Lut4 => execBc1Lut4 s
  | .bc1Lut3 => execBc1Lut3 s
  | .bc1Idx2 x => execBc1Idx2 x s
  | .bc1Lookup => execBc1Lookup s
  | .bc3aLut8 e0 e1 => execBc3aLut8 e0 e1 s
  | .bc3aLut6 e0 e1 => execBc3aLut6 e0 e1 s
  | .bc3aIdx3 x => execBc3aIdx3 x s
  | .bc3aLookup => execBc3aLookup s
  | .xfYcocg p _ _ _ => execXfYcocg p s
  | .xfSwapRa p _ _ _ => execXfSwapRa p s
  | .xfNrmSqrt p _ _ => execXfNrmSqrt p s
  | .xfNrmHemioct p _ _ => execXfNrmHemioct p s
  | .decodeBc1 => .next s
  | .decodeBc3 => .next s
  | .abort => .next s
  | .blockStep => .next s

/-- The operations of a block step, one after another. -/
def runOps : List Instr → State → Result
  | [], s => .next s
  | x :: xs, s => andThen (runOp x s) (runOps xs)

/-- Decode and transform block `n` of the latched command, then advance (43_orchestrator.md R185, R186): read its bytes from SRC,
set the origin, run the operations that the bytes and the latched flags select. -/
def stepBlock (L : Latch) (n : Nat) (s : State) : Result :=
  let (bx, by', off) := blockPlace L s n
  withValue (srcRead L s off L.bs) fun blk =>
    andThen
      (runOps (blockOps L.fmt s.params.colorMode L.ycocg L.normalize L.hemioct blk)
        { s with dp := { Datapath.empty with origin := some { x := 4 * bx, y := 4 * by' } } })
      fun t => .next (advance L n t)

/-- BLOCK.STEP (43_orchestrator.md R185): enabled while STATE = BUSY and `BY < BCY`; where it is not, the engine takes no step
(60_exceptions.md R226; log entry 10). -/
def execBlockStep (s : State) : Result :=
  if s.status = .busy then
    withValue (latched s) fun L =>
    if s.bY < L.bcy then
      if s.abortReq then .next (cancel s)
      else stepBlock L (pickBlock L s).1 (pickBlock L s).2
    else .next s
  else .next s

end Sys2Proof.Machine
end

