-- ==== Sys2Proof/Machine/Dispatch.lean ====
section
/-! DEFINITION. One arm per operation of spec/opcode_table.json. -/

namespace Sys2Proof.Machine

open Sys2Proof

def exec (i : Instr) (s : State) : Host.Outcome State Fault Refusal :=
  match i with
  | .decodeBc1 => Sys2Proof.Machine.execDecodeBc1 s
  | .decodeBc3 => Sys2Proof.Machine.execDecodeBc3 s
  | .abort => Sys2Proof.Machine.execAbort s
  | .blockStep => Sys2Proof.Machine.execBlockStep s
  | .bc1Expand e c => Sys2Proof.Machine.execBc1Expand e c s
  | .bc1Lut4 => Sys2Proof.Machine.execBc1Lut4 s
  | .bc1Lut3 => Sys2Proof.Machine.execBc1Lut3 s
  | .bc1Idx2 x => Sys2Proof.Machine.execBc1Idx2 x s
  | .bc1Lookup => Sys2Proof.Machine.execBc1Lookup s
  | .bc3aLut8 e0 e1 => Sys2Proof.Machine.execBc3aLut8 e0 e1 s
  | .bc3aLut6 e0 e1 => Sys2Proof.Machine.execBc3aLut6 e0 e1 s
  | .bc3aIdx3 x => Sys2Proof.Machine.execBc3aIdx3 x s
  | .bc3aLookup => Sys2Proof.Machine.execBc3aLookup s
  | .xfYcocg p _ _ _ => Sys2Proof.Machine.execXfYcocg p s
  | .xfSwapRa p _ _ _ => Sys2Proof.Machine.execXfSwapRa p s
  | .xfNrmSqrt p _ _ => Sys2Proof.Machine.execXfNrmSqrt p s
  | .xfNrmHemioct p _ _ => Sys2Proof.Machine.execXfNrmHemioct p s

end Sys2Proof.Machine
end

