-- ==== Sys2Proof/Machine/Moves.lean ====
section
/-! DEFINITION. The moves of the two agents: the host's actions (spec/30_encoding.md R84, spec/70_reset_and_hazards.md R240, R243,
R251), reset, and who moves next (R249). The engine's move is BLOCK.STEP. -/

namespace Sys2Proof.Machine

open Sys2Proof

/-! ## Reset -/

/-- The DST offsets of the bytes inside the in-bounds pixels of the latched image (20_memory.md R52). -/
def imageOffsets (L : Latch) : List Nat :=
  (List.range L.h.toNat).flatMap fun y =>
    (List.range L.w.toNat).flatMap fun x =>
      [L.pix x y, L.pix x y + 1, L.pix x y + 2, L.pix x y + 3]

/-- Give each of the DST bytes a free value (93 U10). -/
def drawBytes : List Nat → State → State
  | [], s => s
  | a :: as, s =>
    drawBytes as { s with dst := Memory.write s.dst a (Config.freeByte s.draws), draws := s.draws + 1 }

/-- What a reset does to DST: a command that is BUSY is abandoned and every DST byte inside its in-bounds pixels may hold any
value (70_reset_and_hazards.md R241); otherwise nothing (R240). -/
def abandon (s : State) : State :=
  if s.status = .busy then
    match s.latch with
    | some L => drawBytes (imageOffsets L) s
    | none => s
  else s

/-- Reset of the core (70_reset_and_hazards.md R240): its own state takes the reset values; SRC, the parameters and the host's
side stay, DST but for R241. -/
def coreReset (s : State) : State :=
  { State.reset with
    src := s.src
    dst := (abandon s).dst
    draws := (abandon s).draws
    params := s.params
    prog := s.prog
    turns := s.turns
    rdata := s.rdata }

/-! ## The host's actions -/

/-- A write of CMD (10_state.md R30): the command it encodes under the present CTRL.FMT, or no effect. -/
def writeCmd (v : Word) (s : State) : Result :=
  match decodeCommand (ctrlFmt s.ctrl) v with
  | some x => exec x s
  | none => .next s

/-- A host write (30_encoding.md R84); the host accesses registers at multiples of 4 only (70 R251 H-5). -/
def hostWrite (off : Nat) (v : Word) (s : State) : Result :=
  if off % 4 = 0 then
    if off = offCmd then writeCmd v s else .next (regWrite s off v)
  else .fault .hostUnalignedRegister

/-- A host read (30_encoding.md R84): no register changes, and the host gets the register's present value (10_state.md R32). -/
def hostRead (off : Nat) (s : State) : Result :=
  if off % 4 = 0 then .next { s with rdata := regRead s off } else .fault .hostUnalignedRegister

/-- The field of `width` bits from bit `lo` up. -/
def fieldOf (w : Word) (lo width : Nat) : Nat := w.toNat / 2 ^ lo % 2 ^ width

/-- One read of `WAIT` (30_encoding.md R84): the action stays pending while the field still has the value `v`. -/
def hostWait (off lo width v : Nat) (s : State) : Result :=
  if off % 4 = 0 then
    let t := { s with rdata := regRead s off }
    .next (if fieldOf (regRead s off) lo width = v then { t with prog := .wait off lo width v :: t.prog } else t)
  else .fault .hostUnalignedRegister

/-- An access of the host to SRC or DST, which it has not while BUSY (20_memory.md R63, 70 R251 H-1, H-2). DESIGN CHOICE (log
entry 19): as soon as STATUS is not BUSY the host sees all the command's DST writes, although R63 promises them only from the
STATUS read that shows the end. -/
def hostBuffer (f : State → Result) (s : State) : Result :=
  if s.status = .busy then .fault .hostAccessWhileBusy else f s

/-- The host reads the byte that DST holds at an offset (70_reset_and_hazards.md R243 step 6). -/
def hostReadDst (off : Nat) (s : State) : Result :=
  .next { s with rdata := (Memory.byteAt .dst s.dst off).zeroExtend 32 }

/-- The host's action, already taken from the pending ones. -/
def hostMove (a : HostAction) (s : State) : Result :=
  match a with
  | .wr off v => hostWrite off v s
  | .rd off => hostRead off s
  | .wait off lo width v => hostWait off lo width v s
  | .placeSrc off bytes => hostBuffer (fun t => .next { t with src := Memory.writeBytes t.src off bytes }) s
  | .placeDst off bytes => hostBuffer (fun t => .next { t with dst := Memory.writeBytes t.dst off bytes }) s
  | .readDst off => hostBuffer (hostReadDst off) s
  | .reset => .next (coreReset s)

/-! ## Who moves -/

/-- A free schedule: a finite number of turns of the host, then one of the engine. As the schedule stands, the first turn and the
turns after it. Every schedule that is weakly fair to the engine is a sequence of these, and that is the assumption which
70_reset_and_hazards.md R253 asks of a model (log entry 6). -/
def freeTurns (n : Nat) : Agent × List Agent :=
  match Config.hostTurns n with
  | 0 => (.engine, [])
  | k + 1 => (.host, List.replicate k .host ++ [.engine])

/-- Whose turn it is when both agents can move (70_reset_and_hazards.md R249, 93 U12): the schedule's next entry, and a free but
fair schedule where it is exhausted. -/
def takeTurn (s : State) : Agent × State :=
  match s.turns with
  | a :: as => (a, { s with turns := as })
  | [] => ((freeTurns s.draws).1, { s with turns := (freeTurns s.draws).2, draws := s.draws + 1 })

/-- One move of the machine. The engine can move while BUSY, the host while it has a pending action; where neither can, nothing
happens (70_reset_and_hazards.md R240, 60_exceptions.md R226). -/
def move (s : State) : Result :=
  match s.prog with
  | [] => if s.status = .busy then exec .blockStep s else .next s
  | a :: rest =>
    if s.status = .busy then
      match takeTurn s with
      | (.host, t) => hostMove a { t with prog := rest }
      | (.engine, t) => exec .blockStep t
    else hostMove a { s with prog := rest }

/-! ## Placing a table word -/

/-- Make the next move the host's write of `w` to CMD, with CTRL.FMT = 0. -/
def placeCommand (s : State) (w : Word) : State :=
  { s with
    ctrl := s.ctrl &&& 0xFFFFFFFE#32
    prog := .wr offCmd w :: s.prog
    turns := if s.status = .busy then .host :: s.turns else s.turns }

/-- Make the next move the block step of a one-block command with these transform flags, image size and block. -/
def placeBlock (s : State) (fmt : Format) (y n h : Bool) (size : Nat) (blk : List Byte) : State :=
  { s with
    status := .busy
    latch := some { fmt := fmt, ycocg := y, normalize := n, hemioct := h
                    w := BitVec.ofNat 32 size, h := BitVec.ofNat 32 size, stride := BitVec.ofNat 32 (4 * size)
                    srcLen := BitVec.ofNat 32 (blockSize fmt), dstLen := BitVec.ofNat 32 (4 * size * size) }
    bX := 0
    bY := 0
    cursor := 0
    abortReq := false
    ahead := []
    src := Memory.writeBytes s.src 0 blk
    turns := if s.prog.isEmpty then s.turns else .engine :: s.turns }

/-- Place the encoding that `decodeTableWord` reads where the next move finds it: a command word as the host's write of CMD; a
CTRL word as the latched flags of a one-pixel command with a block of zeros, whose block step transforms pixel 0; a packed
endpoint as c0 of a BC1 block, and a block at CURSOR. -/
def placeTableWord (s : State) (nbits w : Nat) : State :=
  match nbits with
  | 16 => placeBlock s .bc1 false false false 4 (leBytes 2 w ++ leBytes 6 0)
  | 32 =>
    let v : Word := BitVec.ofNat 32 w
    match decodeTableWord 32 w with
    | some .decodeBc1 => placeCommand s v
    | some .abort => placeCommand s v
    | some _ => placeBlock s (ctrlFmt v) (ctrlYcocg v) (ctrlNormalize v) (ctrlHemioct v) 1
                  (leBytes (blockSize (ctrlFmt v)) 0)
    | none => placeCommand s v
  | 64 => placeBlock s .bc1 false false false 4 (leBytes 8 w)
  | 128 => placeBlock s .bc3 false false false 4 (leBytes 16 w)
  | _ => s

end Sys2Proof.Machine
end

