-- ==== Sys2Proof/Machine/Step.lean ====
section
/-! DEFINITION. One step of the machine: one move of one agent (spec/10_state.md R20). -/

namespace Sys2Proof.Machine

/-- One step: the host's next action, or the engine's block step (10_state.md R20). -/
def step (s : State) : Host.Outcome State Fault Refusal := move s

/-- The state with the encoding `w` of `nbits` bits placed so that the next step runs it (see `placeTableWord`; log entry 11). -/
def State.withFetchWord (s : State) (nbits w : Nat) : State := placeTableWord s nbits w

end Sys2Proof.Machine
end

