-- ==== Sys2Proof/Laws/State.lean ====
section
/-! SUPPORT. The small lemmas of the state updates: one per field per named update, so that no proof unfolds an update. -/

namespace Sys2Proof.Machine

open Sys2Proof

/-! ## raise -/

@[simp] theorem raise_ctrl (c : ErrCode) (s : State) :
    (raise c s).ctrl = s.ctrl := rfl

@[simp] theorem raise_width (c : ErrCode) (s : State) :
    (raise c s).width = s.width := rfl

@[simp] theorem raise_height (c : ErrCode) (s : State) :
    (raise c s).height = s.height := rfl

@[simp] theorem raise_stride (c : ErrCode) (s : State) :
    (raise c s).stride = s.stride := rfl

@[simp] theorem raise_srcLen (c : ErrCode) (s : State) :
    (raise c s).srcLen = s.srcLen := rfl

@[simp] theorem raise_dstLen (c : ErrCode) (s : State) :
    (raise c s).dstLen = s.dstLen := rfl

@[simp] theorem raise_status (c : ErrCode) (s : State) :
    (raise c s).status = .error c := rfl

@[simp] theorem raise_latch (c : ErrCode) (s : State) :
    (raise c s).latch = s.latch := rfl

@[simp] theorem raise_bX (c : ErrCode) (s : State) :
    (raise c s).bX = s.bX := rfl

@[simp] theorem raise_bY (c : ErrCode) (s : State) :
    (raise c s).bY = s.bY := rfl

@[simp] theorem raise_cursor (c : ErrCode) (s : State) :
    (raise c s).cursor = s.cursor := rfl

@[simp] theorem raise_abortReq (c : ErrCode) (s : State) :
    (raise c s).abortReq = s.abortReq := rfl

@[simp] theorem raise_dp (c : ErrCode) (s : State) :
    (raise c s).dp = s.dp := rfl

@[simp] theorem raise_src (c : ErrCode) (s : State) :
    (raise c s).src = s.src := rfl

@[simp] theorem raise_dst (c : ErrCode) (s : State) :
    (raise c s).dst = s.dst := rfl

@[simp] theorem raise_params (c : ErrCode) (s : State) :
    (raise c s).params = s.params := rfl

@[simp] theorem raise_ahead (c : ErrCode) (s : State) :
    (raise c s).ahead = s.ahead := rfl

@[simp] theorem raise_prog (c : ErrCode) (s : State) :
    (raise c s).prog = s.prog := rfl

@[simp] theorem raise_turns (c : ErrCode) (s : State) :
    (raise c s).turns = s.turns := rfl

@[simp] theorem raise_draws (c : ErrCode) (s : State) :
    (raise c s).draws = s.draws := rfl

@[simp] theorem raise_rdata (c : ErrCode) (s : State) :
    (raise c s).rdata = s.rdata := rfl

/-! ## cancel -/

@[simp] theorem cancel_ctrl (s : State) :
    (cancel s).ctrl = s.ctrl := rfl

@[simp] theorem cancel_width (s : State) :
    (cancel s).width = s.width := rfl

@[simp] theorem cancel_height (s : State) :
    (cancel s).height = s.height := rfl

@[simp] theorem cancel_stride (s : State) :
    (cancel s).stride = s.stride := rfl

@[simp] theorem cancel_srcLen (s : State) :
    (cancel s).srcLen = s.srcLen := rfl

@[simp] theorem cancel_dstLen (s : State) :
    (cancel s).dstLen = s.dstLen := rfl

@[simp] theorem cancel_status (s : State) :
    (cancel s).status = .error .cancelled := rfl

@[simp] theorem cancel_latch (s : State) :
    (cancel s).latch = s.latch := rfl

@[simp] theorem cancel_bX (s : State) :
    (cancel s).bX = s.bX := rfl

@[simp] theorem cancel_bY (s : State) :
    (cancel s).bY = s.bY := rfl

@[simp] theorem cancel_cursor (s : State) :
    (cancel s).cursor = s.cursor := rfl

@[simp] theorem cancel_abortReq (s : State) :
    (cancel s).abortReq = false := rfl

@[simp] theorem cancel_dp (s : State) :
    (cancel s).dp = s.dp := rfl

@[simp] theorem cancel_src (s : State) :
    (cancel s).src = s.src := rfl

@[simp] theorem cancel_dst (s : State) :
    (cancel s).dst = s.dst := rfl

@[simp] theorem cancel_params (s : State) :
    (cancel s).params = s.params := rfl

@[simp] theorem cancel_ahead (s : State) :
    (cancel s).ahead = [] := rfl

@[simp] theorem cancel_prog (s : State) :
    (cancel s).prog = s.prog := rfl

@[simp] theorem cancel_turns (s : State) :
    (cancel s).turns = s.turns := rfl

@[simp] theorem cancel_draws (s : State) :
    (cancel s).draws = s.draws := rfl

@[simp] theorem cancel_rdata (s : State) :
    (cancel s).rdata = s.rdata := rfl

/-! ## advanceOne -/

@[simp] theorem advanceOne_ctrl (L : Latch) (s : State) :
    (advanceOne L s).ctrl = s.ctrl := by
  unfold advanceOne; split <;> rfl

@[simp] theorem advanceOne_width (L : Latch) (s : State) :
    (advanceOne L s).width = s.width := by
  unfold advanceOne; split <;> rfl

@[simp] theorem advanceOne_height (L : Latch) (s : State) :
    (advanceOne L s).height = s.height := by
  unfold advanceOne; split <;> rfl

@[simp] theorem advanceOne_stride (L : Latch) (s : State) :
    (advanceOne L s).stride = s.stride := by
  unfold advanceOne; split <;> rfl

@[simp] theorem advanceOne_srcLen (L : Latch) (s : State) :
    (advanceOne L s).srcLen = s.srcLen := by
  unfold advanceOne; split <;> rfl

@[simp] theorem advanceOne_dstLen (L : Latch) (s : State) :
    (advanceOne L s).dstLen = s.dstLen := by
  unfold advanceOne; split <;> rfl

@[simp] theorem advanceOne_status (L : Latch) (s : State) :
    (advanceOne L s).status = s.status := by
  unfold advanceOne; split <;> rfl

@[simp] theorem advanceOne_latch (L : Latch) (s : State) :
    (advanceOne L s).latch = s.latch := by
  unfold advanceOne; split <;> rfl

@[simp] theorem advanceOne_cursor (L : Latch) (s : State) :
    (advanceOne L s).cursor = s.cursor + L.bs := by
  unfold advanceOne; split <;> rfl

@[simp] theorem advanceOne_abortReq (L : Latch) (s : State) :
    (advanceOne L s).abortReq = s.abortReq := by
  unfold advanceOne; split <;> rfl

@[simp] theorem advanceOne_dp (L : Latch) (s : State) :
    (advanceOne L s).dp = s.dp := by
  unfold advanceOne; split <;> rfl

@[simp] theorem advanceOne_src (L : Latch) (s : State) :
    (advanceOne L s).src = s.src := by
  unfold advanceOne; split <;> rfl

@[simp] theorem advanceOne_dst (L : Latch) (s : State) :
    (advanceOne L s).dst = s.dst := by
  unfold advanceOne; split <;> rfl

@[simp] theorem advanceOne_params (L : Latch) (s : State) :
    (advanceOne L s).params = s.params := by
  unfold advanceOne; split <;> rfl

@[simp] theorem advanceOne_ahead (L : Latch) (s : State) :
    (advanceOne L s).ahead = s.ahead := by
  unfold advanceOne; split <;> rfl

@[simp] theorem advanceOne_prog (L : Latch) (s : State) :
    (advanceOne L s).prog = s.prog := by
  unfold advanceOne; split <;> rfl

@[simp] theorem advanceOne_turns (L : Latch) (s : State) :
    (advanceOne L s).turns = s.turns := by
  unfold advanceOne; split <;> rfl

@[simp] theorem advanceOne_draws (L : Latch) (s : State) :
    (advanceOne L s).draws = s.draws := by
  unfold advanceOne; split <;> rfl

@[simp] theorem advanceOne_rdata (L : Latch) (s : State) :
    (advanceOne L s).rdata = s.rdata := by
  unfold advanceOne; split <;> rfl

/-! ## catchUp: only the position, CURSOR and the blocks done ahead can change -/

@[simp] theorem catchUp_ctrl (L : Latch) (k : Nat) (s : State) : (catchUp L k s).ctrl = s.ctrl := by
  induction k generalizing s with
  | zero => rfl
  | succ k ih => unfold catchUp; split <;> simp [ih]

@[simp] theorem catchUp_width (L : Latch) (k : Nat) (s : State) : (catchUp L k s).width = s.width := by
  induction k generalizing s with
  | zero => rfl
  | succ k ih => unfold catchUp; split <;> simp [ih]

@[simp] theorem catchUp_height (L : Latch) (k : Nat) (s : State) : (catchUp L k s).height = s.height := by
  induction k generalizing s with
  | zero => rfl
  | succ k ih => unfold catchUp; split <;> simp [ih]

@[simp] theorem catchUp_stride (L : Latch) (k : Nat) (s : State) : (catchUp L k s).stride = s.stride := by
  induction k generalizing s with
  | zero => rfl
  | succ k ih => unfold catchUp; split <;> simp [ih]

@[simp] theorem catchUp_srcLen (L : Latch) (k : Nat) (s : State) : (catchUp L k s).srcLen = s.srcLen := by
  induction k generalizing s with
  | zero => rfl
  | succ k ih => unfold catchUp; split <;> simp [ih]

@[simp] theorem catchUp_dstLen (L : Latch) (k : Nat) (s : State) : (catchUp L k s).dstLen = s.dstLen := by
  induction k generalizing s with
  | zero => rfl
  | succ k ih => unfold catchUp; split <;> simp [ih]

@[simp] theorem catchUp_status (L : Latch) (k : Nat) (s : State) : (catchUp L k s).status = s.status := by
  induction k generalizing s with
  | zero => rfl
  | succ k ih => unfold catchUp; split <;> simp [ih]

@[simp] theorem catchUp_latch (L : Latch) (k : Nat) (s : State) : (catchUp L k s).latch = s.latch := by
  induction k generalizing s with
  | zero => rfl
  | succ k ih => unfold catchUp; split <;> simp [ih]

@[simp] theorem catchUp_abortReq (L : Latch) (k : Nat) (s : State) : (catchUp L k s).abortReq = s.abortReq := by
  induction k generalizing s with
  | zero => rfl
  | succ k ih => unfold catchUp; split <;> simp [ih]

@[simp] theorem catchUp_dp (L : Latch) (k : Nat) (s : State) : (catchUp L k s).dp = s.dp := by
  induction k generalizing s with
  | zero => rfl
  | succ k ih => unfold catchUp; split <;> simp [ih]

@[simp] theorem catchUp_src (L : Latch) (k : Nat) (s : State) : (catchUp L k s).src = s.src := by
  induction k generalizing s with
  | zero => rfl
  | succ k ih => unfold catchUp; split <;> simp [ih]

@[simp] theorem catchUp_dst (L : Latch) (k : Nat) (s : State) : (catchUp L k s).dst = s.dst := by
  induction k generalizing s with
  | zero => rfl
  | succ k ih => unfold catchUp; split <;> simp [ih]

@[simp] theorem catchUp_params (L : Latch) (k : Nat) (s : State) : (catchUp L k s).params = s.params := by
  induction k generalizing s with
  | zero => rfl
  | succ k ih => unfold catchUp; split <;> simp [ih]

@[simp] theorem catchUp_prog (L : Latch) (k : Nat) (s : State) : (catchUp L k s).prog = s.prog := by
  induction k generalizing s with
  | zero => rfl
  | succ k ih => unfold catchUp; split <;> simp [ih]

@[simp] theorem catchUp_turns (L : Latch) (k : Nat) (s : State) : (catchUp L k s).turns = s.turns := by
  induction k generalizing s with
  | zero => rfl
  | succ k ih => unfold catchUp; split <;> simp [ih]

@[simp] theorem catchUp_draws (L : Latch) (k : Nat) (s : State) : (catchUp L k s).draws = s.draws := by
  induction k generalizing s with
  | zero => rfl
  | succ k ih => unfold catchUp; split <;> simp [ih]

@[simp] theorem catchUp_rdata (L : Latch) (k : Nat) (s : State) : (catchUp L k s).rdata = s.rdata := by
  induction k generalizing s with
  | zero => rfl
  | succ k ih => unfold catchUp; split <;> simp [ih]

/-! ## finish -/

@[simp] theorem finish_ctrl (L : Latch) (s : State) :
    (finish L s).ctrl = s.ctrl := by
  unfold finish; split <;> rfl

@[simp] theorem finish_width (L : Latch) (s : State) :
    (finish L s).width = s.width := by
  unfold finish; split <;> rfl

@[simp] theorem finish_height (L : Latch) (s : State) :
    (finish L s).height = s.height := by
  unfold finish; split <;> rfl

@[simp] theorem finish_stride (L : Latch) (s : State) :
    (finish L s).stride = s.stride := by
  unfold finish; split <;> rfl

@[simp] theorem finish_srcLen (L : Latch) (s : State) :
    (finish L s).srcLen = s.srcLen := by
  unfold finish; split <;> rfl

@[simp] theorem finish_dstLen (L : Latch) (s : State) :
    (finish L s).dstLen = s.dstLen := by
  unfold finish; split <;> rfl

@[simp] theorem finish_latch (L : Latch) (s : State) :
    (finish L s).latch = s.latch := by
  unfold finish; split <;> rfl

@[simp] theorem finish_bX (L : Latch) (s : State) :
    (finish L s).bX = s.bX := by
  unfold finish; split <;> rfl

@[simp] theorem finish_bY (L : Latch) (s : State) :
    (finish L s).bY = s.bY := by
  unfold finish; split <;> rfl

@[simp] theorem finish_cursor (L : Latch) (s : State) :
    (finish L s).cursor = s.cursor := by
  unfold finish; split <;> rfl

@[simp] theorem finish_abortReq (L : Latch) (s : State) :
    (finish L s).abortReq = s.abortReq := by
  unfold finish; split <;> rfl

@[simp] theorem finish_dp (L : Latch) (s : State) :
    (finish L s).dp = s.dp := by
  unfold finish; split <;> rfl

@[simp] theorem finish_src (L : Latch) (s : State) :
    (finish L s).src = s.src := by
  unfold finish; split <;> rfl

@[simp] theorem finish_dst (L : Latch) (s : State) :
    (finish L s).dst = s.dst := by
  unfold finish; split <;> rfl

@[simp] theorem finish_params (L : Latch) (s : State) :
    (finish L s).params = s.params := by
  unfold finish; split <;> rfl

@[simp] theorem finish_ahead (L : Latch) (s : State) :
    (finish L s).ahead = s.ahead := by
  unfold finish; split <;> rfl

@[simp] theorem finish_prog (L : Latch) (s : State) :
    (finish L s).prog = s.prog := by
  unfold finish; split <;> rfl

@[simp] theorem finish_turns (L : Latch) (s : State) :
    (finish L s).turns = s.turns := by
  unfold finish; split <;> rfl

@[simp] theorem finish_draws (L : Latch) (s : State) :
    (finish L s).draws = s.draws := by
  unfold finish; split <;> rfl

@[simp] theorem finish_rdata (L : Latch) (s : State) :
    (finish L s).rdata = s.rdata := by
  unfold finish; split <;> rfl

/-! ## advance: what the end of a block step never changes -/

@[simp] theorem advance_ctrl (L : Latch) (n : Nat) (s : State) :
    (advance L n s).ctrl = s.ctrl := by
  unfold advance; simp only; split <;> simp

@[simp] theorem advance_width (L : Latch) (n : Nat) (s : State) :
    (advance L n s).width = s.width := by
  unfold advance; simp only; split <;> simp

@[simp] theorem advance_height (L : Latch) (n : Nat) (s : State) :
    (advance L n s).height = s.height := by
  unfold advance; simp only; split <;> simp

@[simp] theorem advance_stride (L : Latch) (n : Nat) (s : State) :
    (advance L n s).stride = s.stride := by
  unfold advance; simp only; split <;> simp

@[simp] theorem advance_srcLen (L : Latch) (n : Nat) (s : State) :
    (advance L n s).srcLen = s.srcLen := by
  unfold advance; simp only; split <;> simp

@[simp] theorem advance_dstLen (L : Latch) (n : Nat) (s : State) :
    (advance L n s).dstLen = s.dstLen := by
  unfold advance; simp only; split <;> simp

@[simp] theorem advance_latch (L : Latch) (n : Nat) (s : State) :
    (advance L n s).latch = s.latch := by
  unfold advance; simp only; split <;> simp

@[simp] theorem advance_abortReq (L : Latch) (n : Nat) (s : State) :
    (advance L n s).abortReq = s.abortReq := by
  unfold advance; simp only; split <;> simp

@[simp] theorem advance_dp (L : Latch) (n : Nat) (s : State) :
    (advance L n s).dp = Datapath.empty := by
  unfold advance; simp only; split <;> simp

@[simp] theorem advance_src (L : Latch) (n : Nat) (s : State) :
    (advance L n s).src = s.src := by
  unfold advance; simp only; split <;> simp

@[simp] theorem advance_dst (L : Latch) (n : Nat) (s : State) :
    (advance L n s).dst = s.dst := by
  unfold advance; simp only; split <;> simp

@[simp] theorem advance_params (L : Latch) (n : Nat) (s : State) :
    (advance L n s).params = s.params := by
  unfold advance; simp only; split <;> simp

@[simp] theorem advance_prog (L : Latch) (n : Nat) (s : State) :
    (advance L n s).prog = s.prog := by
  unfold advance; simp only; split <;> simp

@[simp] theorem advance_turns (L : Latch) (n : Nat) (s : State) :
    (advance L n s).turns = s.turns := by
  unfold advance; simp only; split <;> simp

@[simp] theorem advance_draws (L : Latch) (n : Nat) (s : State) :
    (advance L n s).draws = s.draws := by
  unfold advance; simp only; split <;> simp

@[simp] theorem advance_rdata (L : Latch) (n : Nat) (s : State) :
    (advance L n s).rdata = s.rdata := by
  unfold advance; simp only; split <;> simp

/-! ## regWrite: what a host register write never changes -/

@[simp] theorem regWrite_status (s : State) (off : Nat) (v : Word) :
    (regWrite s off v).status = s.status := by
  unfold regWrite; repeat' split
  all_goals rfl

@[simp] theorem regWrite_latch (s : State) (off : Nat) (v : Word) :
    (regWrite s off v).latch = s.latch := by
  unfold regWrite; repeat' split
  all_goals rfl

@[simp] theorem regWrite_bX (s : State) (off : Nat) (v : Word) :
    (regWrite s off v).bX = s.bX := by
  unfold regWrite; repeat' split
  all_goals rfl

@[simp] theorem regWrite_bY (s : State) (off : Nat) (v : Word) :
    (regWrite s off v).bY = s.bY := by
  unfold regWrite; repeat' split
  all_goals rfl

@[simp] theorem regWrite_cursor (s : State) (off : Nat) (v : Word) :
    (regWrite s off v).cursor = s.cursor := by
  unfold regWrite; repeat' split
  all_goals rfl

@[simp] theorem regWrite_abortReq (s : State) (off : Nat) (v : Word) :
    (regWrite s off v).abortReq = s.abortReq := by
  unfold regWrite; repeat' split
  all_goals rfl

@[simp] theorem regWrite_dp (s : State) (off : Nat) (v : Word) :
    (regWrite s off v).dp = s.dp := by
  unfold regWrite; repeat' split
  all_goals rfl

@[simp] theorem regWrite_src (s : State) (off : Nat) (v : Word) :
    (regWrite s off v).src = s.src := by
  unfold regWrite; repeat' split
  all_goals rfl

@[simp] theorem regWrite_dst (s : State) (off : Nat) (v : Word) :
    (regWrite s off v).dst = s.dst := by
  unfold regWrite; repeat' split
  all_goals rfl

@[simp] theorem regWrite_params (s : State) (off : Nat) (v : Word) :
    (regWrite s off v).params = s.params := by
  unfold regWrite; repeat' split
  all_goals rfl

@[simp] theorem regWrite_ahead (s : State) (off : Nat) (v : Word) :
    (regWrite s off v).ahead = s.ahead := by
  unfold regWrite; repeat' split
  all_goals rfl

@[simp] theorem regWrite_prog (s : State) (off : Nat) (v : Word) :
    (regWrite s off v).prog = s.prog := by
  unfold regWrite; repeat' split
  all_goals rfl

@[simp] theorem regWrite_turns (s : State) (off : Nat) (v : Word) :
    (regWrite s off v).turns = s.turns := by
  unfold regWrite; repeat' split
  all_goals rfl

@[simp] theorem regWrite_draws (s : State) (off : Nat) (v : Word) :
    (regWrite s off v).draws = s.draws := by
  unfold regWrite; repeat' split
  all_goals rfl

@[simp] theorem regWrite_rdata (s : State) (off : Nat) (v : Word) :
    (regWrite s off v).rdata = s.rdata := by
  unfold regWrite; repeat' split
  all_goals rfl

/-! ## pickBlock: only the count of draws can change -/

@[simp] theorem pickBlock_ctrl (L : Latch) (s : State) :
    (pickBlock L s).2.ctrl = s.ctrl := by
  unfold pickBlock; simp only; split <;> rfl

@[simp] theorem pickBlock_width (L : Latch) (s : State) :
    (pickBlock L s).2.width = s.width := by
  unfold pickBlock; simp only; split <;> rfl

@[simp] theorem pickBlock_height (L : Latch) (s : State) :
    (pickBlock L s).2.height = s.height := by
  unfold pickBlock; simp only; split <;> rfl

@[simp] theorem pickBlock_stride (L : Latch) (s : State) :
    (pickBlock L s).2.stride = s.stride := by
  unfold pickBlock; simp only; split <;> rfl

@[simp] theorem pickBlock_srcLen (L : Latch) (s : State) :
    (pickBlock L s).2.srcLen = s.srcLen := by
  unfold pickBlock; simp only; split <;> rfl

@[simp] theorem pickBlock_dstLen (L : Latch) (s : State) :
    (pickBlock L s).2.dstLen = s.dstLen := by
  unfold pickBlock; simp only; split <;> rfl

@[simp] theorem pickBlock_status (L : Latch) (s : State) :
    (pickBlock L s).2.status = s.status := by
  unfold pickBlock; simp only; split <;> rfl

@[simp] theorem pickBlock_latch (L : Latch) (s : State) :
    (pickBlock L s).2.latch = s.latch := by
  unfold pickBlock; simp only; split <;> rfl

@[simp] theorem pickBlock_bX (L : Latch) (s : State) :
    (pickBlock L s).2.bX = s.bX := by
  unfold pickBlock; simp only; split <;> rfl

@[simp] theorem pickBlock_bY (L : Latch) (s : State) :
    (pickBlock L s).2.bY = s.bY := by
  unfold pickBlock; simp only; split <;> rfl

@[simp] theorem pickBlock_cursor (L : Latch) (s : State) :
    (pickBlock L s).2.cursor = s.cursor := by
  unfold pickBlock; simp only; split <;> rfl

@[simp] theorem pickBlock_abortReq (L : Latch) (s : State) :
    (pickBlock L s).2.abortReq = s.abortReq := by
  unfold pickBlock; simp only; split <;> rfl

@[simp] theorem pickBlock_dp (L : Latch) (s : State) :
    (pickBlock L s).2.dp = s.dp := by
  unfold pickBlock; simp only; split <;> rfl

@[simp] theorem pickBlock_src (L : Latch) (s : State) :
    (pickBlock L s).2.src = s.src := by
  unfold pickBlock; simp only; split <;> rfl

@[simp] theorem pickBlock_dst (L : Latch) (s : State) :
    (pickBlock L s).2.dst = s.dst := by
  unfold pickBlock; simp only; split <;> rfl

@[simp] theorem pickBlock_params (L : Latch) (s : State) :
    (pickBlock L s).2.params = s.params := by
  unfold pickBlock; simp only; split <;> rfl

@[simp] theorem pickBlock_ahead (L : Latch) (s : State) :
    (pickBlock L s).2.ahead = s.ahead := by
  unfold pickBlock; simp only; split <;> rfl

@[simp] theorem pickBlock_prog (L : Latch) (s : State) :
    (pickBlock L s).2.prog = s.prog := by
  unfold pickBlock; simp only; split <;> rfl

@[simp] theorem pickBlock_turns (L : Latch) (s : State) :
    (pickBlock L s).2.turns = s.turns := by
  unfold pickBlock; simp only; split <;> rfl

@[simp] theorem pickBlock_rdata (L : Latch) (s : State) :
    (pickBlock L s).2.rdata = s.rdata := by
  unfold pickBlock; simp only; split <;> rfl

/-! ## takeTurn: only the schedule and the count of draws can change -/

@[simp] theorem takeTurn_ctrl (s : State) :
    (takeTurn s).2.ctrl = s.ctrl := by
  unfold takeTurn; split <;> rfl

@[simp] theorem takeTurn_width (s : State) :
    (takeTurn s).2.width = s.width := by
  unfold takeTurn; split <;> rfl

@[simp] theorem takeTurn_height (s : State) :
    (takeTurn s).2.height = s.height := by
  unfold takeTurn; split <;> rfl

@[simp] theorem takeTurn_stride (s : State) :
    (takeTurn s).2.stride = s.stride := by
  unfold takeTurn; split <;> rfl

@[simp] theorem takeTurn_srcLen (s : State) :
    (takeTurn s).2.srcLen = s.srcLen := by
  unfold takeTurn; split <;> rfl

@[simp] theorem takeTurn_dstLen (s : State) :
    (takeTurn s).2.dstLen = s.dstLen := by
  unfold takeTurn; split <;> rfl

@[simp] theorem takeTurn_status (s : State) :
    (takeTurn s).2.status = s.status := by
  unfold takeTurn; split <;> rfl

@[simp] theorem takeTurn_latch (s : State) :
    (takeTurn s).2.latch = s.latch := by
  unfold takeTurn; split <;> rfl

@[simp] theorem takeTurn_bX (s : State) :
    (takeTurn s).2.bX = s.bX := by
  unfold takeTurn; split <;> rfl

@[simp] theorem takeTurn_bY (s : State) :
    (takeTurn s).2.bY = s.bY := by
  unfold takeTurn; split <;> rfl

@[simp] theorem takeTurn_cursor (s : State) :
    (takeTurn s).2.cursor = s.cursor := by
  unfold takeTurn; split <;> rfl

@[simp] theorem takeTurn_abortReq (s : State) :
    (takeTurn s).2.abortReq = s.abortReq := by
  unfold takeTurn; split <;> rfl

@[simp] theorem takeTurn_dp (s : State) :
    (takeTurn s).2.dp = s.dp := by
  unfold takeTurn; split <;> rfl

@[simp] theorem takeTurn_src (s : State) :
    (takeTurn s).2.src = s.src := by
  unfold takeTurn; split <;> rfl

@[simp] theorem takeTurn_dst (s : State) :
    (takeTurn s).2.dst = s.dst := by
  unfold takeTurn; split <;> rfl

@[simp] theorem takeTurn_params (s : State) :
    (takeTurn s).2.params = s.params := by
  unfold takeTurn; split <;> rfl

@[simp] theorem takeTurn_ahead (s : State) :
    (takeTurn s).2.ahead = s.ahead := by
  unfold takeTurn; split <;> rfl

@[simp] theorem takeTurn_prog (s : State) :
    (takeTurn s).2.prog = s.prog := by
  unfold takeTurn; split <;> rfl

@[simp] theorem takeTurn_rdata (s : State) :
    (takeTurn s).2.rdata = s.rdata := by
  unfold takeTurn; split <;> rfl

/-! ## start: what START never changes -/

@[simp] theorem start_ctrl (fmt : Format) (s : State) :
    (start fmt s).ctrl = s.ctrl := by
  unfold start; split
  · rfl
  · simp only; split <;> rfl

@[simp] theorem start_width (fmt : Format) (s : State) :
    (start fmt s).width = s.width := by
  unfold start; split
  · rfl
  · simp only; split <;> rfl

@[simp] theorem start_height (fmt : Format) (s : State) :
    (start fmt s).height = s.height := by
  unfold start; split
  · rfl
  · simp only; split <;> rfl

@[simp] theorem start_stride (fmt : Format) (s : State) :
    (start fmt s).stride = s.stride := by
  unfold start; split
  · rfl
  · simp only; split <;> rfl

@[simp] theorem start_srcLen (fmt : Format) (s : State) :
    (start fmt s).srcLen = s.srcLen := by
  unfold start; split
  · rfl
  · simp only; split <;> rfl

@[simp] theorem start_dstLen (fmt : Format) (s : State) :
    (start fmt s).dstLen = s.dstLen := by
  unfold start; split
  · rfl
  · simp only; split <;> rfl

@[simp] theorem start_dp (fmt : Format) (s : State) :
    (start fmt s).dp = s.dp := by
  unfold start; split
  · rfl
  · simp only; split <;> rfl

@[simp] theorem start_src (fmt : Format) (s : State) :
    (start fmt s).src = s.src := by
  unfold start; split
  · rfl
  · simp only; split <;> rfl

@[simp] theorem start_dst (fmt : Format) (s : State) :
    (start fmt s).dst = s.dst := by
  unfold start; split
  · rfl
  · simp only; split <;> rfl

@[simp] theorem start_params (fmt : Format) (s : State) :
    (start fmt s).params = s.params := by
  unfold start; split
  · rfl
  · simp only; split <;> rfl

@[simp] theorem start_prog (fmt : Format) (s : State) :
    (start fmt s).prog = s.prog := by
  unfold start; split
  · rfl
  · simp only; split <;> rfl

@[simp] theorem start_turns (fmt : Format) (s : State) :
    (start fmt s).turns = s.turns := by
  unfold start; split
  · rfl
  · simp only; split <;> rfl

@[simp] theorem start_draws (fmt : Format) (s : State) :
    (start fmt s).draws = s.draws := by
  unfold start; split
  · rfl
  · simp only; split <;> rfl

@[simp] theorem start_rdata (fmt : Format) (s : State) :
    (start fmt s).rdata = s.rdata := by
  unfold start; split
  · rfl
  · simp only; split <;> rfl

/-! ## coreReset -/

@[simp] theorem coreReset_ctrl (s : State) :
    (coreReset s).ctrl = 0 := rfl

@[simp] theorem coreReset_width (s : State) :
    (coreReset s).width = 0 := rfl

@[simp] theorem coreReset_height (s : State) :
    (coreReset s).height = 0 := rfl

@[simp] theorem coreReset_stride (s : State) :
    (coreReset s).stride = 0 := rfl

@[simp] theorem coreReset_srcLen (s : State) :
    (coreReset s).srcLen = 0 := rfl

@[simp] theorem coreReset_dstLen (s : State) :
    (coreReset s).dstLen = 0 := rfl

@[simp] theorem coreReset_status (s : State) :
    (coreReset s).status = .idle := rfl

@[simp] theorem coreReset_latch (s : State) :
    (coreReset s).latch = none := rfl

@[simp] theorem coreReset_bX (s : State) :
    (coreReset s).bX = 0 := rfl

@[simp] theorem coreReset_bY (s : State) :
    (coreReset s).bY = 0 := rfl

@[simp] theorem coreReset_cursor (s : State) :
    (coreReset s).cursor = 0 := rfl

@[simp] theorem coreReset_abortReq (s : State) :
    (coreReset s).abortReq = false := rfl

@[simp] theorem coreReset_dp (s : State) :
    (coreReset s).dp = Datapath.empty := rfl

@[simp] theorem coreReset_src (s : State) :
    (coreReset s).src = s.src := rfl

@[simp] theorem coreReset_dst (s : State) :
    (coreReset s).dst = (abandon s).dst := rfl

@[simp] theorem coreReset_params (s : State) :
    (coreReset s).params = s.params := rfl

@[simp] theorem coreReset_ahead (s : State) :
    (coreReset s).ahead = [] := rfl

@[simp] theorem coreReset_prog (s : State) :
    (coreReset s).prog = s.prog := rfl

@[simp] theorem coreReset_turns (s : State) :
    (coreReset s).turns = s.turns := rfl

@[simp] theorem coreReset_draws (s : State) :
    (coreReset s).draws = (abandon s).draws := rfl

@[simp] theorem coreReset_rdata (s : State) :
    (coreReset s).rdata = s.rdata := rfl

end Sys2Proof.Machine
end

