-- ==== Sys2Proof/Safety.lean ====
section
/-! DEFINITION. What counts as a safe run: an accepted command, the running sequencer, and the invariant of the machine, in the
terms that the statements use. -/

namespace Sys2Proof.Machine

open Sys2Proof

/-- A latched command that passed the START checks (60_exceptions.md R212 to R214). -/
structure Latch.Accepted (L : Latch) : Prop where
  hemioct : L.hemioct = true → L.normalize = true
  width : 0 < L.w.toNat
  height : 0 < L.h.toNat
  stride : 4 * L.w.toNat ≤ L.stride.toNat
  src : L.srcReq ≤ L.srcLen.toNat
  dst : L.dstReq ≤ L.dstLen.toNat

/-- The sequencer of a running command (10_state.md R34): the position is a block of the grid, CURSOR is its SRC offset, and the
blocks done ahead of it (only with WORKERS > 1) are distinct later blocks of the grid. -/
structure Running (L : Latch) (s : State) : Prop where
  accepted : L.Accepted
  column : s.bX < L.bcx
  row : s.bY < L.bcy
  cursor : s.cursor = L.bs * blockNumber L s
  aheadRange : ∀ n ∈ s.ahead, blockNumber L s < n ∧ n < L.bcx * L.bcy
  aheadNodup : s.ahead.Nodup
  oneWorker : s.params.extraWorkers = 0 → s.ahead = []

/-- The invariant of the machine: memories in canonical form, no datapath register with a value (10_state.md R38), a running
sequencer while BUSY (R34), ABORT_REQ only while BUSY (43_orchestrator.md R189, R190). -/
structure Inv (s : State) : Prop where
  srcWf : Memory.wf s.src = true
  dstWf : Memory.wf s.dst = true
  datapath : s.dp = Datapath.empty
  running : s.status = .busy → ∃ L, s.latch = some L ∧ Running L s
  abortBusy : s.abortReq = true → s.status = .busy
  aheadBusy : s.status ≠ .busy → s.ahead = []

/-- A host that keeps its duties never makes these stops happen, and no engine move does (50 R50, R51, 93 U9): the faults that a
machine in its invariant cannot take. -/
def Fault.unreachable : Fault → Bool
  | .datapathNoValue _ => true
  | .latchNoValue => true
  | .srcOutOfRange => true
  | .dstOutOfRange => true
  | .hostAccessWhileBusy => false
  | .hostUnalignedRegister => false

end Sys2Proof.Machine
end

