-- ==== Sys2Proof/Certificates/Slice0/Obligations.lean ====
section
/-! DEFINITION. The statements for the provers. Each docstring names the rules of spec/ it formalises. -/

namespace Sys2Proof.Machine.Claims

open Sys2Proof Sys2Proof.Machine

/-- The START command of a format (30_encoding.md R81). -/
def startOf : Format → Instr
  | .bc1 => .decodeBc1
  | .bc3 => .decodeBc3

/-- The operations of a list one after another, each by `exec`. -/
def runExec : List Instr → State → Result
  | [], s => .next s
  | x :: xs, s => andThen (exec x s) (runExec xs)

/-- The pixel that the decoding of one block gives lane `p` (40_bc1_decoder.md R102, 41_bc3_alpha_decoder.md R152): the colour
block's whole table entry in BC1, the colour half's R, G, B with the alpha half's A in BC3. -/
def decodedPixel (fmt : Format) (mode : Bc3ColorMode) (blk : List Byte) (p : Lane) : Pixel :=
  match fmt with
  | .bc1 =>
    let b := colourBlock blk
    tableAt (if b.c1.toNat < b.c0.toNat then lut4 (expand b.c0) (expand b.c1) else lut3 (expand b.c0) (expand b.c1))
      (unpackIdx2 b.idx) p
  | .bc3 =>
    let a := alphaBlock (blk.take 8)
    let b := colourBlock (blk.drop 8)
    let c := tableAt
      (if b.c1.toNat < b.c0.toNat ∨ mode = .fourColorAlways then lut4 (expand b.c0) (expand b.c1)
       else lut3 (expand b.c0) (expand b.c1)) (unpackIdx2 b.idx) p
    { r := c.r, g := c.g, b := c.b
      a := valueAt (if a.e1.toNat < a.e0.toNat then lut8 a.e0 a.e1 else lut6 a.e0 a.e1) (unpackIdx3 a.idx) p }

/-- The transform pipeline on one pixel (42_color_transform.md R161). -/
def pipeline (L : Latch) (P : Pixel) : Pixel :=
  let P1 := if L.ycocg then Config.ycocgInv P else P
  let P2 := if L.normalize then swapRa P1 else P1
  if L.normalize then (if L.hemioct then nrmHemioct P2 else nrmSqrt P2) else P2

/-- The lane of the image pixel `(x, y)` in its block (00_scope.md R14). -/
def laneOf (x y : Nat) : Lane := ⟨4 * (y % 4) + x % 4, by omega⟩

/-- The block of the image pixel `(x, y)`: its SRC offset (20_memory.md R55). -/
def blockOffset (L : Latch) (x y : Nat) : Nat := L.bs * (y / 4 * L.bcx + x / 4)

/-- The address is a channel byte of an in-bounds pixel of the image (20_memory.md R52). -/
def imageByte (L : Latch) (a : Nat) : Prop :=
  ∃ x y : Nat, x < L.w.toNat ∧ y < L.h.toNat ∧ ∃ k : Fin 4, a = L.pix x y + k.val

/-- The address is a channel byte of an in-bounds pixel of the block at origin `o` (20_memory.md R52, R54). -/
def blockByte (L : Latch) (o : Origin) (a : Nat) : Prop :=
  ∃ p : Lane, inBounds L o p = true ∧ ∃ k : Fin 4, a = lanePix L o p + k.val

/-- DST holds the decoded and transformed image (43_orchestrator.md R187). -/
def imageDecoded (L : Latch) (mode : Bc3ColorMode) (src dst : Memory) : Prop :=
  ∀ x y : Nat, ∀ blk : List Byte, x < L.w.toNat → y < L.h.toNat →
    blk = Memory.bytesAt .src src (blockOffset L x y) L.bs →
    ∀ k : Fin 4, Memory.read dst (L.pix x y + k.val) =
      some (channel (pipeline L (decodedPixel L.fmt mode blk (laneOf x y))) k)

/-- The pending actions of a host that keeps its duties while a command runs (70_reset_and_hazards.md R251, R252): reads, waits and
writes of registers at multiples of 4, ABORT among them only if `mayAbort`, up to a wait for STATE to leave BUSY, which lets nothing
pass before the command has ended (R243 step 5), and whatever comes after that wait. -/
def dutiful (mayAbort : Bool) : List HostAction → Bool
  | [] => true
  | .rd off :: rest => off % 4 == 0 && dutiful mayAbort rest
  | .wait off lo width v :: rest =>
    off % 4 == 0 && ((off == 0x1C && lo == 0 && width == 2 && v == 1) || dutiful mayAbort rest)
  | .wr off v :: rest => off % 4 == 0 && (mayAbort || off != 0x18 || v != 2) && dutiful mayAbort rest
  | .placeSrc _ _ :: _ => false
  | .placeDst _ _ :: _ => false
  | .readDst _ :: _ => false
  | .reset :: _ => false

/-- The first `k` states of the run from `s` are BUSY. -/
def BusyFor (k : Nat) (s : State) : Prop :=
  ∀ j, j < k → ∃ u : State, Host.Core.run Sys2Proof.core j s = .next u ∧ u.status = .busy

/-- The command that is running at `s` ends with step `k`, in the state `t`. -/
def EndsAt (k : Nat) (s t : State) : Prop :=
  BusyFor k s ∧ Host.Core.run Sys2Proof.core k s = .next t ∧ t.status ≠ .busy

/-- The next step is the engine's: it is enabled, and the host has nothing to do or not the turn (10_state.md R20). -/
def engineNext (s : State) : Bool :=
  s.status == .busy && (s.prog.isEmpty || (takeTurn s).1 == .engine)

/-- How many of the next `k` steps are the engine's. -/
def engineMoves : Nat → State → Nat
  | 0, _ => 0
  | k + 1, s =>
    (if engineNext s then 1 else 0) +
      match step s with
      | .next t => engineMoves k t
      | .fault _ => 0
      | .refused _ => 0

/-- A command at its beginning, with no request to cancel, and a host that keeps its duties and does not abort it. -/
structure AtStart (L : Latch) (s : State) : Prop where
  inv : Inv s
  busy : s.status = .busy
  latch : s.latch = some L
  column : s.bX = 0
  row : s.bY = 0
  fresh : s.ahead = []
  noAbort : s.abortReq = false
  host : dutiful false s.prog = true

/-- A block step that is enabled and not cancelled, of a block of the given bytes: WORKERS = 1, so it decodes the block at the
sequencer position. -/
structure StepReady (L : Latch) (blk : List Byte) (s : State) : Prop where
  inv : Inv s
  busy : s.status = .busy
  latch : s.latch = some L
  oneWorker : s.params.extraWorkers = 0
  noAbort : s.abortReq = false
  block : Memory.bytesAt .src s.src s.cursor L.bs = blk

end Sys2Proof.Machine.Claims

open Sys2Proof Sys2Proof.Machine Sys2Proof.Machine.Claims

/-! ## Encodings -/

/-- Words and blocks written out from the encodings of 30_encoding.md R71, R75, R80, R84 and the examples of 95_test_vectors.md decode
to the operations they stand for: START under each format, ABORT, a reserved command, the block of program P1, an alpha
sub-block of program P2, CTRL words, an illegal CTRL word, a short block. The four bytes of a command or CTRL word stand least
significant first by the model's choice (log entry 16): 20_memory.md R57 leaves their order on a bus to the platform. -/
def Obligations.WrittenOutWordsDecode : Prop :=
  decode (.command .bc1) [0x01, 0x00, 0x00, 0x00] = .ops [.decodeBc1] ∧
  decode (.command .bc3) [0x01, 0x00, 0x00, 0x00] = .ops [.decodeBc3] ∧
  decode (.command .bc1) [0x02, 0x00, 0x00, 0x00] = .ops [.abort] ∧
  decode (.command .bc1) [0x03, 0x00, 0x00, 0x00] = .rejected .reservedCommand ∧
  decode (.colour .punchThroughCapable .fourColorAlways) [0x00, 0xF8, 0x1F, 0x00, 0xE4, 0x1B, 0x00, 0x55] =
    .ops [.bc1Expand .zero 0xF800, .bc1Expand .one 0x001F, .bc1Lut4, .bc1Idx2 0x55001BE4, .bc1Lookup] ∧
  decode .alpha [0x00, 0xFF, 0xB7, 0x6D, 0xDB, 0xB2, 0x5D, 0xDB] =
    .ops [.bc3aLut6 0 255, .bc3aIdx3 0xDB5DB2DB6DB7, .bc3aLookup] ∧
  decode (.ctrl 3) [0x05, 0x00, 0x00, 0x00] = .ops [.xfSwapRa 3 false false true, .xfNrmSqrt 3 false true] ∧
  decode (.ctrl 0) [0x0E, 0x00, 0x00, 0x00] =
    .ops [.xfYcocg 0 true true false, .xfSwapRa 0 true true false, .xfNrmHemioct 0 true false] ∧
  decode (.ctrl 0) [0x08, 0x00, 0x00, 0x00] = .rejected .illegalConfiguration ∧
  decode (.block .bc3) [0, 0, 0, 0, 0, 0, 0, 0] = .rejected .wrongLength

/-- Decoding an encoded well-formed operation selects that operation, with every operand, for every operation of the table
(30_encoding.md R70 to R81). -/
def Obligations.DecodeOfEncodeSelectsTheOperation : Prop :=
  ∀ x : Instr, x.wellFormed = true →
    ∃ l, decode (encode x).1 (encode x).2 = .ops l ∧ x ∈ l

/-- Whatever a decoder selects is well formed, in every space and from any bytes (30_encoding.md R79, R80, R81). -/
def Obligations.DecodedOperationsAreWellFormed : Prop :=
  ∀ (sp : Space) (bs : List Byte) (l : List Instr), decode sp bs = .ops l → ∀ x ∈ l, x.wellFormed = true

/-- The block formats drop no bit and invent none: every 8 bytes are one colour block and one alpha sub-block, and the fields
lay out as those bytes (30_encoding.md R71, R75, R79). -/
def Obligations.BlockFormatsAreBijective : Prop :=
  (∀ b : ColourBlock, (encodeColour b).length = 8 ∧ colourBlock (encodeColour b) = b) ∧
  (∀ a : AlphaBlock, (encodeAlpha a).length = 8 ∧ alphaBlock (encodeAlpha a) = a) ∧
  (∀ bs : List Byte, bs.length = 8 → encodeColour (colourBlock bs) = bs ∧ encodeAlpha (alphaBlock bs) = bs)

/-- The operations that a colour block selects, from its bytes (40_bc1_decoder.md R108, R120): both endpoints little-endian, the
4-colour table exactly when `c0 > c1` as unsigned 16-bit integers or in always-opaque mode with FOUR_COLOR_ALWAYS. -/
def Obligations.ColourBlockSelectsTable : Prop :=
  ∀ (om : OpacityMode) (mode : Bc3ColorMode) (bs : List Byte) (hlen : bs.length = 8),
    ∃ (c0 c1 : BitVec 16) (x : BitVec 32) (lut : Instr),
      decode (.colour om mode) bs = .ops [.bc1Expand .zero c0, .bc1Expand .one c1, lut, .bc1Idx2 x, .bc1Lookup] ∧
      c0.toNat = bs[0].toNat + 256 * bs[1].toNat ∧
      c1.toNat = bs[2].toNat + 256 * bs[3].toNat ∧
      x.toNat = bs[4].toNat + 256 * bs[5].toNat + 65536 * bs[6].toNat + 16777216 * bs[7].toNat ∧
      ((c0.toNat > c1.toNat ∨ (om = .alwaysOpaque ∧ mode = .fourColorAlways)) → lut = .bc1Lut4) ∧
      (¬(c0.toNat > c1.toNat ∨ (om = .alwaysOpaque ∧ mode = .fourColorAlways)) → lut = .bc1Lut3)

/-- The operations that an alpha sub-block selects, from its bytes (41_bc3_alpha_decoder.md R141): `e0 <- a[0]`, `e1 <- a[1]`, the
8-step table exactly when `e0 > e1`. -/
def Obligations.AlphaBlockSelectsTable : Prop :=
  ∀ (bs : List Byte) (hlen : bs.length = 8),
    ∃ x : BitVec 48,
      x.toNat = bs[2].toNat + 256 * bs[3].toNat + 65536 * bs[4].toNat + 16777216 * bs[5].toNat +
        4294967296 * bs[6].toNat + 1099511627776 * bs[7].toNat ∧
      (bs[0].toNat > bs[1].toNat →
        decode .alpha bs = .ops [.bc3aLut8 bs[0] bs[1], .bc3aIdx3 x, .bc3aLookup]) ∧
      (bs[0].toNat ≤ bs[1].toNat →
        decode .alpha bs = .ops [.bc3aLut6 bs[0] bs[1], .bc3aIdx3 x, .bc3aLookup])

/-! ## The BC1 block decoder -/

/-- BC1.EXPAND (40_bc1_decoder.md R105, R107): it completes in every state, writes the packed endpoint and its expansion by bit
replication into the registers of its endpoint, and changes nothing else; each channel's high bits are the field and its
low bits repeat the field's top bits; both expansions are monotonic. -/
def Obligations.ExpandReplicatesBits : Prop :=
  (∀ (c : BitVec 16) (s : State), ∃ v : Rgb,
    exec (.bc1Expand .zero c) s = .next { s with dp := { s.dp with c0 := some c, e0Rgb := some v } } ∧
    exec (.bc1Expand .one c) s = .next { s with dp := { s.dp with c1 := some c, e1Rgb := some v } } ∧
    v.r.toNat = ((c.toNat / 2048) <<< 3) ||| ((c.toNat / 2048) >>> 2) ∧
    v.g.toNat = ((c.toNat / 32 % 64) <<< 2) ||| ((c.toNat / 32 % 64) >>> 4) ∧
    v.b.toNat = ((c.toNat % 32) <<< 3) ||| ((c.toNat % 32) >>> 2) ∧
    v.r.toNat / 8 = c.toNat / 2048 ∧ v.r.toNat % 8 = c.toNat / 2048 / 4 ∧
    v.g.toNat / 4 = c.toNat / 32 % 64 ∧ v.g.toNat % 4 = c.toNat / 32 % 64 / 16 ∧
    v.b.toNat / 8 = c.toNat % 32 ∧ v.b.toNat % 8 = c.toNat % 32 / 4) ∧
  (∀ u v : BitVec 5, u.toNat ≤ v.toNat → (expand5 u).toNat ≤ (expand5 v).toNat) ∧
  (∀ u v : BitVec 6, u.toNat ≤ v.toNat → (expand6 u).toNat ≤ (expand6 v).toNat)

/-- The full expansion tables (40_bc1_decoder.md R106). -/
def Obligations.ExpansionTables : Prop :=
  (List.range 32).map (fun v => (expand5 (BitVec.ofNat 5 v)).toNat) =
    [0, 8, 16, 24, 33, 41, 49, 57, 66, 74, 82, 90, 99, 107, 115, 123, 132, 140, 148, 156, 165, 173, 181, 189, 198, 206, 214,
     222, 231, 239, 247, 255] ∧
  (List.range 64).map (fun v => (expand6 (BitVec.ofNat 6 v)).toNat) =
    [0, 4, 8, 12, 16, 20, 24, 28, 32, 36, 40, 44, 48, 52, 56, 60, 65, 69, 73, 77, 81, 85, 89, 93, 97, 101, 105, 109, 113, 117,
     121, 125, 130, 134, 138, 142, 146, 150, 154, 158, 162, 166, 170, 174, 178, 182, 186, 190, 195, 199, 203, 207, 211, 215,
     219, 223, 227, 231, 235, 239, 243, 247, 251, 255]

/-- BC1.LUT4 (40_bc1_decoder.md R109, R111): with both expanded endpoints present it completes, writes the table, and `four` by the
model's choice (log entry 20), and nothing else; entries 0 and 1 are the endpoints, 2 and 3 the truncated thirds of each channel, all opaque, and entries 2 and 3
lie between the endpoints per channel; equal expanded endpoints give four equal entries, and only equal packed endpoints have equal
expansions. -/
def Obligations.FourColourTable : Prop :=
  ∀ (c d : Rgb) (s : State), s.dp.e0Rgb = some c → s.dp.e1Rgb = some d →
    ∃ t : Vector Pixel 4,
      exec .bc1Lut4 s = .next { s with dp := { s.dp with table := some t, four := some true } } ∧
      t[0] = { r := c.r, g := c.g, b := c.b, a := 255 } ∧
      t[1] = { r := d.r, g := d.g, b := d.b, a := 255 } ∧
      t[2].r.toNat = (2 * c.r.toNat + d.r.toNat) / 3 ∧ t[2].g.toNat = (2 * c.g.toNat + d.g.toNat) / 3 ∧
      t[2].b.toNat = (2 * c.b.toNat + d.b.toNat) / 3 ∧ t[2].a = 255 ∧
      t[3].r.toNat = (c.r.toNat + 2 * d.r.toNat) / 3 ∧ t[3].g.toNat = (c.g.toNat + 2 * d.g.toNat) / 3 ∧
      t[3].b.toNat = (c.b.toNat + 2 * d.b.toNat) / 3 ∧ t[3].a = 255 ∧
      (∀ f : Pixel → Byte, f = Pixel.r ∨ f = Pixel.g ∨ f = Pixel.b → ∀ k : Fin 4,
        min (f t[0]).toNat (f t[1]).toNat ≤ (f t[k.val]).toNat ∧
        (f t[k.val]).toNat ≤ max (f t[0]).toNat (f t[1]).toNat) ∧
      (c = d → ∀ k : Fin 4, t[k.val] = t[0]) ∧
      (∀ u v : BitVec 16, expand u = expand v → u = v)

/-- BC1.LUT3 (40_bc1_decoder.md R110, R111): as above (`four` = 0 by the model's choice, log entry 20) with the truncated half as entry 2 and transparent black as entry 3; equal
endpoints give entries 0 to 2 equal. -/
def Obligations.ThreeColourTable : Prop :=
  ∀ (c d : Rgb) (s : State), s.dp.e0Rgb = some c → s.dp.e1Rgb = some d →
    ∃ t : Vector Pixel 4,
      exec .bc1Lut3 s = .next { s with dp := { s.dp with table := some t, four := some false } } ∧
      t[0] = { r := c.r, g := c.g, b := c.b, a := 255 } ∧
      t[1] = { r := d.r, g := d.g, b := d.b, a := 255 } ∧
      t[2].r.toNat = (c.r.toNat + d.r.toNat) / 2 ∧ t[2].g.toNat = (c.g.toNat + d.g.toNat) / 2 ∧
      t[2].b.toNat = (c.b.toNat + d.b.toNat) / 2 ∧ t[2].a = 255 ∧
      t[3] = { r := 0, g := 0, b := 0, a := 0 } ∧
      (c = d → t[0] = t[2] ∧ t[1] = t[2])

/-- BC1.IDX2 from the four index bytes (40_bc1_decoder.md R113, 30_encoding.md R73, R74): it completes in every state, writes IDX2 and
nothing else; byte `b[4+j]` holds block row `j`, with the index of column `i` at bits `2i+1:2i`. -/
def Obligations.ColourIndexPositions : Prop :=
  ∀ (bs : List Byte) (hlen : bs.length = 8) (s : State), ∃ v : Vector (BitVec 2) 16,
    exec (.bc1Idx2 (colourBlock bs).idx) s = .next { s with dp := { s.dp with idx2 := some v } } ∧
    ∀ p : Lane,
      (v[p.val]'p.isLt).toNat = (colourBlock bs).idx.toNat / 2 ^ (2 * p.val) % 4 ∧
      (v[p.val]'p.isLt).toNat = (bs[4 + p.val / 4]'(by omega)).toNat / 2 ^ (2 * (p.val % 4)) % 4

/-- BC1.LOOKUP (40_bc1_decoder.md R115, R117, R118): for a command whose DST is long enough and whose stride holds a row, it
completes and changes DST only; each in-bounds lane's R, G, B are its table entry's, its A too in punch-through-capable mode
(L_FMT = 0); every address that no lane stores to reads as before, the A bytes of always-opaque mode among them. -/
def Obligations.ColourLookupWritesPixels : Prop :=
  ∀ (s : State) (L : Latch) (o : Origin) (t : Vector Pixel 4) (x : Vector (BitVec 2) 16),
    s.latch = some L → s.dp.table = some t → s.dp.idx2 = some x → s.dp.origin = some o →
    L.dstReq ≤ L.dstLen.toNat → 4 * L.w.toNat ≤ L.stride.toNat →
    ∃ m : Memory,
      exec .bc1Lookup s = .next { s with dst := m } ∧
      (∀ p : Lane, inBounds L o p = true →
        Memory.read m (lanePix L o p) = some (tableAt t x p).r ∧
        Memory.read m (lanePix L o p + 1) = some (tableAt t x p).g ∧
        Memory.read m (lanePix L o p + 2) = some (tableAt t x p).b ∧
        (L.fmt = .bc1 → Memory.read m (lanePix L o p + 3) = some (tableAt t x p).a) ∧
        (L.fmt = .bc3 → Memory.read m (lanePix L o p + 3) = Memory.read s.dst (lanePix L o p + 3))) ∧
      (∀ a, (∀ c ∈ colourStores (opacityOf L.fmt) L o t x, c.1 ≠ a) → Memory.read m a = Memory.read s.dst a)

/-- The bytes that the lookups store to are bytes of in-bounds pixels of the block, and all of them lie below DSTREQ (20_memory.md
R53, R54): no overhang pixel, no stride padding. -/
def Obligations.LookupsStoreInBoundsPixelsOnly : Prop :=
  ∀ (om : OpacityMode) (L : Latch) (o : Origin) (t : Vector Pixel 4) (x : Vector (BitVec 2) 16) (u : Vector Byte 8)
    (z : Vector (BitVec 3) 16), ∀ c ∈ colourStores om L o t x ++ alphaStores L o u z, blockByte L o c.1 ∧ c.1 < L.dstReq

/-! ## The BC3 alpha decoder -/

/-- BC3A.LUT8 (41_bc3_alpha_decoder.md R142): for `e0 > e1` it completes in every state and writes the table, and e0
and e1 by the model's choice (log entry 20), and nothing else; entries 2 to 7
are the weighted mean rounded to nearest, lie between `e1` and `e0`, and do not increase. -/
def Obligations.EightStepAlphaTable : Prop :=
  ∀ (e0 e1 : Byte) (s : State), e0.toNat > e1.toNat →
    ∃ v : Vector Byte 8,
      exec (.bc3aLut8 e0 e1) s = .next { s with dp := { s.dp with e0 := some e0, e1 := some e1, value := some v } } ∧
      v[0] = e0 ∧ v[1] = e1 ∧
      ∀ i, 2 ≤ i → (h : i ≤ 7) →
        (v[i]'(by omega)).toNat = ((8 - i) * e0.toNat + (i - 1) * e1.toNat + 3) / 7 ∧
        7 * (v[i]'(by omega)).toNat ≤ (8 - i) * e0.toNat + (i - 1) * e1.toNat + 3 ∧
        (8 - i) * e0.toNat + (i - 1) * e1.toNat ≤ 7 * (v[i]'(by omega)).toNat + 3 ∧
        e1.toNat ≤ (v[i]'(by omega)).toNat ∧ (v[i]'(by omega)).toNat ≤ e0.toNat ∧
        ((h2 : i + 1 ≤ 7) → (v[i + 1]'(by omega)).toNat ≤ (v[i]'(by omega)).toNat)

/-- BC3A.LUT6 (41_bc3_alpha_decoder.md R143): for `e0 <= e1` it completes in every state and writes the table, and e0
and e1 by the model's choice (log entry 20), and nothing else; entries 2 to 5 are the weighted mean rounded to nearest and lie between `e0` and `e1`, entries 6 and 7 are 0 and 255. -/
def Obligations.SixStepAlphaTable : Prop :=
  ∀ (e0 e1 : Byte) (s : State), e0.toNat ≤ e1.toNat →
    ∃ v : Vector Byte 8,
      exec (.bc3aLut6 e0 e1) s = .next { s with dp := { s.dp with e0 := some e0, e1 := some e1, value := some v } } ∧
      v[0] = e0 ∧ v[1] = e1 ∧ v[6] = 0 ∧ v[7] = 255 ∧
      ∀ i, 2 ≤ i → (h : i ≤ 5) →
        (v[i]'(by omega)).toNat = ((6 - i) * e0.toNat + (i - 1) * e1.toNat + 2) / 5 ∧
        5 * (v[i]'(by omega)).toNat ≤ (6 - i) * e0.toNat + (i - 1) * e1.toNat + 2 ∧
        (6 - i) * e0.toNat + (i - 1) * e1.toNat ≤ 5 * (v[i]'(by omega)).toNat + 2 ∧
        e0.toNat ≤ (v[i]'(by omega)).toNat ∧ (v[i]'(by omega)).toNat ≤ e1.toNat

/-- BC3A.IDX3 from the six index bytes (41_bc3_alpha_decoder.md R146, 30_encoding.md R76, R78): it completes in every state, writes
IDX3 and nothing else; bit `n` of J is bit `n mod 8` of byte `a[2 + n // 8]`, and index `p` is bits `3p+2:3p` of J. -/
def Obligations.AlphaIndexPositions : Prop :=
  ∀ (bs : List Byte) (hlen : bs.length = 8) (s : State), ∃ v : Vector (BitVec 3) 16,
    exec (.bc3aIdx3 (alphaBlock bs).idx) s = .next { s with dp := { s.dp with idx3 := some v } } ∧
    ∀ p : Lane,
      (v[p.val]'p.isLt).toNat = (alphaBlock bs).idx.toNat / 2 ^ (3 * p.val) % 8 ∧
      ∀ k, (hk : k < 3) →
        (v[p.val]'p.isLt).getLsbD k = (bs[2 + (3 * p.val + k) / 8]'(by omega)).getLsbD ((3 * p.val + k) % 8)

/-- BC3A.LOOKUP (41_bc3_alpha_decoder.md R148): it completes and changes DST only; each in-bounds lane's A byte is its table entry, and
every other address, the R, G and B bytes among them, reads as before. -/
def Obligations.AlphaLookupWritesAlpha : Prop :=
  ∀ (s : State) (L : Latch) (o : Origin) (t : Vector Byte 8) (x : Vector (BitVec 3) 16),
    s.latch = some L → s.dp.value = some t → s.dp.idx3 = some x → s.dp.origin = some o →
    L.dstReq ≤ L.dstLen.toNat → 4 * L.w.toNat ≤ L.stride.toNat →
    ∃ m : Memory,
      exec .bc3aLookup s = .next { s with dst := m } ∧
      (∀ p : Lane, inBounds L o p = true → Memory.read m (lanePix L o p + 3) = some (valueAt t x p)) ∧
      (∀ a, (∀ p : Lane, inBounds L o p = true → a ≠ lanePix L o p + 3) → Memory.read m a = Memory.read s.dst a)

/-! ## The transforms -/

/-- XF.SWAP_RA on an in-bounds pixel whose bytes lie below L_DST_LEN (42_color_transform.md R163): it completes and changes DST only; R
and A are exchanged, G and B hold what they held, written or not, and every other address reads as before. -/
def Obligations.SwapExchangesRedAndAlpha : Prop :=
  ∀ (s : State) (L : Latch) (o : Origin) (p : Lane) (P : Pixel) (h y f : Bool),
    s.latch = some L → s.dp.origin = some o → inBounds L o p = true → pixelRead L s (lanePix L o p) = .ok P →
    ∃ m : Memory,
      exec (.xfSwapRa p h y f) s = .next { s with dst := m } ∧
      Memory.read m (lanePix L o p) = some P.a ∧ Memory.byteAt .dst m (lanePix L o p + 1) = P.g ∧
      Memory.byteAt .dst m (lanePix L o p + 2) = P.b ∧ Memory.read m (lanePix L o p + 3) = some P.r ∧
      (∀ a, a ≠ lanePix L o p → a ≠ lanePix L o p + 3 → Memory.read m a = Memory.read s.dst a)

/-- XF.NRM_SQRT on an in-bounds pixel whose bytes lie below L_DST_LEN (42_color_transform.md R164): it completes and changes the B byte only, to
`128 + isqrt(D // 4)` with `D = max(0, 65025 - (2R-255)^2 - (2G-255)^2)`; B is at least 128. -/
def Obligations.SqrtReconstructsBlue : Prop :=
  ∀ (s : State) (L : Latch) (o : Origin) (p : Lane) (P : Pixel) (y f : Bool) (d q : Nat),
    s.latch = some L → s.dp.origin = some o → inBounds L o p = true → pixelRead L s (lanePix L o p) = .ok P →
    (d : Int) = max 0 (65025 - (2 * (P.r.toNat : Int) - 255) ^ 2 - (2 * (P.g.toNat : Int) - 255) ^ 2) →
    q * q ≤ d / 4 → d / 4 < (q + 1) * (q + 1) →
    ∃ (m : Memory) (b : Byte),
      exec (.xfNrmSqrt p y f) s = .next { s with dst := m } ∧
      b.toNat = 128 + q ∧
      Memory.read m (lanePix L o p + 2) = some b ∧
      (∀ a, a ≠ lanePix L o p + 2 → Memory.read m a = Memory.read s.dst a)

/-- XF.YCOCG on an in-bounds pixel whose bytes lie below L_DST_LEN (42_color_transform.md R162), for every value of the open parameter: it
completes and changes DST only; the pixel's four bytes become YCOCG_INV of them, every other address is unchanged. -/
def Obligations.YcocgAppliesTheParameter : Prop :=
  ∀ (s : State) (L : Latch) (o : Origin) (p : Lane) (P : Pixel) (h n f : Bool),
    s.latch = some L → s.dp.origin = some o → inBounds L o p = true → pixelRead L s (lanePix L o p) = .ok P →
    ∃ m : Memory,
      exec (.xfYcocg p h n f) s = .next { s with dst := m } ∧
      (∀ k : Fin 4, Memory.read m (lanePix L o p + k.val) = some (channel (Config.ycocgInv P) k)) ∧
      (∀ a, (∀ k : Fin 4, a ≠ lanePix L o p + k.val) → Memory.read m a = Memory.read s.dst a)

/-- XF.NRM_HEMIOCT on an in-bounds pixel whose bytes lie below L_DST_LEN (42_color_transform.md R165), for every value of the open parameter: it
completes and changes DST only; R, G, B become HEMIOCT_INV(R, G), A holds what it held, written or not, and every other address reads
as before. -/
def Obligations.HemioctAppliesTheParameter : Prop :=
  ∀ (s : State) (L : Latch) (o : Origin) (p : Lane) (P : Pixel) (y f : Bool),
    s.latch = some L → s.dp.origin = some o → inBounds L o p = true → pixelRead L s (lanePix L o p) = .ok P →
    ∃ m : Memory,
      exec (.xfNrmHemioct p y f) s = .next { s with dst := m } ∧
      Memory.read m (lanePix L o p) = some (Config.hemioctInv P.r P.g).r ∧
      Memory.read m (lanePix L o p + 1) = some (Config.hemioctInv P.r P.g).g ∧
      Memory.read m (lanePix L o p + 2) = some (Config.hemioctInv P.r P.g).b ∧
      Memory.byteAt .dst m (lanePix L o p + 3) = P.a ∧
      (∀ a, a ≠ lanePix L o p → a ≠ lanePix L o p + 1 → a ≠ lanePix L o p + 2 → Memory.read m a = Memory.read s.dst a)

/-- The transform is never applied to an overhang pixel (42_color_transform.md R160): each of the four operations completes there
and changes nothing. -/
def Obligations.TransformsSkipOverhang : Prop :=
  ∀ (s : State) (L : Latch) (o : Origin) (p : Lane) (h n y f : Bool),
    s.latch = some L → s.dp.origin = some o → inBounds L o p = false →
    exec (.xfYcocg p h n f) s = .next s ∧ exec (.xfSwapRa p h y f) s = .next s ∧
    exec (.xfNrmSqrt p y f) s = .next s ∧ exec (.xfNrmHemioct p y f) s = .next s

/-- The integer form of XF.NRM_SQRT equals the real form for every (R, G) (42_color_transform.md R164, R167). -/
def Obligations.SqrtIntegerFormEqualsRealForm : Prop :=
  ∀ r g : Byte,
    ((nrmB r g).toNat : Int) =
      ⌊(127.5 : ℝ) * (Real.sqrt (max 0 (1 - (2 * (r.toNat : ℝ) / 255 - 1) ^ 2 - (2 * (g.toNat : ℝ) / 255 - 1) ^ 2)) + 1)
        + 1 / 2⌋

/-- On a DECODE.BC1 pixel the reconstructed B is always 128 (42_color_transform.md R171): for every table that LUT4 or LUT3 builds and
every index, the swap and then the square root give B = 128. -/
def Obligations.Bc1NormalisedBlueIs128 : Prop :=
  ∀ (c d : Rgb) (x : Vector (BitVec 2) 16) (p : Lane),
    (nrmSqrt (swapRa (tableAt (lut4 c d) x p))).b = 128 ∧ (nrmSqrt (swapRa (tableAt (lut3 c d) x p))).b = 128

/-- A datapath register or the latched state without value faults when read (10_state.md R38, 93_implementation_defined.md U9): each
operation that reads one stops. The model's choice (log entry 1): the fault names the register read first, and the block's origin,
which R36 and R37 do not list, is a register of this kind. -/
def Obligations.ReadsWithoutValueFault : Prop :=
  ∀ (s : State) (L : Latch) (p : Lane) (h n y f : Bool), s.dp = Datapath.empty → s.latch = some L →
    exec .bc1Lut4 s = .fault (.datapathNoValue .e0Rgb) ∧ exec .bc1Lut3 s = .fault (.datapathNoValue .e0Rgb) ∧
    exec .bc1Lookup s = .fault (.datapathNoValue .table) ∧ exec .bc3aLookup s = .fault (.datapathNoValue .value) ∧
    exec (.xfYcocg p h n f) s = .fault (.datapathNoValue .origin) ∧
    exec (.xfSwapRa p h y f) s = .fault (.datapathNoValue .origin) ∧
    exec (.xfNrmSqrt p y f) s = .fault (.datapathNoValue .origin) ∧
    exec (.xfNrmHemioct p y f) s = .fault (.datapathNoValue .origin) ∧
    exec .bc1Lookup { s with latch := none } = .fault .latchNoValue ∧
    exec .bc3aLookup { s with latch := none } = .fault .latchNoValue ∧
    exec (.xfYcocg p h n f) { s with latch := none } = .fault .latchNoValue ∧
    exec (.xfSwapRa p h y f) { s with latch := none } = .fault .latchNoValue ∧
    exec (.xfNrmSqrt p y f) { s with latch := none } = .fault .latchNoValue ∧
    exec (.xfNrmHemioct p y f) { s with latch := none } = .fault .latchNoValue

/-! ## Commands -/

/-- START (43_orchestrator.md R180, 60_exceptions.md R210, R212 to R215): dropped while BUSY; otherwise it latches the host registers,
clears ABORT_REQ, and reports the first error that applies, in the order InvalidConfiguration, InputTooShort,
DestinationTooSmall, or begins the command; DST, SRC and every other field are unchanged. Two clauses rest on inferences of the
model: BX, BY and CURSOR are unchanged where a check fails (log entry 9), and a command called by its own name latches its own
format, which in every step is CTRL.FMT (log entry 12). -/
def Obligations.StartChecksThenBegins : Prop :=
  ∀ (fmt : Format) (s : State) (L : Latch) (t : State) (bad short small : Prop),
    L = { fmt := fmt, ycocg := s.ctrl.getLsbD 1, normalize := s.ctrl.getLsbD 2, hemioct := s.ctrl.getLsbD 3, w := s.width,
          h := s.height, stride := s.stride, srcLen := s.srcLen, dstLen := s.dstLen } →
    t = { s with latch := some L, abortReq := false } →
    bad = (s.ctrl.toNat / 16 ≠ 0 ∨ (s.ctrl.getLsbD 3 = true ∧ s.ctrl.getLsbD 2 = false) ∨ s.width = 0 ∨ s.height = 0 ∨
           s.stride.toNat < 4 * s.width.toNat) →
    short = (s.srcLen.toNat < (s.width.toNat + 3) / 4 * ((s.height.toNat + 3) / 4) * (if fmt = .bc1 then 8 else 16)) →
    small = (s.dstLen.toNat < (s.height.toNat - 1) * s.stride.toNat + 4 * s.width.toNat) →
    (s.status = .busy → exec (startOf fmt) s = .next s) ∧
    (s.status ≠ .busy → bad → exec (startOf fmt) s = .next { t with status := .error .invalidConfiguration }) ∧
    (s.status ≠ .busy → ¬bad → short → exec (startOf fmt) s = .next { t with status := .error .inputTooShort }) ∧
    (s.status ≠ .busy → ¬bad → ¬short → small →
      exec (startOf fmt) s = .next { t with status := .error .destinationTooSmall }) ∧
    (s.status ≠ .busy → ¬bad → ¬short → ¬small →
      exec (startOf fmt) s = .next { t with status := .busy, bX := 0, bY := 0, cursor := 0, ahead := [] })

/-- A width of 2^30 or more always raises InvalidConfiguration at START (10_state.md R25, R27). -/
def Obligations.WideImagesAreInvalid : Prop :=
  ∀ (fmt : Format) (s : State), s.status ≠ .busy → 0x40000000 ≤ s.width.toNat →
    ∃ t, exec (startOf fmt) s = .next t ∧ t.status = .error .invalidConfiguration ∧ t.dst = s.dst ∧ t.src = s.src

/-- ABORT and the cancellation it causes (43_orchestrator.md R189, R190): in every state ABORT completes; it sets ABORT_REQ while BUSY
and has no effect otherwise, the DONE state after the last block step and the IDLE state after reset among them; several act as one;
the next block step does not decode, clears ABORT_REQ, and ends the command with Cancelled, leaving DST (and emptying `ahead`, the
model's own field, log entry 7). -/
def Obligations.AbortCancelsTheNextBlockStep : Prop :=
  ∀ s : State,
    (s.status ≠ .busy → exec .abort s = .next s) ∧
    (s.status = .busy →
      exec .abort s = .next { s with abortReq := true } ∧
      exec .abort { s with abortReq := true } = .next { s with abortReq := true } ∧
      ∀ L, s.latch = some L → s.bY < L.bcy →
        exec .blockStep { s with abortReq := true } =
          .next { s with abortReq := false, status := .error .cancelled, ahead := [] })

/-! ## The block step -/

/-- BLOCK.STEP runs the operations that the block's bytes and the latched flags select, each by its own meaning, from registers
without value and the block's origin, and then advances (43_orchestrator.md R185). -/
def Obligations.BlockStepRunsItsOperations : Prop :=
  ∀ (s : State) (L : Latch) (blk : List Byte),
    s.status = .busy → s.latch = some L → s.bY < L.bcy → s.abortReq = false → s.params.extraWorkers = 0 →
    s.cursor + L.bs ≤ L.srcLen.toNat → Memory.bytesAt .src s.src s.cursor L.bs = blk →
    exec .blockStep s =
      andThen
        (runExec (blockOps L.fmt s.params.colorMode L.ycocg L.normalize L.hemioct blk)
          { s with dp := { Datapath.empty with origin := some { x := 4 * s.bX, y := 4 * s.bY } } })
        (fun t => .next (advance L (blockNumber L s) t))

/-- BLOCK.STEP with WORKERS = 1 (43_orchestrator.md R185, R186, 20_memory.md R54): it completes; every in-bounds pixel of the block
holds the decoded pixel after the transform pipeline; every other DST byte is unchanged; CURSOR and the position advance, the
command is DONE when no block row is left; nothing else changes. -/
def Obligations.BlockStepDecodesItsBlock : Prop :=
  ∀ (s : State) (L : Latch) (blk : List Byte) (o : Origin), StepReady L blk s → o = { x := 4 * s.bX, y := 4 * s.bY } →
    ∃ (m : Memory) (bx by' : Nat) (st : Status),
      exec .blockStep s =
        .next { s with dst := m, bX := bx, bY := by', cursor := s.cursor + L.bs, status := st } ∧
      (s.bX + 1 < L.bcx → bx = s.bX + 1 ∧ by' = s.bY) ∧
      (s.bX + 1 = L.bcx → bx = 0 ∧ by' = s.bY + 1) ∧
      (by' = L.bcy → st = .done) ∧ (by' ≠ L.bcy → st = .busy) ∧
      (∀ p : Lane, inBounds L o p = true → ∀ k : Fin 4,
        Memory.read m (lanePix L o p + k.val) =
          some (channel (pipeline L (decodedPixel L.fmt s.params.colorMode blk p)) k)) ∧
      (∀ a, ¬blockByte L o a → Memory.read m a = Memory.read s.dst a)

/-- A block step that is not enabled, because the engine is not BUSY or no block row is left, is no step: nothing changes
(60_exceptions.md R226; the model's choice, log entry 10). -/
def Obligations.DisabledBlockStepChangesNothing : Prop :=
  ∀ s : State, (s.status ≠ .busy ∨ ∃ L, s.latch = some L ∧ L.bcy ≤ s.bY) → exec .blockStep s = .next s

/-- An accepted command keeps every byte of every in-bounds pixel below DSTREQ, hence below L_DST_LEN, and distinct pixels have
disjoint bytes (20_memory.md R53, 40_bc1_decoder.md R118). -/
def Obligations.PixelBytesAreInRangeAndDisjoint : Prop :=
  ∀ (L : Latch) (x y x' y' : Nat) (k k' : Fin 4), L.Accepted →
    x < L.w.toNat → y < L.h.toNat → x' < L.w.toNat → y' < L.h.toNat →
    L.pix x y + k.val < L.dstReq ∧ L.pix x y + k.val < L.dstLen.toNat ∧
    (L.pix x y + k.val = L.pix x' y' + k'.val → x = x' ∧ y = y' ∧ k = k')

/-! ## The step -/

/-- A write of CMD that decodes to an operation runs that operation, whoever may also move: while the engine is not BUSY, and
while it is BUSY and the turn is the host's (43_orchestrator.md R180, R189, 10_state.md R30). The step takes the action off the pending
ones, and the turn off the schedule. -/
def Obligations.StepRunsTheDecodedCommand : Prop :=
  ∀ (s : State) (bs : List Byte) (x : Instr) (rest : List HostAction) (ts : List Agent),
    decode (.command (ctrlFmt s.ctrl)) bs = .ops [x] → s.prog = .wr 0x18 (BitVec.ofNat 32 (le bs)) :: rest →
    (s.status ≠ .busy → step s = exec x { s with prog := rest }) ∧
    (s.status = .busy → s.turns = .host :: ts → step s = exec x { s with prog := rest, turns := ts })

/-- While BUSY the engine's move is BLOCK.STEP: when the host has no pending action, and when the turn is the engine's
(10_state.md R20, 43_orchestrator.md R185). -/
def Obligations.StepRunsTheBlockStep : Prop :=
  ∀ (s : State) (a : HostAction) (rest : List HostAction) (ts : List Agent), s.status = .busy →
    (s.prog = [] → step s = exec .blockStep s) ∧
    (s.prog = a :: rest → s.turns = .engine :: ts → step s = exec .blockStep { s with turns := ts })

/-- Where the schedule is exhausted either agent may move, and nothing else can happen (70_reset_and_hazards.md R249): the engine, or
the host with some finite number of turns before the engine's next one, which is the fairness that R253 has a model assume (the form
of the choice is the model's, log entry 6). -/
def Obligations.FreeTurnIsOneOfTheTwoMoves : Prop :=
  ∀ (s : State) (a : HostAction) (rest : List HostAction), s.status = .busy → s.prog = a :: rest → s.turns = [] →
    (∃ k, step s =
      hostMove a { s with prog := rest, turns := List.replicate k .host ++ [.engine], draws := s.draws + 1 }) ∨
    step s = exec .blockStep { s with draws := s.draws + 1 }

/-- With no pending action and no running command nothing happens (70_reset_and_hazards.md R240, 60_exceptions.md R226). -/
def Obligations.IdleMachineStays : Prop :=
  ∀ s : State, s.prog = [] → s.status ≠ .busy → step s = .next s

/-! ## The host registers -/

/-- STATUS as a word (10_state.md R31): STATE in bits 1:0, ERR in bits 7:4, every other bit 0; ERR is 0 exactly when STATE is not
ERROR, and never above 4; a host write of STATUS has no effect; at reset it reads 0. -/
def Obligations.StatusWordLayout : Prop :=
  ∀ (st : Status) (s : State) (v : Word),
    (statusWord st).toNat % 4 = (match st with | .idle => 0 | .busy => 1 | .done => 2 | .error _ => 3) ∧
    (statusWord st).toNat / 16 % 16 =
      (match st with
       | .error .invalidConfiguration => 1 | .error .inputTooShort => 2 | .error .destinationTooSmall => 3
       | .error .cancelled => 4 | .idle => 0 | .busy => 0 | .done => 0) ∧
    (statusWord st).toNat / 4 % 4 = 0 ∧ (statusWord st).toNat / 256 = 0 ∧
    ((statusWord st).toNat / 16 % 16 = 0 ↔ (statusWord st).toNat % 4 ≠ 3) ∧
    hostMove (.rd 0x1C) s = .next { s with rdata := statusWord s.status } ∧
    hostMove (.wr 0x1C v) s = .next s ∧
    statusWord State.reset.status = 0

/-- CMD (10_state.md R30): a read returns 0; a write of 1 is START, of 2 is ABORT, of any other value nothing. -/
def Obligations.CommandRegister : Prop :=
  ∀ (s : State) (v : Word),
    hostMove (.rd 0x18) s = .next { s with rdata := 0 } ∧
    hostMove (.wr 0x18 1) s = exec (startOf (if s.ctrl.getLsbD 0 then .bc3 else .bc1)) s ∧
    hostMove (.wr 0x18 2) s = exec .abort s ∧
    (v ≠ 1 → v ≠ 2 → hostMove (.wr 0x18 v) s = .next s)

/-- The register map (10_state.md R23, R32): in every state, BUSY or not, a read of a configuration register returns the stored value and
changes nothing else, and at any other word offset a read returns 0 and a write has no effect; while not BUSY a write of a
configuration register stores all 32 bits and touches nothing else. -/
def Obligations.RegisterMap : Prop :=
  ∀ (s : State) (v : Word) (off : Nat),
    hostMove (.rd 0x00) s = .next { s with rdata := s.ctrl } ∧
    hostMove (.rd 0x04) s = .next { s with rdata := s.width } ∧
    hostMove (.rd 0x08) s = .next { s with rdata := s.height } ∧
    hostMove (.rd 0x0C) s = .next { s with rdata := s.stride } ∧
    hostMove (.rd 0x10) s = .next { s with rdata := s.srcLen } ∧
    hostMove (.rd 0x14) s = .next { s with rdata := s.dstLen } ∧
    (0x20 ≤ off → off % 4 = 0 →
      hostMove (.rd off) s = .next { s with rdata := 0 } ∧ hostMove (.wr off v) s = .next s) ∧
    (s.status ≠ .busy →
      hostMove (.wr 0x00 v) s = .next { s with ctrl := v } ∧
      hostMove (.wr 0x04 v) s = .next { s with width := v } ∧
      hostMove (.wr 0x08 v) s = .next { s with height := v } ∧
      hostMove (.wr 0x0C v) s = .next { s with stride := v } ∧
      hostMove (.wr 0x10 v) s = .next { s with srcLen := v } ∧
      hostMove (.wr 0x14 v) s = .next { s with dstLen := v })

/-- While BUSY every host write of a register but ABORT has no effect, and a read returns the register's current value (10_state.md R23,
R30, R31, R32, 70_reset_and_hazards.md R246, R247): the host's move changes nothing else, in any BUSY state. In the machine's own
step the action is used up, and the turn with it: the pending actions and the turns, given or free, are the model's form (log entries
5 and 6). -/
def Obligations.BusyMachineDropsWrites : Prop :=
  ∀ (s : State) (v : Word) (off : Nat), s.status = .busy → off % 4 = 0 →
    (¬(off = 0x18 ∧ v = 2) → hostMove (.wr off v) s = .next s) ∧
    hostMove (.rd off) s = .next { s with rdata := regRead s off } ∧
    ∀ (rest : List HostAction) (ts : List Agent),
      (s.turns = .host :: ts → ¬(off = 0x18 ∧ v = 2) → s.prog = .wr off v :: rest →
        step s = .next { s with prog := rest, turns := ts }) ∧
      (s.turns = .host :: ts → s.prog = .rd off :: rest →
        step s = .next { s with prog := rest, turns := ts, rdata := regRead s off }) ∧
      (s.turns = [] → ¬(off = 0x18 ∧ v = 2) → s.prog = .wr off v :: rest →
        (∃ k, step s =
          .next { s with prog := rest, turns := List.replicate k .host ++ [.engine], draws := s.draws + 1 }) ∨
        step s = exec .blockStep { s with draws := s.draws + 1 })

/-- `WAIT` (30_encoding.md R84): a read that stays pending while the field has the value it waits to leave. -/
def Obligations.WaitRepeatsUntilTheFieldDiffers : Prop :=
  ∀ (s : State) (v : Nat),
    hostMove (.wait 0x1C 0 2 v) s =
      .next { s with
        rdata := statusWord s.status
        prog := if (statusWord s.status).toNat % 4 = v then .wait 0x1C 0 2 v :: s.prog else s.prog }

/-- The host has no move on SRC or DST while BUSY and none on a register at an offset that is no multiple of 4, a wait among them
(70_reset_and_hazards.md R251 H-1, H-2, H-5): those stop by name (the form of the stop is the model's, log entry 14); otherwise
placing bytes writes exactly them. -/
def Obligations.HostDuties : Prop :=
  ∀ (s : State) (off : Nat) (bytes : List Byte) (v : Word) (lo width x : Nat),
    (s.status = .busy →
      hostMove (.placeSrc off bytes) s = .fault .hostAccessWhileBusy ∧
      hostMove (.placeDst off bytes) s = .fault .hostAccessWhileBusy ∧
      hostMove (.readDst off) s = .fault .hostAccessWhileBusy) ∧
    (off % 4 ≠ 0 →
      hostMove (.wr off v) s = .fault .hostUnalignedRegister ∧ hostMove (.rd off) s = .fault .hostUnalignedRegister ∧
      hostMove (.wait off lo width x) s = .fault .hostUnalignedRegister) ∧
    (s.status ≠ .busy →
      ∃ m n : Memory,
        hostMove (.placeSrc off bytes) s = .next { s with src := m } ∧
        hostMove (.placeDst off bytes) s = .next { s with dst := n } ∧
        (∀ k, (hk : k < bytes.length) →
          Memory.read m (off + k) = some bytes[k] ∧ Memory.read n (off + k) = some bytes[k]) ∧
        (∀ a, a < off ∨ off + bytes.length ≤ a →
          Memory.read m a = Memory.read s.src a ∧ Memory.read n a = Memory.read s.dst a))

/-- The host's read of a DST byte while not BUSY (70_reset_and_hazards.md R243 step 6): it completes in every such state and changes the
read data only, to the byte written there last; a byte that nothing has written has a free value, the same at each read (log entry
2). That the host sees the command's writes before the STATUS read that shows the end is the model's choice (log entry 19). -/
def Obligations.HostReadsDstBytes : Prop :=
  ∀ (s : State) (off : Nat), s.status ≠ .busy →
    ∃ v : Word, hostMove (.readDst off) s = .next { s with rdata := v } ∧ v.toNat < 256 ∧
      (∀ b, Memory.read s.dst off = some b → v.toNat = b.toNat) ∧
      (Memory.read s.dst off = none → v.toNat = (Config.unwritten .dst off).toNat)

/-! ## Reset -/

/-- The state at reset (10_state.md R41, 70_reset_and_hazards.md R240): the six registers and STATUS read 0, the position and ABORT_REQ
are 0, the latched state and the datapath registers have no value. -/
def Obligations.ResetValues : Prop :=
  (∀ off ∈ [0x00, 0x04, 0x08, 0x0C, 0x10, 0x14, 0x18, 0x1C], regRead State.reset off = 0) ∧
  State.reset.status = .idle ∧ State.reset.bX = 0 ∧ State.reset.bY = 0 ∧ State.reset.cursor = 0 ∧
  State.reset.abortReq = false ∧ State.reset.latch = none ∧ State.reset.dp = Datapath.empty

/-- Reset by the host, in any state (70_reset_and_hazards.md R240, R241, R242, 10_state.md R41): the core's own state takes its reset
values whatever it was, SRC is unchanged, DST too unless a command was BUSY; then every byte outside the command's in-bounds
pixels keeps its value, and the bytes inside hold some value. That each byte inside is a free value, and that a reset keeps the
pending actions, the schedule and the read data, is the model's form (log entry 15). -/
def Obligations.ResetAbandonsTheCommand : Prop :=
  ∀ s : State, ∃ (m : Memory) (d : Nat),
    hostMove .reset s =
      .next { s with
        ctrl := 0, width := 0, height := 0, stride := 0, srcLen := 0, dstLen := 0, status := .idle, latch := none
        bX := 0, bY := 0, cursor := 0, abortReq := false, dp := Datapath.empty, dst := m, ahead := [], draws := d } ∧
    (s.status ≠ .busy → m = s.dst) ∧
    (∀ L, s.status = .busy → s.latch = some L →
      (∀ a, ¬imageByte L a → Memory.read m a = Memory.read s.dst a) ∧
      (∀ a, imageByte L a → ∃ b, Memory.read m a = some b))

/-! ## Whole-machine rules -/

/-- Only the host writes the host registers and SRC: no operation changes a configuration register, SRC, a parameter, the pending
actions, the schedule or the read data (10_state.md R39, 20_memory.md R50, 00_scope.md R9). -/
def Obligations.OperationsNeverWriteHostState : Prop :=
  ∀ (x : Instr) (s t : State), exec x s = .next t →
    t.ctrl = s.ctrl ∧ t.width = s.width ∧ t.height = s.height ∧ t.stride = s.stride ∧ t.srcLen = s.srcLen ∧
    t.dstLen = s.dstLen ∧ t.src = s.src ∧ t.params = s.params ∧ t.prog = s.prog ∧ t.turns = s.turns ∧ t.rdata = s.rdata

/-- Every operation has a meaning: none is refused, in any state (30_encoding.md R81). -/
def Obligations.NothingIsRefused : Prop :=
  (∀ (x : Instr) (s : State) (r : Refusal), exec x s ≠ .refused r) ∧ (∀ (s : State) (r : Refusal), step s ≠ .refused r)

/-- The invariant of the machine holds at reset. -/
def Obligations.InvariantHoldsAtReset : Prop := Inv State.reset

/-- Every step keeps the invariant: canonical memories, no datapath register with a value between block steps (10_state.md R38), the
sequencer position inside the grid with CURSOR = BS * (BY * BCX + BX) while BUSY (R34), ABORT_REQ only while BUSY. -/
def Obligations.StepKeepsTheInvariant : Prop :=
  ∀ s t : State, Inv s → step s = .next t → Inv t

/-- From the invariant no step reads a register without value or accesses a port out of range (20_memory.md R50, R51, R53, R55,
10_state.md R38): the only stop is a move that the host has not. -/
def Obligations.NoAccessOutOfRange : Prop :=
  ∀ (s : State) (f : Fault), Inv s → step s = .fault f → f.unreachable = false

/-- From the invariant a block step of any worker completes, for every choice of block and whatever SRC holds (43_orchestrator.md R185;
20_memory.md R50, R55, R61). -/
def Obligations.BlockStepCompletes : Prop :=
  ∀ s : State, Inv s → s.status = .busy → ∃ t, exec .blockStep s = .next t

/-- A command that is not cancelled performs exactly BCX * BCY block steps and ends DONE, for every number of workers and whatever a
host that keeps its duties does meanwhile (43_orchestrator.md R183, R187, 70_reset_and_hazards.md R252): while it runs the machine never
stops; where it ends, that many steps were the engine's, STATUS is DONE, every in-bounds pixel of the image holds its decoded and
transformed value and every other DST byte is unchanged; with no pending host action it ends after that many steps. -/
def Obligations.CommandDecodesTheImage : Prop :=
  ∀ (L : Latch) (s : State), AtStart L s →
    (∀ k, BusyFor k s → ∃ t : State, Host.Core.run Sys2Proof.core k s = .next t) ∧
    (∀ (k : Nat) (t : State), EndsAt k s t →
      t.status = .done ∧ engineMoves k s = L.bcx * L.bcy ∧ imageDecoded L s.params.colorMode s.src t.dst ∧
      (∀ a, ¬imageByte L a → Memory.read t.dst a = Memory.read s.dst a)) ∧
    (s.prog = [] → ∃ t : State, EndsAt (L.bcx * L.bcy) s t)

/-- Determinism (43_orchestrator.md R193, 10_state.md R42): two commands with the same latched state, the same BC3_COLOR_MODE and the same
SRC bytes below SRCREQ, neither cancelled, both end, with the same STATUS and the same bytes in the image, whatever DST held before,
whatever the workers' order, whatever else differs, a host that polls STATUS among it (R243 step 5). That both end rests on the
fairness of log entry 6. -/
def Obligations.CommandsAreDeterministic : Prop :=
  ∀ (L : Latch) (s s' : State), AtStart L s → AtStart L s' → s.params.colorMode = s'.params.colorMode →
    (∀ a, a < L.srcReq → Memory.byteAt .src s.src a = Memory.byteAt .src s'.src a) →
    ∃ (k k' : Nat) (t t' : State), EndsAt k s t ∧ EndsAt k' s' t' ∧
      t.status = t'.status ∧ ∀ a, imageByte L a → Memory.read t.dst a = Memory.read t'.dst a

/-- Every outcome of a command that receives ABORT is allowed (70_reset_and_hazards.md R249; the schedule is the model's, log entry 6):
with one worker, for every `k < BCX * BCY` some schedule cancels the command after exactly `k` completed block steps, DST holding
what those have written, and some schedule lets it end DONE, the ABORT without effect. -/
def Obligations.AbortMayTakeEffectAtEveryBoundary : Prop :=
  ∀ (L : Latch) (s : State), AtStart L s → s.prog = [] → s.params.extraWorkers = 0 →
    (∀ k, k < L.bcx * L.bcy → ∃ u t : State,
      Host.Core.run Sys2Proof.core k s = .next u ∧
      Host.Core.run Sys2Proof.core (k + 2)
        { s with prog := [.wr 0x18 2], turns := List.replicate k .engine ++ [.host] } = .next t ∧
      t.status = .error .cancelled ∧ t.abortReq = false ∧ t.dst = u.dst ∧ t.cursor = L.bs * k) ∧
    (∃ u t : State,
      Host.Core.run Sys2Proof.core (L.bcx * L.bcy) s = .next u ∧
      Host.Core.run Sys2Proof.core (L.bcx * L.bcy + 1)
        { s with prog := [.wr 0x18 2], turns := List.replicate (L.bcx * L.bcy) .engine } = .next t ∧
      t.status = .done ∧ t.abortReq = false ∧ t.dst = u.dst)

/-- Every command ends, from any point of it, whatever its host does within its duties (70_reset_and_hazards.md R253): DONE, or
Cancelled, and Cancelled only where an ABORT was requested or is pending (R249). It rests on the weak fairness that R253 has a model
assume and that the free schedule builds in (log entry 6). -/
def Obligations.EveryCommandEnds : Prop :=
  ∀ s : State, Inv s → s.status = .busy → dutiful true s.prog = true →
    ∃ (k : Nat) (t : State), EndsAt k s t ∧
      (t.status = .done ∨ t.status = .error .cancelled) ∧
      (s.abortReq = false → dutiful false s.prog = true → t.status = .done)

/-- An enabled block step is eventually taken (70_reset_and_hazards.md R253, weak fairness; the form is the model's, log entry 6): while
BUSY with a host that keeps its duties the machine reaches, by host moves alone, a BUSY state whose next step is BLOCK.STEP. -/
def Obligations.EnabledBlockStepIsTaken : Prop :=
  ∀ s : State, s.status = .busy → dutiful true s.prog = true →
    ∃ (k : Nat) (u : State) (ts : List Agent) (d : Nat),
      Host.Core.run Sys2Proof.core k s = .next u ∧ engineMoves k s = 0 ∧ u.status = .busy ∧
      step u = exec .blockStep { u with turns := ts, draws := d }
end

