-- ==== Sys2Proof/Laws/Memory.lean ====
section
/-! SUPPORT. The laws of memory: reads after writes, and the canonical form kept by every write. -/

namespace Sys2Proof.Machine

/-- All addresses of a canonical tail are above its head's. -/
theorem Memory.head_lt_of_wf {c : Host.Cell} {m : Memory} (h : Memory.wf (c :: m) = true) :
    ∀ d ∈ m, c.1 < d.1 := by
  induction m generalizing c with
  | nil => simp
  | cons e m ih =>
    simp only [Memory.wf, Bool.and_eq_true, decide_eq_true_eq] at h
    intro d hd
    rcases List.mem_cons.mp hd with rfl | hd
    · exact h.1
    · exact lt_trans h.1 (ih h.2 d hd)

theorem Memory.tail_wf {c : Host.Cell} {m : Memory} (h : Memory.wf (c :: m) = true) : Memory.wf m = true := by
  cases m with
  | nil => rfl
  | cons e m => simp only [Memory.wf, Bool.and_eq_true] at h; exact h.2

theorem Memory.wf_cons {c : Host.Cell} {m : Memory} (hm : Memory.wf m = true) (h : ∀ d ∈ m, c.1 < d.1) :
    Memory.wf (c :: m) = true := by
  cases m with
  | nil => rfl
  | cons e m => simp [Memory.wf, hm, h e (by simp)]

/-- The addresses after a write are the old ones and the written one. -/
theorem Memory.mem_write {m : Memory} {a : Nat} {v : Byte} {d : Host.Cell} (h : d ∈ Memory.write m a v) :
    d = (a, v) ∨ d ∈ m := by
  induction m with
  | nil => simpa [Memory.write] using h
  | cons c m ih =>
    simp only [Memory.write] at h
    split at h
    · simpa using h
    · split at h
      · rcases List.mem_cons.mp h with h | h
        · exact .inl h
        · exact .inr (by simp [h])
      · rcases List.mem_cons.mp h with h | h
        · exact .inr (by simp [h])
        · rcases ih h with h | h
          · exact .inl h
          · exact .inr (by simp [h])

/-- A write keeps the canonical form. -/
theorem Memory.write_wf {m : Memory} (a : Nat) (v : Byte) (h : Memory.wf m = true) :
    Memory.wf (Memory.write m a v) = true := by
  induction m with
  | nil => rfl
  | cons c m ih =>
    simp only [Memory.write]
    split
    · rename_i hlt
      refine Memory.wf_cons h fun d hd => ?_
      rcases List.mem_cons.mp hd with rfl | hd
      · exact hlt
      · exact lt_trans hlt (Memory.head_lt_of_wf h d hd)
    · split
      · rename_i _ heq
        exact Memory.wf_cons (Memory.tail_wf h) (by simpa [heq] using Memory.head_lt_of_wf h)
      · refine Memory.wf_cons (ih (Memory.tail_wf h)) fun d hd => ?_
        rcases Memory.mem_write hd with rfl | hd
        · simp only; omega
        · exact Memory.head_lt_of_wf h d hd

/-- Writing a list of bytes keeps the canonical form. -/
theorem Memory.writeBytes_wf {m : Memory} (a : Nat) (bs : List Byte) (h : Memory.wf m = true) :
    Memory.wf (Memory.writeBytes m a bs) = true := by
  induction bs generalizing m a with
  | nil => exact h
  | cons b bs ih => exact ih (a + 1) (Memory.write_wf a b h)

/-- A read after a write to the same address gives the value written. -/
@[simp] theorem Memory.read_write_same (m : Memory) (a : Nat) (v : Byte) :
    Memory.read (Memory.write m a v) a = some v := by
  induction m with
  | nil => simp [Memory.write, Memory.read]
  | cons c m ih =>
    simp only [Memory.write]
    split
    · simp [Memory.read]
    · split
      · simp [Memory.read]
      · rename_i h
        simp [Memory.read, Ne.symm h, ih]

/-- A write leaves every other address alone. -/
theorem Memory.read_write_ne (m : Memory) {a b : Nat} (v : Byte) (h : b ≠ a) :
    Memory.read (Memory.write m a v) b = Memory.read m b := by
  induction m with
  | nil => simp [Memory.write, Memory.read, h.symm]
  | cons c m ih =>
    simp only [Memory.write]
    split
    · simp [Memory.read, h.symm]
    · split
      · rename_i heq
        simp [Memory.read, ← heq, h.symm]
      · simp [Memory.read, ih]

/-- Two canonical memories that read alike are equal data. -/
theorem Memory.ext_of_read {m n : Memory} (hm : Memory.wf m = true) (hn : Memory.wf n = true)
    (h : ∀ a, Memory.read m a = Memory.read n a) : m = n := by
  have none_below : ∀ (k : Memory) (b : Nat), (∀ d ∈ k, b < d.1) → Memory.read k b = none := by
    intro k b hk
    induction k with
    | nil => rfl
    | cons d k ih =>
      have hd := hk d (by simp)
      simp only [Memory.read]
      rw [if_neg (by omega)]
      exact ih fun e he => hk e (by simp [he])
  induction m generalizing n with
  | nil =>
    cases n with
    | nil => rfl
    | cons d n => have := h d.1; simp [Memory.read] at this
  | cons c m ih =>
    cases n with
    | nil => have := h c.1; simp [Memory.read] at this
    | cons d n =>
      have hc := Memory.head_lt_of_wf hm
      have hd := Memory.head_lt_of_wf hn
      have key : c.1 = d.1 := by
        rcases lt_trichotomy c.1 d.1 with hlt | heq | hgt
        · have h1 := h c.1
          rw [none_below (d :: n) c.1 (by
            intro e he
            rcases List.mem_cons.mp he with rfl | he
            · exact hlt
            · exact lt_trans hlt (hd e he))] at h1
          simp [Memory.read] at h1
        · exact heq
        · have h1 := h d.1
          rw [none_below (c :: m) d.1 (by
            intro e he
            rcases List.mem_cons.mp he with rfl | he
            · exact hgt
            · exact lt_trans hgt (hc e he))] at h1
          simp [Memory.read] at h1
      have hv : c.2 = d.2 := by
        have h1 := h c.1
        simp [Memory.read, key] at h1
        exact h1
      have htail : ∀ a, Memory.read m a = Memory.read n a := by
        intro a
        by_cases ha : c.1 = a
        · rw [none_below m a (by simpa [ha] using hc), none_below n a (by simpa [← key, ha] using hd)]
        · have h1 := h a
          simp only [Memory.read, if_neg ha, if_neg (key ▸ ha)] at h1
          exact h1
      rw [ih (Memory.tail_wf hm) (Memory.tail_wf hn) htail, Prod.ext key hv]

/-! ## Stores in sequence -/

/-- The memory after a sequence of byte writes. -/
def Memory.writeCells (m : Memory) (cs : List Host.Cell) : Memory :=
  cs.foldl (fun n c => Memory.write n c.1 c.2) m

@[simp] theorem Memory.writeCells_nil (m : Memory) : Memory.writeCells m [] = m := rfl
@[simp] theorem Memory.writeCells_cons (m : Memory) (c : Host.Cell) (cs : List Host.Cell) :
    Memory.writeCells m (c :: cs) = Memory.writeCells (Memory.write m c.1 c.2) cs := rfl
theorem Memory.writeCells_append (m : Memory) (cs ds : List Host.Cell) :
    Memory.writeCells m (cs ++ ds) = Memory.writeCells (Memory.writeCells m cs) ds := by
  simp [Memory.writeCells]

theorem Memory.writeCells_wf {m : Memory} (cs : List Host.Cell) (h : Memory.wf m = true) :
    Memory.wf (Memory.writeCells m cs) = true := by
  induction cs generalizing m with
  | nil => exact h
  | cons c cs ih => exact ih (Memory.write_wf c.1 c.2 h)

/-- An address that no store of the sequence names reads as before. -/
theorem Memory.read_writeCells_frame (m : Memory) (cs : List Host.Cell) {a : Nat} (h : ∀ c ∈ cs, c.1 ≠ a) :
    Memory.read (Memory.writeCells m cs) a = Memory.read m a := by
  induction cs generalizing m with
  | nil => rfl
  | cons c cs ih =>
    rw [Memory.writeCells_cons, ih _ fun d hd => h d (by simp [hd])]
    exact Memory.read_write_ne m c.2 (Ne.symm (h c (by simp)))

/-- An address that the sequence names, always with one value, reads as that value. -/
theorem Memory.read_writeCells_stored (m : Memory) (cs : List Host.Cell) {a : Nat} {v : Byte} (hmem : (a, v) ∈ cs)
    (huniq : ∀ c ∈ cs, c.1 = a → c.2 = v) : Memory.read (Memory.writeCells m cs) a = some v := by
  induction cs generalizing m with
  | nil => simp at hmem
  | cons c cs ih =>
    rw [Memory.writeCells_cons]
    by_cases hin : (a, v) ∈ cs
    · exact ih _ hin fun d hd => huniq d (by simp [hd])
    · have hc : c = (a, v) := by
        rcases List.mem_cons.mp hmem with h | h
        · exact h.symm
        · exact absurd h hin
      rw [Memory.read_writeCells_frame, hc]
      · simp
      · intro d hd hda
        exact hin (by
          have := huniq d (by simp [hd]) hda
          rw [← hda, ← this]; exact hd)

/-! ## What a buffer holds -/

/-- A written byte is what the buffer holds. -/
theorem Memory.byteAt_of_read {buf : Buffer} {m : Memory} {a : Nat} {v : Byte} (h : Memory.read m a = some v) :
    Memory.byteAt buf m a = v := by simp [Memory.byteAt, h]

/-- Where nothing has been written a buffer holds the free value of the address. -/
theorem Memory.byteAt_of_unwritten {buf : Buffer} {m : Memory} {a : Nat} (h : Memory.read m a = none) :
    Memory.byteAt buf m a = Config.unwritten buf a := by simp [Memory.byteAt, h]

/-- Memories that read alike at an address hold the same byte there. -/
theorem Memory.byteAt_congr {buf : Buffer} {m n : Memory} {a : Nat} (h : Memory.read m a = Memory.read n a) :
    Memory.byteAt buf m a = Memory.byteAt buf n a := by simp [Memory.byteAt, h]

@[simp] theorem Memory.bytesAt_length (buf : Buffer) (m : Memory) (a n : Nat) : (Memory.bytesAt buf m a n).length = n := by
  induction n generalizing a with
  | zero => rfl
  | succ n ih => simp [Memory.bytesAt, ih]

/-- The bytes of an interval are the bytes at its addresses. -/
theorem Memory.bytesAt_getElem (buf : Buffer) (m : Memory) (a n k : Nat) (hk : k < (Memory.bytesAt buf m a n).length) :
    (Memory.bytesAt buf m a n)[k] = Memory.byteAt buf m (a + k) := by
  induction n generalizing a k with
  | zero => simp at hk
  | succ n ih =>
    cases k with
    | zero => rfl
    | succ k =>
      have := ih (a + 1) k (by simpa [Memory.bytesAt] using hk)
      simpa [Memory.bytesAt, Nat.add_comm, Nat.add_left_comm] using this

/-- Two buffers that hold the same bytes at an interval's addresses give the same bytes. -/
theorem Memory.bytesAt_congr {buf : Buffer} {m m' : Memory} {a n : Nat}
    (h : ∀ k, k < n → Memory.byteAt buf m (a + k) = Memory.byteAt buf m' (a + k)) :
    Memory.bytesAt buf m a n = Memory.bytesAt buf m' a n := by
  induction n generalizing a with
  | zero => rfl
  | succ n ih =>
    simp only [Memory.bytesAt]
    rw [ih fun k hk => by simpa [Nat.add_comm, Nat.add_left_comm] using h (k + 1) (by omega)]
    simpa using h 0 (by omega)

end Sys2Proof.Machine
end

