-- ==== Sys2Proof/Laws/Ops.lean ====
section
/-! SUPPORT. One lemma per shared operation: everything it can do. -/

namespace Sys2Proof.Machine

open Sys2Proof

/-! ## Outcomes -/

@[simp] theorem andThen_next (s : State) (f : State → Result) : andThen (.next s) f = f s := rfl
@[simp] theorem andThen_fault (r : Fault) (f : State → Result) : andThen (.fault r) f = .fault r := rfl
@[simp] theorem andThen_refused (r : Refusal) (f : State → Result) : andThen (.refused r) f = .refused r := rfl

/-- A sequence answers a next state exactly when both its parts do. -/
theorem andThen_eq_next {o : Result} {f : State → Result} {t : State} :
    andThen o f = .next t ↔ ∃ u, o = .next u ∧ f u = .next t := by
  cases o <;> simp

@[simp] theorem withValue_ok {α : Type} (v : α) (f : α → Result) : withValue (.ok v) f = f v := rfl
@[simp] theorem withValue_error {α : Type} (e : Fault) (f : α → Result) : withValue (.error e) f = .fault e := rfl

/-- A read and what follows answer a next state exactly when the read has a value and the rest does. -/
theorem withValue_eq_next {α : Type} {r : Except Fault α} {f : α → Result} {t : State} :
    withValue r f = .next t ↔ ∃ v, r = .ok v ∧ f v = .next t := by
  cases r <;> simp

/-! ## Reads -/

theorem latched_eq_ok {s : State} {L : Latch} : latched s = .ok L ↔ s.latch = some L := by
  unfold latched; split <;> simp_all

theorem regValue_eq_ok {α : Type} {reg : DatapathReg} {v : Option α} {x : α} :
    regValue reg v = .ok x ↔ v = some x := by
  unfold regValue; split <;> simp_all

@[simp] theorem regValue_some {α : Type} (reg : DatapathReg) (x : α) : regValue reg (some x) = .ok x := rfl

/-- A SRC read gives the bytes that SRC holds exactly when it is in range. -/
theorem srcRead_eq_ok {L : Latch} {s : State} {off n : Nat} {bs : List Byte} :
    srcRead L s off n = .ok bs ↔ off + n ≤ L.srcLen.toNat ∧ Memory.bytesAt .src s.src off n = bs := by
  unfold srcRead
  split <;> simp_all

/-- A DST read gives the byte that DST holds exactly when it is in range. -/
theorem dstRead_eq_ok {L : Latch} {s : State} {off : Nat} {b : Byte} :
    dstRead L s off = .ok b ↔ off < L.dstLen.toNat ∧ Memory.byteAt .dst s.dst off = b := by
  unfold dstRead
  split <;> simp_all

/-- A pixel read gives a pixel exactly when its four bytes read. -/
theorem pixelRead_eq_ok {L : Latch} {s : State} {base : Nat} {P : Pixel} :
    pixelRead L s base = .ok P ↔
      dstRead L s base = .ok P.r ∧ dstRead L s (base + 1) = .ok P.g ∧
        dstRead L s (base + 2) = .ok P.b ∧ dstRead L s (base + 3) = .ok P.a := by
  unfold pixelRead
  cases dstRead L s base <;> cases dstRead L s (base + 1) <;> cases dstRead L s (base + 2) <;>
    cases dstRead L s (base + 3) <;> simp
  constructor
  · rintro rfl; exact ⟨rfl, rfl, rfl, rfl⟩
  · rintro ⟨rfl, rfl, rfl, rfl⟩; rfl

/-! ## DST writes -/

/-- A sequence of DST writes answers a next state exactly when every address is in range, and then only DST has changed. -/
theorem dstWriteAll_eq_next {L : Latch} {cs : List Host.Cell} {s t : State} :
    dstWriteAll L cs s = .next t ↔
      (∀ c ∈ cs, c.1 < L.dstLen.toNat) ∧ t = { s with dst := Memory.writeCells s.dst cs } := by
  induction cs generalizing s with
  | nil => simp [dstWriteAll, eq_comm]
  | cons c cs ih =>
    unfold dstWriteAll dstWrite
    split
    · rename_i h
      rw [andThen_next, ih]
      simp [h]
    · rename_i h
      simp [h]

/-- What the transform of one pixel can do: nothing for an overhang pixel, else the stores of the changed channels. -/
theorem transformPixel_eq_next {p : Lane} {f : Pixel → Pixel} {ks : List (Fin 4)} {s t : State} :
    transformPixel p f ks s = .next t ↔
      ∃ L o, s.latch = some L ∧ s.dp.origin = some o ∧
        ((inBounds L o p = false ∧ t = s) ∨
         (inBounds L o p = true ∧ ∃ P, pixelRead L s (lanePix L o p) = .ok P ∧
            dstWriteAll L (pixelStores (lanePix L o p) (f P) ks) s = .next t)) := by
  unfold transformPixel
  constructor
  · intro h
    obtain ⟨L, hL, h⟩ := withValue_eq_next.mp h
    obtain ⟨o, ho, h⟩ := withValue_eq_next.mp h
    refine ⟨L, o, latched_eq_ok.mp hL, regValue_eq_ok.mp ho, ?_⟩
    split at h
    · rename_i hb
      obtain ⟨P, hP, h⟩ := withValue_eq_next.mp h
      exact .inr ⟨hb, P, hP, h⟩
    · rename_i hb
      simp only [Host.Outcome.next.injEq] at h
      exact .inl ⟨by simpa using hb, h.symm⟩
  · rintro ⟨L, o, hL, ho, h⟩
    rw [latched_eq_ok.mpr hL, withValue_ok, regValue_eq_ok.mpr ho, withValue_ok]
    rcases h with ⟨hb, rfl⟩ | ⟨hb, P, hP, h⟩
    · simp [hb]
    · simp [hb, hP, h]

/-! ## The operations of a block step -/

/-- The operations that a block step runs: all but the commands and BLOCK.STEP itself. -/
def isBlockOp : Instr → Bool
  | .decodeBc1 | .decodeBc3 | .abort | .blockStep => false
  | .bc1Expand _ _ | .bc1Lut4 | .bc1Lut3 | .bc1Idx2 _ | .bc1Lookup => true
  | .bc3aLut8 _ _ | .bc3aLut6 _ _ | .bc3aIdx3 _ | .bc3aLookup => true
  | .xfYcocg _ _ _ _ | .xfSwapRa _ _ _ _ | .xfNrmSqrt _ _ _ | .xfNrmHemioct _ _ _ => true

/-- A block step runs each operation with its meaning. -/
theorem runOp_eq_exec {x : Instr} (h : isBlockOp x = true) (s : State) : runOp x s = exec x s := by
  cases x <;> first | rfl | simp [isBlockOp] at h

theorem runOps_append (xs ys : List Instr) (s : State) :
    runOps (xs ++ ys) s = andThen (runOps xs s) (runOps ys) := by
  induction xs generalizing s with
  | nil => rfl
  | cons x xs ih =>
    simp only [List.cons_append, runOps]
    cases runOp x s <;> simp [ih]

/-- A block selects block operations only. -/
theorem isBlockOp_of_mem_blockOps {fmt : Format} {mode : Bc3ColorMode} {y n h : Bool} {blk : List Byte} {x : Instr}
    (hx : x ∈ blockOps fmt mode y n h blk) : isBlockOp x = true := by
  have hcol : ∀ om b, ∀ z ∈ colourOps om mode b, isBlockOp z = true := by
    intro om b z hz
    simp only [colourOps, List.mem_cons, List.not_mem_nil, or_false] at hz
    rcases hz with rfl | rfl | rfl | rfl | rfl <;> first | rfl | (split <;> rfl)
  have halpha : ∀ a, ∀ z ∈ alphaOps a, isBlockOp z = true := by
    intro a z hz
    simp only [alphaOps, List.mem_cons, List.not_mem_nil, or_false] at hz
    rcases hz with rfl | rfl | rfl <;> first | rfl | (split <;> rfl)
  have hxf : ∀ f p, ∀ z ∈ xfOps f y n h p, isBlockOp z = true := by
    intro f p z hz
    unfold xfOps at hz
    simp only [List.mem_append] at hz
    rcases hz with ((hz | hz) | hz) | hz <;> (split at hz <;> simp at hz; subst hz; rfl)
  unfold blockOps at hx
  rcases List.mem_append.mp hx with hx | hx
  · unfold decodeOps at hx
    cases fmt with
    | bc1 => exact hcol _ _ x hx
    | bc3 =>
      rcases List.mem_append.mp hx with hx | hx
      · exact halpha _ x hx
      · exact hcol _ _ x hx
  · obtain ⟨p, -, hp⟩ := List.mem_flatMap.mp hx
    exact hxf _ p x hp

/-! ## The integer square root -/

theorem isqrtFrom_spec (k n acc : Nat) (hlo : acc * acc ≤ n) (hhi : n < (acc + 2 ^ k) * (acc + 2 ^ k)) :
    isqrtFrom k n acc * isqrtFrom k n acc ≤ n ∧ n < (isqrtFrom k n acc + 1) * (isqrtFrom k n acc + 1) := by
  induction k generalizing acc with
  | zero => simpa [isqrtFrom] using ⟨hlo, hhi⟩
  | succ k ih =>
    unfold isqrtFrom
    split
    · rename_i h
      refine ih (acc + 2 ^ k) h ?_
      have : acc + 2 ^ k + 2 ^ k = acc + 2 ^ (k + 1) := by rw [pow_succ]; ring
      rwa [this]
    · rename_i h
      exact ih acc hlo (by omega)

/-- `isqrt(n)` is the largest integer whose square is at most `n` (00_scope.md R11). -/
theorem isqrt_spec (n : Nat) : isqrt n * isqrt n ≤ n ∧ n < (isqrt n + 1) * (isqrt n + 1) := by
  refine isqrtFrom_spec _ n 0 (by simp) ?_
  have h : n < 2 ^ (Nat.log2 n + 1) := Nat.lt_log2_self
  have h1 : 1 ≤ 2 ^ (Nat.log2 n + 1) := Nat.one_le_two_pow
  nlinarith

end Sys2Proof.Machine
end

