-- ==== Sys2Proof/Laws/BlockStep.lean ====
section
/-! SUPPORT. What the operations of a block step, and the block step itself, can do: said once, so that no later proof unfolds them. -/

namespace Sys2Proof.Machine

open Sys2Proof

/-! ## Frames -/

/-- A sequence of DST writes changes DST only. -/
theorem dstWriteAll_frame {L : Latch} {cs : List Host.Cell} {s t : State} (h : dstWriteAll L cs s = .next t) :
    t = { s with dp := t.dp, dst := t.dst } := by
  obtain ⟨-, rfl⟩ := dstWriteAll_eq_next.mp h; rfl

/-- A transform operation changes DST only. -/
theorem transformPixel_frame {p : Lane} {f : Pixel → Pixel} {ks : List (Fin 4)} {s t : State}
    (h : transformPixel p f ks s = .next t) : t = { s with dp := t.dp, dst := t.dst } := by
  obtain ⟨L, o, -, -, ⟨-, rfl⟩ | ⟨-, P, -, h⟩⟩ := transformPixel_eq_next.mp h
  · rfl
  · exact dstWriteAll_frame h

/-- An operation of a block step changes datapath registers and DST only. -/
theorem runOp_frame {x : Instr} {s t : State} (h : runOp x s = .next t) : t = { s with dp := t.dp, dst := t.dst } := by
  cases x with
  | bc1Expand e c => cases e <;> (cases h; rfl)
  | bc1Lut4 =>
    obtain ⟨c, -, h⟩ := withValue_eq_next.mp h
    obtain ⟨d, -, h⟩ := withValue_eq_next.mp h
    cases h; rfl
  | bc1Lut3 =>
    obtain ⟨c, -, h⟩ := withValue_eq_next.mp h
    obtain ⟨d, -, h⟩ := withValue_eq_next.mp h
    cases h; rfl
  | bc1Lookup =>
    obtain ⟨L, -, h⟩ := withValue_eq_next.mp h
    obtain ⟨u, -, h⟩ := withValue_eq_next.mp h
    obtain ⟨y, -, h⟩ := withValue_eq_next.mp h
    obtain ⟨o, -, h⟩ := withValue_eq_next.mp h
    exact dstWriteAll_frame h
  | bc3aLookup =>
    obtain ⟨L, -, h⟩ := withValue_eq_next.mp h
    obtain ⟨u, -, h⟩ := withValue_eq_next.mp h
    obtain ⟨y, -, h⟩ := withValue_eq_next.mp h
    obtain ⟨o, -, h⟩ := withValue_eq_next.mp h
    exact dstWriteAll_frame h
  | xfYcocg p _ _ _ => exact transformPixel_frame h
  | xfSwapRa p _ _ _ => exact transformPixel_frame h
  | xfNrmSqrt p _ _ => exact transformPixel_frame h
  | xfNrmHemioct p _ _ => exact transformPixel_frame h
  | _ => cases h; rfl

/-- The operations of a block step change datapath registers and DST only. -/
theorem runOps_frame {xs : List Instr} {s t : State} (h : runOps xs s = .next t) :
    t = { s with dp := t.dp, dst := t.dst } := by
  induction xs generalizing s with
  | nil => cases h; rfl
  | cons x xs ih =>
    obtain ⟨u, hu, h⟩ := andThen_eq_next.mp h
    have h1 := ih h
    rw [runOp_frame hu] at h1
    exact h1

/-! ## The canonical form of DST -/

theorem dstWriteAll_wf {L : Latch} {cs : List Host.Cell} {s t : State} (hs : Memory.wf s.dst = true)
    (h : dstWriteAll L cs s = .next t) : Memory.wf t.dst = true := by
  obtain ⟨-, rfl⟩ := dstWriteAll_eq_next.mp h
  exact Memory.writeCells_wf cs hs

theorem transformPixel_wf {p : Lane} {f : Pixel → Pixel} {ks : List (Fin 4)} {s t : State} (hs : Memory.wf s.dst = true)
    (h : transformPixel p f ks s = .next t) : Memory.wf t.dst = true := by
  obtain ⟨L, o, -, -, ⟨-, rfl⟩ | ⟨-, P, -, h⟩⟩ := transformPixel_eq_next.mp h
  · exact hs
  · exact dstWriteAll_wf hs h

/-- An operation of a block step keeps DST in canonical form. -/
theorem runOp_wf {x : Instr} {s t : State} (hs : Memory.wf s.dst = true) (h : runOp x s = .next t) :
    Memory.wf t.dst = true := by
  cases x with
  | bc1Expand e c => cases e <;> (cases h; exact hs)
  | bc1Lut4 =>
    obtain ⟨c, -, h⟩ := withValue_eq_next.mp h
    obtain ⟨d, -, h⟩ := withValue_eq_next.mp h
    cases h; exact hs
  | bc1Lut3 =>
    obtain ⟨c, -, h⟩ := withValue_eq_next.mp h
    obtain ⟨d, -, h⟩ := withValue_eq_next.mp h
    cases h; exact hs
  | bc1Lookup =>
    obtain ⟨L, -, h⟩ := withValue_eq_next.mp h
    obtain ⟨u, -, h⟩ := withValue_eq_next.mp h
    obtain ⟨y, -, h⟩ := withValue_eq_next.mp h
    obtain ⟨o, -, h⟩ := withValue_eq_next.mp h
    exact dstWriteAll_wf hs h
  | bc3aLookup =>
    obtain ⟨L, -, h⟩ := withValue_eq_next.mp h
    obtain ⟨u, -, h⟩ := withValue_eq_next.mp h
    obtain ⟨y, -, h⟩ := withValue_eq_next.mp h
    obtain ⟨o, -, h⟩ := withValue_eq_next.mp h
    exact dstWriteAll_wf hs h
  | xfYcocg p _ _ _ => exact transformPixel_wf hs h
  | xfSwapRa p _ _ _ => exact transformPixel_wf hs h
  | xfNrmSqrt p _ _ => exact transformPixel_wf hs h
  | xfNrmHemioct p _ _ => exact transformPixel_wf hs h
  | _ => cases h; exact hs

theorem runOps_wf {xs : List Instr} {s t : State} (hs : Memory.wf s.dst = true) (h : runOps xs s = .next t) :
    Memory.wf t.dst = true := by
  induction xs generalizing s with
  | nil => cases h; exact hs
  | cons x xs ih =>
    obtain ⟨u, hu, h⟩ := andThen_eq_next.mp h
    exact ih (runOp_wf hs hu) h

/-- The bytes that a reset draws keep DST in canonical form. -/
theorem drawBytes_wf {as : List Nat} {s : State} (hs : Memory.wf s.dst = true) :
    Memory.wf (drawBytes as s).dst = true := by
  induction as generalizing s with
  | nil => exact hs
  | cons a as ih => exact ih (Memory.write_wf a _ hs)

/-! ## The decoding half of a block -/

/-- The table that the operations of a colour block build. -/
def colourTable (om : OpacityMode) (mode : Bc3ColorMode) (b : ColourBlock) : Vector Pixel 4 :=
  if fourColour om mode b.c0 b.c1 then lut4 (expand b.c0) (expand b.c1) else lut3 (expand b.c0) (expand b.c1)

/-- The table that the operations of an alpha sub-block build. -/
def alphaTable (a : AlphaBlock) : Vector Byte 8 :=
  if a.e1.toNat < a.e0.toNat then lut8 a.e0 a.e1 else lut6 a.e0 a.e1

/-- The operations of a colour block, whole: the registers they write, and the lookup's stores. -/
theorem runOps_colourOps {om : OpacityMode} {mode : Bc3ColorMode} {b : ColourBlock} {s : State} {L : Latch} {o : Origin}
    (hL : s.latch = some L) (ho : s.dp.origin = some o) :
    runOps (colourOps om mode b) s =
      dstWriteAll L (colourStores (opacityOf L.fmt) L o (colourTable om mode b) (unpackIdx2 b.idx))
        { s with dp := { s.dp with
            c0 := some b.c0, c1 := some b.c1, e0Rgb := some (expand b.c0), e1Rgb := some (expand b.c1)
            table := some (colourTable om mode b), four := some (fourColour om mode b.c0 b.c1)
            idx2 := some (unpackIdx2 b.idx) } } := by
  unfold colourOps colourTable
  cases hf : fourColour om mode b.c0 b.c1
  · simp only [Bool.false_eq_true, if_false, runOps, runOp, execBc1Expand, execBc1Lut3, execBc1Idx2, execBc1Lookup,
      andThen_next, withValue_ok, regValue_some, latched, hL, ho]
    cases dstWriteAll L _ _ <;> rfl
  · simp only [if_true, runOps, runOp, execBc1Expand, execBc1Lut4, execBc1Idx2, execBc1Lookup,
      andThen_next, withValue_ok, regValue_some, latched, hL, ho]
    cases dstWriteAll L _ _ <;> rfl

/-- The operations of an alpha sub-block, whole. -/
theorem runOps_alphaOps {a : AlphaBlock} {s : State} {L : Latch} {o : Origin}
    (hL : s.latch = some L) (ho : s.dp.origin = some o) :
    runOps (alphaOps a) s =
      dstWriteAll L (alphaStores L o (alphaTable a) (unpackIdx3 a.idx))
        { s with dp := { s.dp with
            e0 := some a.e0, e1 := some a.e1, value := some (alphaTable a), idx3 := some (unpackIdx3 a.idx) } } := by
  unfold alphaOps alphaTable
  split
  · simp only [runOps, runOp, execBc3aLut8, execBc3aIdx3, execBc3aLookup,
      andThen_next, withValue_ok, regValue_some, latched, hL, ho]
    cases dstWriteAll L _ _ <;> rfl
  · simp only [runOps, runOp, execBc3aLut6, execBc3aIdx3, execBc3aLookup,
      andThen_next, withValue_ok, regValue_some, latched, hL, ho]
    cases dstWriteAll L _ _ <;> rfl

/-! ## The block step -/

/-- Everything that BLOCK.STEP can do when it answers a next state. -/
theorem execBlockStep_cases {s t : State} (h : execBlockStep s = .next t) :
    (s.status ≠ .busy ∧ t = s) ∨
    (s.status = .busy ∧ ∃ L, s.latch = some L ∧
      ((L.bcy ≤ s.bY ∧ t = s) ∨
       (s.bY < L.bcy ∧ s.abortReq = true ∧ t = cancel s) ∨
       (s.bY < L.bcy ∧ s.abortReq = false ∧ stepBlock L (pickBlock L s).1 (pickBlock L s).2 = .next t))) := by
  unfold execBlockStep at h
  split at h
  · rename_i hb
    obtain ⟨L, hL, h⟩ := withValue_eq_next.mp h
    refine .inr ⟨hb, L, latched_eq_ok.mp hL, ?_⟩
    split at h
    · rename_i hy
      split at h
      · rename_i ha
        cases h
        exact .inr (.inl ⟨hy, ha, rfl⟩)
      · rename_i ha
        exact .inr (.inr ⟨hy, by simpa using ha, h⟩)
    · rename_i hy
      cases h
      exact .inl ⟨Nat.le_of_not_lt hy, rfl⟩
  · rename_i hb
    cases h
    exact .inl ⟨hb, rfl⟩

/-- Everything that the decoding of one block can do when it answers a next state: the block's bytes were read, its operations have
changed datapath registers and DST only, and the sequencer has advanced. -/
theorem stepBlock_cases {L : Latch} {n : Nat} {s t : State} (h : stepBlock L n s = .next t) :
    ∃ blk u, srcRead L s (blockPlace L s n).2.2 L.bs = .ok blk ∧
      runOps (blockOps L.fmt s.params.colorMode L.ycocg L.normalize L.hemioct blk)
        { s with dp := { Datapath.empty with
            origin := some { x := 4 * (blockPlace L s n).1, y := 4 * (blockPlace L s n).2.1 } } } = .next u ∧
      u = { s with dp := u.dp, dst := u.dst } ∧ t = advance L n u := by
  unfold stepBlock at h
  simp only at h
  obtain ⟨blk, hblk, h⟩ := withValue_eq_next.mp h
  obtain ⟨u, hu, h⟩ := andThen_eq_next.mp h
  cases h
  exact ⟨blk, u, hblk, hu, by have := runOps_frame hu; exact this, rfl⟩

end Sys2Proof.Machine
end

