-- ==== Sys2Proof/Laws/Moves.lean ====
section
/-! SUPPORT. Everything that one step can do: whose move it is, and on which state. -/

namespace Sys2Proof.Machine

open Sys2Proof

/-- Taking a turn changes the schedule and the count of draws only. -/
theorem takeTurn_frame (s : State) :
    (takeTurn s).2 = { s with turns := (takeTurn s).2.turns, draws := (takeTurn s).2.draws } := by
  unfold takeTurn; split <;> rfl

/-- A free schedule ends with a turn of the engine, after turns of the host only. -/
theorem freeTurns_cases (n : Nat) :
    freeTurns n = (.engine, []) ∨ ∃ k, freeTurns n = (.host, List.replicate k .host ++ [.engine]) := by
  unfold freeTurns
  split
  · exact .inl rfl
  · rename_i k _; exact .inr ⟨k, rfl⟩

/-- Everything that a step can be. -/
theorem step_cases (s : State) :
    (s.status ≠ .busy ∧ s.prog = [] ∧ step s = .next s) ∨
    (∃ a rest, s.status ≠ .busy ∧ s.prog = a :: rest ∧ step s = hostMove a { s with prog := rest }) ∨
    (s.status = .busy ∧ s.prog = [] ∧ step s = exec .blockStep s) ∨
    (∃ a rest, s.status = .busy ∧ s.prog = a :: rest ∧ (takeTurn s).1 = .host ∧
      step s = hostMove a { (takeTurn s).2 with prog := rest }) ∨
    (∃ a rest, s.status = .busy ∧ s.prog = a :: rest ∧ (takeTurn s).1 = .engine ∧
      step s = exec .blockStep (takeTurn s).2) := by
  unfold step move
  cases hp : s.prog with
  | nil => by_cases hb : s.status = .busy <;> simp [hb]
  | cons a rest =>
    by_cases hb : s.status = .busy
    · cases ht : takeTurn s with
      | mk g t => cases g <;> simp [hb]
    · simp [hb]

end Sys2Proof.Machine
end

