-- ==== Sys2Proof/Laws/PerInstr.lean ====
section
/-! SUPPORT. Statements made for every instruction: an operation's encoding has the length that the opcode table gives its format. -/

namespace Sys2Proof.Laws.EncodingLength

open Sys2Proof

/-- The bytes of an operation's format in spec/opcode_table.json (30_encoding.md R70). -/
def rowBytes : Instr → Nat
  | .decodeBc1 | .decodeBc3 | .abort => 4
  | .blockStep => 8
  | .bc1Expand _ _ => 2
  | .bc1Lut4 | .bc1Lut3 | .bc1Idx2 _ | .bc1Lookup => 8
  | .bc3aLut8 _ _ | .bc3aLut6 _ _ | .bc3aIdx3 _ | .bc3aLookup => 8
  | .xfYcocg _ _ _ _ | .xfSwapRa _ _ _ _ | .xfNrmSqrt _ _ _ | .xfNrmHemioct _ _ _ => 4

/-- The encoder's bytes are as many as the row's format has, and as the decoder asks for. -/
def Statement (x : Instr) : Prop :=
  (encode x).2.length = rowBytes x ∧ (encode x).1.length = rowBytes x

theorem decodeBc1 : Statement .decodeBc1 := ⟨rfl, rfl⟩
theorem decodeBc3 : Statement .decodeBc3 := ⟨rfl, rfl⟩
theorem abort : Statement .abort := ⟨rfl, rfl⟩
theorem blockStep : Statement .blockStep := ⟨rfl, rfl⟩
theorem bc1Expand (e : Endpoint) (c : BitVec 16) : Statement (.bc1Expand e c) := ⟨rfl, rfl⟩
theorem bc1Lut4 : Statement .bc1Lut4 := ⟨rfl, rfl⟩
theorem bc1Lut3 : Statement .bc1Lut3 := ⟨rfl, rfl⟩
theorem bc1Idx2 (x : BitVec 32) : Statement (.bc1Idx2 x) := ⟨rfl, rfl⟩
theorem bc1Lookup : Statement .bc1Lookup := ⟨rfl, rfl⟩
theorem bc3aLut8 (e0 e1 : Byte) : Statement (.bc3aLut8 e0 e1) := ⟨rfl, rfl⟩
theorem bc3aLut6 (e0 e1 : Byte) : Statement (.bc3aLut6 e0 e1) := ⟨rfl, rfl⟩
theorem bc3aIdx3 (x : BitVec 48) : Statement (.bc3aIdx3 x) := ⟨rfl, rfl⟩
theorem bc3aLookup : Statement .bc3aLookup := ⟨rfl, rfl⟩
theorem xfYcocg (p : Lane) (h n f : Bool) : Statement (.xfYcocg p h n f) := ⟨rfl, rfl⟩
theorem xfSwapRa (p : Lane) (h y f : Bool) : Statement (.xfSwapRa p h y f) := ⟨rfl, rfl⟩
theorem xfNrmSqrt (p : Lane) (y f : Bool) : Statement (.xfNrmSqrt p y f) := ⟨rfl, rfl⟩
theorem xfNrmHemioct (p : Lane) (y f : Bool) : Statement (.xfNrmHemioct p y f) := ⟨rfl, rfl⟩

end Sys2Proof.Laws.EncodingLength
end

