-- ==== Sys2Proof/Tests/Slice0.lean ====
section
/-! SUPPORT. The model's own tests: vectors of spec/95_test_vectors.md and of the rules' examples, decodings of written-out words,
ill-formed terms, and for every statement with hypotheses a witness that meets them. -/

namespace Sys2Proof.Machine.Tests

open Sys2Proof Sys2Proof.Machine Sys2Proof.Machine.Claims

/-! ## Ill-formed terms (41 R141, 30 R80) -/

theorem test_illformed_lut8 : (Instr.bc3aLut8 5 5).wellFormed = false := by decide
theorem test_illformed_lut6 : (Instr.bc3aLut6 6 5).wellFormed = false := by decide
theorem test_illformed_ycocg : (Instr.xfYcocg 0 true false true).wellFormed = false := by decide

/-! ## Decoding, one written-out word per operation -/

/-- CMD words, 10_state.md R30. -/
theorem test_decode_start1 : decode (.command .bc1) [1, 0, 0, 0] = .ops [.decodeBc1] := by decide
theorem test_decode_start3 : decode (.command .bc3) [1, 0, 0, 0] = .ops [.decodeBc3] := by decide
theorem test_decode_abort : decode (.command .bc3) [2, 0, 0, 0] = .ops [.abort] := by decide
theorem test_decode_reserved : decode (.command .bc1) [0, 1, 0, 0] = .rejected .reservedCommand := by decide
/-- A block at CURSOR is consumed by BLOCK.STEP, 30_encoding.md R81. -/
theorem test_decode_block : decode (.block .bc1) [1, 2, 3, 4, 5, 6, 7, 8] = .ops [.blockStep] := by decide
theorem test_decode_short_block : decode (.block .bc3) [1, 2, 3, 4, 5, 6, 7, 8] = .rejected .wrongLength := by decide
/-- Red, 30_encoding.md R72. -/
theorem test_decode_endpoint : decode (.endpoint .one) [0x00, 0xF8] = .ops [.bc1Expand .one 0xF800] := by decide
/-- Program P1's block: c0 > c1. -/
theorem test_decode_colour4 : decode (.colour .punchThroughCapable .fourColorAlways)
    [0x00, 0xF8, 0x1F, 0x00, 0xE4, 0x1B, 0x00, 0x55] =
    .ops [.bc1Expand .zero 0xF800, .bc1Expand .one 0x001F, .bc1Lut4, .bc1Idx2 0x55001BE4, .bc1Lookup] := by decide
/-- S3's block: c0 < c1. -/
theorem test_decode_colour3 : decode (.colour .punchThroughCapable .fourColorAlways)
    [0x1F, 0x00, 0x00, 0xF8, 0xFF, 0xFF, 0xFF, 0xFF] =
    .ops [.bc1Expand .zero 0x001F, .bc1Expand .one 0xF800, .bc1Lut3, .bc1Idx2 0xFFFFFFFF, .bc1Lookup] := by decide
/-- The same block as a BC3 colour half under the two values of BC3_COLOR_MODE, 95 section 2.2. -/
theorem test_decode_colour_ao : decode (.colour .alwaysOpaque .fourColorAlways)
    [0x1F, 0x00, 0x00, 0xF8, 0xFF, 0xFF, 0xFF, 0xFF] =
    .ops [.bc1Expand .zero 0x001F, .bc1Expand .one 0xF800, .bc1Lut4, .bc1Idx2 0xFFFFFFFF, .bc1Lookup] := by decide
theorem test_decode_colour_order : decode (.colour .alwaysOpaque .orderSelected)
    [0x1F, 0x00, 0x00, 0xF8, 0xFF, 0xFF, 0xFF, 0xFF] =
    .ops [.bc1Expand .zero 0x001F, .bc1Expand .one 0xF800, .bc1Lut3, .bc1Idx2 0xFFFFFFFF, .bc1Lookup] := by decide
/-- Program P2, blocks (0,0) and (1,0). -/
theorem test_decode_alpha8 : decode .alpha [0xFF, 0x00, 0x88, 0xC6, 0xFA, 0xFF, 0xFF, 0xFF] =
    .ops [.bc3aLut8 255 0, .bc3aIdx3 0xFFFFFFFAC688, .bc3aLookup] := by decide
theorem test_decode_alpha6 : decode .alpha [0x00, 0xFF, 0xB7, 0x6D, 0xDB, 0xB2, 0x5D, 0xDB] =
    .ops [.bc3aLut6 0 255, .bc3aIdx3 0xDB5DB2DB6DB7, .bc3aLookup] := by decide
/-- CTRL words, 10_state.md R24: YCOCG alone, then NORMALIZE, then all three flags. -/
theorem test_decode_ctrl_y : decode (.ctrl 5) [0x02, 0, 0, 0] = .ops [.xfYcocg 5 false false false] := by decide
theorem test_decode_ctrl_n : decode (.ctrl 5) [0x05, 0, 0, 0] =
    .ops [.xfSwapRa 5 false false true, .xfNrmSqrt 5 false true] := by decide
theorem test_decode_ctrl_h : decode (.ctrl 5) [0x0E, 0, 0, 0] =
    .ops [.xfYcocg 5 true true false, .xfSwapRa 5 true true false, .xfNrmHemioct 5 true false] := by decide
theorem test_decode_ctrl_illegal : decode (.ctrl 5) [0x08, 0, 0, 0] = .rejected .illegalConfiguration := by decide
theorem test_decode_ctrl_rsvd : decode (.ctrl 5) [0x10, 0, 0, 0] = .rejected .illegalConfiguration := by decide

/-! ## Vectors of 95_test_vectors.md part 2 -/

/-- Section 2.1. -/
theorem test_expand_mid : expand 0x8410 = { r := 132, g := 130, b := 132 } := by decide
theorem test_expand_low : expand 0x7BEF = { r := 123, g := 125, b := 123 } := by decide
/-- The equations of ExpandReplicatesBits on rows of section 2.1. -/
theorem test_expand_equations : ([0xF800, 0x7BEF, 0x8410] : List (BitVec 16)).all (fun c =>
    (expand c).r.toNat == ((c.toNat / 2048) <<< 3) ||| ((c.toNat / 2048) >>> 2) &&
    (expand c).g.toNat == ((c.toNat / 32 % 64) <<< 2) ||| ((c.toNat / 32 % 64) >>> 4) &&
    (expand c).b.toNat == ((c.toNat % 32) <<< 3) ||| ((c.toNat % 32) >>> 2)) = true := by decide
/-- Section 2.2, row 1: thirds truncate. -/
theorem test_lut4 : (lut4 (expand 0xF800) (expand 0x001F))[2] = { r := 170, g := 0, b := 85, a := 255 } ∧
    (lut4 (expand 0xF800) (expand 0x001F))[3] = { r := 85, g := 0, b := 170, a := 255 } := by decide
/-- Section 2.2, rows 2 and 9: halves truncate, entry 3 is transparent black. -/
theorem test_lut3 : (lut3 (expand 0x001F) (expand 0xF800))[2] = { r := 127, g := 0, b := 127, a := 255 } ∧
    (lut3 (expand 0x0000) (expand 0x8410))[2] = { r := 66, g := 65, b := 66, a := 255 } ∧
    (lut3 (expand 0x0000) (expand 0x8410))[3] = { r := 0, g := 0, b := 0, a := 0 } := by decide
/-- Section 2.3, E4 1B 00 55. -/
theorem test_idx2 : unpackIdx2 0x55001BE4 = #v[0, 1, 2, 3, 3, 2, 1, 0, 0, 0, 0, 0, 1, 1, 1, 1] := by decide
/-- Section 2.5. -/
theorem test_lut8 : lut8 255 0 = #v[255, 0, 219, 182, 146, 109, 73, 36] ∧
    lut8 1 0 = #v[1, 0, 1, 1, 1, 0, 0, 0] := by decide
theorem test_lut6 : lut6 0 255 = #v[0, 255, 51, 102, 153, 204, 0, 255] ∧
    lut6 254 255 = #v[254, 255, 254, 254, 255, 255, 0, 255] := by decide
/-- Section 2.6, B7 6D DB B2 5D DB. -/
theorem test_idx3 : unpackIdx3 0xDB5DB2DB6DB7 = #v[7, 6, 6, 6, 6, 6, 6, 6, 2, 6, 6, 6, 5, 6, 6, 6] := by decide
/-- 42_color_transform.md R166 and section 2.8. -/
theorem test_sqrt : (nrmD 200 86, nrmB 200 86) = (37111, 224) ∧ (nrmD 1 128, nrmB 1 128) = (1015, 143) ∧
    (nrmD 129 130, nrmB 129 130) = (64991, 255) ∧ (nrmD 255 255, nrmB 255 255) = (0, 128) := by decide
/-- V-X3: decoded, swapped, reconstructed. -/
theorem test_normal : nrmSqrt (swapRa { r := 88, g := 86, b := 88, a := 200 }) = { r := 200, g := 86, b := 224, a := 88 } := by
  decide

/-! ## Small states -/

/-- A one-pixel command of the given format and flags. -/
def tinyLatch (fmt : Format) (n : Bool) : Latch :=
  { fmt := fmt, ycocg := false, normalize := n, hemioct := false, w := 1, h := 1, stride := 4, srcLen := 16, dstLen := 4 }

/-- A running one-pixel command with its source bytes placed. -/
def tinyState (fmt : Format) (n : Bool) (bytes : List Byte) : State :=
  { State.reset with status := .busy, latch := some (tinyLatch fmt n), src := Memory.writeBytes [] 0 bytes }

/-- Inside a block step of a one-pixel command: every datapath register has a value and DST holds the pixel. -/
def innerState (fmt : Format) : State :=
  { State.reset with
    status := .busy
    latch := some (tinyLatch fmt true)
    dst := [(0, 88), (1, 86), (2, 88), (3, 200)]
    dp := { c0 := some 0xF800, c1 := some 0x001F, e0Rgb := some (expand 0xF800), e1Rgb := some (expand 0x001F)
            table := some (lut4 (expand 0xF800) (expand 0x001F)), four := some true, idx2 := some (unpackIdx2 2)
            e0 := some 255, e1 := some 0, value := some (lut8 255 0), idx3 := some (unpackIdx3 2)
            origin := some { x := 0, y := 0 } } }

/-- The host registers of a legal 4 x 4 BC1 command (V-E1). -/
def readyHost : State :=
  { State.reset with width := 4, height := 4, stride := 16, srcLen := 8, dstLen := 64 }

/-- DST after a step, none if the step stops. -/
def dstAfter (r : Result) : Option Memory :=
  match r with
  | .next t => some t.dst
  | .fault _ => none
  | .refused _ => none

/-- STATUS after a step, none if the step stops. -/
def statusAfter (r : Result) : Option Status :=
  match r with
  | .next t => some t.status
  | .fault _ => none
  | .refused _ => none

/-! ## One step of each operation -/

/-- V-L1's lane 2, clipped to one pixel: R, G, B, A in BC1, and R, G, B alone in BC3 (V-L4). -/
theorem test_lookup_bc1 : dstAfter (exec .bc1Lookup (innerState .bc1)) =
    some [(0, 0xAA), (1, 0x00), (2, 0x55), (3, 0xFF)] := by decide
theorem test_lookup_bc3 : dstAfter (exec .bc1Lookup (innerState .bc3)) =
    some [(0, 0xAA), (1, 0x00), (2, 0x55), (3, 200)] := by decide
/-- 41 R148's example. -/
theorem test_lookup_alpha : dstAfter (exec .bc3aLookup (innerState .bc3)) =
    some [(0, 88), (1, 86), (2, 88), (3, 0xDB)] := by decide
/-- V-X3 in two operations. -/
theorem test_swap : dstAfter (exec (.xfSwapRa 0 false false true) (innerState .bc3)) =
    some [(0, 200), (1, 86), (2, 88), (3, 88)] := by decide
theorem test_sqrt_step : dstAfter (exec (.xfNrmSqrt 0 false true)
    { innerState .bc3 with dst := [(0, 200), (1, 86), (2, 88), (3, 88)] }) =
    some [(0, 200), (1, 86), (2, 224), (3, 88)] := by decide
/-- An overhang pixel is skipped, 40 R116. -/
theorem test_overhang : exec (.xfYcocg 1 false true true) (innerState .bc3) = .next (innerState .bc3) := by rfl
/-- A lookup outside a block step faults, 10 R38. -/
theorem test_lookup_outside : exec .bc1Lookup (tinyState .bc1 false []) = .fault (.datapathNoValue .table) := by rfl
/-- V-H5: START right after reset raises InvalidConfiguration. -/
theorem test_start_after_reset : statusAfter (exec .decodeBc1 State.reset) = some (.error .invalidConfiguration) := by decide
/-- V-E1, V-E10, V-E12, V-E4. -/
theorem test_start_ok : statusAfter (exec .decodeBc1 readyHost) = some .busy := by decide
theorem test_start_short : statusAfter (exec .decodeBc3 { readyHost with srcLen := 15 }) = some (.error .inputTooShort) := by
  decide
theorem test_start_small : statusAfter (exec .decodeBc1 { readyHost with dstLen := 63 }) =
    some (.error .destinationTooSmall) := by decide
theorem test_start_hemioct : statusAfter (exec .decodeBc1 { readyHost with ctrl := 8 }) =
    some (.error .invalidConfiguration) := by decide
/-- The STATUS words of V-E1, V-E2, V-E9, V-E12 and of program P6. -/
theorem test_status_words : statusWord .busy = 0x01 ∧ statusWord .done = 0x02 ∧
    statusWord (.error .invalidConfiguration) = 0x13 ∧ statusWord (.error .inputTooShort) = 0x23 ∧
    statusWord (.error .destinationTooSmall) = 0x33 ∧ statusWord (.error .cancelled) = 0x43 := by decide
/-- V-H4 and program P6, outcome 1. -/
theorem test_abort_idle : exec .abort State.reset = .next State.reset := by rfl
theorem test_cancel : statusAfter (exec .blockStep { tinyState .bc1 false [] with abortReq := true }) =
    some (.error .cancelled) := by decide
/-- V-L2: one pixel of program P1's block, then DONE. -/
theorem test_blockstep : dstAfter (step (tinyState .bc1 false [0x00, 0xF8, 0x1F, 0x00, 0xE4, 0x1B, 0x00, 0x55])) =
    some [(0, 0xFF), (1, 0x00), (2, 0x00), (3, 0xFF)] ∧
    statusAfter (step (tinyState .bc1 false [0x00, 0xF8, 0x1F, 0x00, 0xE4, 0x1B, 0x00, 0x55])) = some .done := by decide
/-- Program P3's pixel (0,0). -/
theorem test_blockstep_normal : dstAfter (step (tinyState .bc3 true
    [0xC8, 0x64, 0x06, 0x90, 0x03, 0, 0, 0, 0x10, 0x84, 0, 0, 0x08, 0x07, 0, 0])) =
    some [(0, 0x81), (1, 0x82), (2, 0xFF), (3, 0x84)] := by decide
/-- A byte that nothing has written is readable and has a free value, on both ports (20_memory.md R61; log entry 2). -/
theorem test_unwritten : srcRead (tinyLatch .bc1 false) (tinyState .bc1 false []) 8 8 =
      .ok ((List.range 8).map fun k => Config.unwritten .src (8 + k)) ∧
    dstRead (tinyLatch .bc1 false) (tinyState .bc1 false []) 3 = .ok (Config.unwritten .dst 3) ∧
    srcRead (tinyLatch .bc1 false) (tinyState .bc1 false []) 9 8 = .error .srcOutOfRange := ⟨rfl, rfl, rfl⟩
/-- The first step after reset with a placed word. -/
theorem test_fetch_start : statusAfter (step (State.reset.withFetchWord 32 1)) =
    some (.error .invalidConfiguration) := by decide
theorem test_fetch_sqrt : decodeTableWord 32 4 = some (.xfNrmSqrt 0 false false) ∧
    statusAfter (step (State.reset.withFetchWord 32 4)) = some .done := by decide

/-! ## Witnesses: states and operands that meet the hypotheses of the statements -/

/-- The invariant of a running one-pixel command, whatever DST holds. -/
theorem tiny_inv_dst (bytes : List Byte) (m : Memory) (hm : Memory.wf m = true) :
    Inv { tinyState .bc1 false bytes with dst := m } where
  srcWf := Memory.writeBytes_wf 0 bytes rfl
  dstWf := hm
  datapath := rfl
  running := fun _ => ⟨tinyLatch .bc1 false, rfl,
    { accepted := ⟨by decide, by decide, by decide, by decide, by decide, by decide⟩
      column := (by decide : 0 < (tinyLatch .bc1 false).bcx)
      row := (by decide : 0 < (tinyLatch .bc1 false).bcy)
      cursor := rfl
      aheadRange := by simp [tinyState, State.reset]
      aheadNodup := by simp [tinyState, State.reset]
      oneWorker := fun _ => rfl }⟩
  abortBusy := by simp [tinyState]
  aheadBusy := fun _ => rfl

theorem tiny_inv (bytes : List Byte) : Inv (tinyState .bc1 false bytes) := tiny_inv_dst bytes [] rfl

/-- Eight zero bytes. -/
def zeros8 : List Byte := [0, 0, 0, 0, 0, 0, 0, 0]

theorem witness_CommandDecodesTheImage : AtStart (tinyLatch .bc1 false) (tinyState .bc1 false zeros8) :=
  ⟨tiny_inv _, rfl, rfl, rfl, rfl, rfl, rfl, rfl⟩

/-- The host of 70_reset_and_hazards.md R243 steps 5 and 6 beside that command: it waits for STATE to leave BUSY, then reads. -/
def polledState (ts : List Agent) : State :=
  { tinyState .bc1 false zeros8 with prog := [.wait 0x1C 0 2 1, .rd 0x1C, .readDst 0], turns := ts }

theorem polled_inv (ts : List Agent) : Inv (polledState ts) :=
  let h := tiny_inv zeros8
  ⟨h.srcWf, h.dstWf, h.datapath,
    fun hb => by
      obtain ⟨L, hL, hr⟩ := h.running hb
      exact ⟨L, hL, hr.accepted, hr.column, hr.row, hr.cursor, hr.aheadRange, hr.aheadNodup, hr.oneWorker⟩,
    h.abortBusy, h.aheadBusy⟩
theorem polled_atStart (ts : List Agent) : AtStart (tinyLatch .bc1 false) (polledState ts) :=
  ⟨polled_inv ts, rfl, rfl, rfl, rfl, rfl, rfl, rfl⟩

/-- With a polling host: two polls, then the block step ends the command at step 3; one of the three steps is the engine's. -/
theorem witness_CommandDecodesTheImage_polled : AtStart (tinyLatch .bc1 false) (polledState [.host, .host, .engine]) ∧
    BusyFor 3 (polledState [.host, .host, .engine]) ∧ (∃ t, EndsAt 3 (polledState [.host, .host, .engine]) t) ∧
    engineMoves 3 (polledState [.host, .host, .engine]) = 1 := by
  have hb : BusyFor 3 (polledState [.host, .host, .engine]) := by
    intro j hj
    interval_cases j <;> exact ⟨_, rfl, rfl⟩
  exact ⟨polled_atStart _, hb, ⟨_, hb, rfl, by decide⟩, by decide⟩
/-- Two different states: another DST, and a polling host. -/
theorem witness_CommandsAreDeterministic :
    AtStart (tinyLatch .bc1 false) (tinyState .bc1 false zeros8) ∧
    AtStart (tinyLatch .bc1 false) { tinyState .bc1 false zeros8 with dst := [(7, 9)] } ∧
    AtStart (tinyLatch .bc1 false) (polledState []) ∧
    (tinyState .bc1 false zeros8).params.colorMode = (polledState []).params.colorMode ∧
    ∀ a, a < (tinyLatch .bc1 false).srcReq →
      Memory.byteAt .src (tinyState .bc1 false zeros8).src a = Memory.byteAt .src (polledState []).src a :=
  ⟨witness_CommandDecodesTheImage,
    ⟨tiny_inv_dst _ _ rfl, rfl, rfl, rfl, rfl, rfl, rfl, rfl⟩, polled_atStart _, rfl, fun _ _ => rfl⟩
theorem witness_AbortMayTakeEffectAtEveryBoundary :
    AtStart (tinyLatch .bc1 false) (tinyState .bc1 false zeros8) ∧ (tinyState .bc1 false zeros8).prog = [] ∧
    (tinyState .bc1 false zeros8).params.extraWorkers = 0 ∧ 0 < (tinyLatch .bc1 false).bcx * (tinyLatch .bc1 false).bcy :=
  ⟨witness_CommandDecodesTheImage, rfl, rfl, by decide⟩
/-- A running command whose host polls, and one whose host also aborts. -/
theorem witness_EveryCommandEnds : Inv (polledState []) ∧ (polledState []).status = .busy ∧
    (polledState []).abortReq = false ∧ dutiful false (polledState []).prog = true ∧
    dutiful true [.wr 0x18 2, .wait 0x1C 0 2 1, .readDst 0] = true :=
  ⟨polled_inv _, by decide, by decide, by decide, by decide⟩
theorem witness_EnabledBlockStepIsTaken : (polledState []).status = .busy ∧ dutiful true (polledState []).prog = true := by
  decide
/-- With the block placed, and with nothing placed. -/
theorem witness_BlockStepCompletes : Inv (tinyState .bc1 false zeros8) ∧ (tinyState .bc1 false zeros8).status = .busy ∧
    Inv (tinyState .bc1 false []) ∧ (tinyState .bc1 false []).status = .busy :=
  ⟨tiny_inv _, rfl, tiny_inv _, rfl⟩
/-- The last block of its row and of the grid: the position wraps and the command is DONE. -/
theorem witness_BlockStepDecodesItsBlock : StepReady (tinyLatch .bc1 false) zeros8 (tinyState .bc1 false zeros8) ∧
    (tinyState .bc1 false zeros8).bX + 1 = (tinyLatch .bc1 false).bcx :=
  ⟨⟨tiny_inv _, rfl, rfl, rfl, rfl, rfl⟩, by decide⟩
/-- A block that is not the last of its row. -/
def wideState : State :=
  { tinyState .bc1 false (zeros8 ++ zeros8) with
    latch := some { tinyLatch .bc1 false with w := 5, stride := 20, dstLen := 20 } }
theorem witness_BlockStepDecodesItsBlock_inner :
    StepReady { tinyLatch .bc1 false with w := 5, stride := 20, dstLen := 20 } zeros8 wideState ∧
    wideState.bX + 1 < ({ tinyLatch .bc1 false with w := 5, stride := 20, dstLen := 20 } : Latch).bcx := by
  refine ⟨⟨⟨by decide, rfl, rfl, fun _ => ⟨_, rfl, ?_⟩, by simp [wideState, tinyState], fun _ => rfl⟩,
    rfl, rfl, rfl, rfl, rfl⟩, by decide⟩
  exact { accepted := ⟨by decide, by decide, by decide, by decide, by decide, by decide⟩
          column := by decide
          row := by decide
          cursor := by decide
          aheadRange := by simp [wideState, tinyState, State.reset]
          aheadNodup := by simp [wideState, tinyState, State.reset]
          oneWorker := fun _ => rfl }
theorem witness_BlockStepRunsItsOperations : (tinyState .bc1 false zeros8).status = .busy ∧
    (tinyState .bc1 false zeros8).latch = some (tinyLatch .bc1 false) ∧
    (tinyState .bc1 false zeros8).bY < (tinyLatch .bc1 false).bcy ∧ (tinyState .bc1 false zeros8).abortReq = false ∧
    (tinyState .bc1 false zeros8).params.extraWorkers = 0 ∧
    (tinyState .bc1 false zeros8).cursor + (tinyLatch .bc1 false).bs ≤ (tinyLatch .bc1 false).srcLen.toNat ∧
    Memory.bytesAt .src (tinyState .bc1 false zeros8).src (tinyState .bc1 false zeros8).cursor (tinyLatch .bc1 false).bs =
      zeros8 := by decide
theorem witness_StepKeepsTheInvariant : Inv (tinyState .bc1 false zeros8) ∧
    statusAfter (step (tinyState .bc1 false zeros8)) = some .done := ⟨tiny_inv _, by decide⟩
/-- A host that reads an unaligned register while not BUSY. -/
theorem witness_NoAccessOutOfRange : Inv { State.reset with prog := [.rd 1] } ∧
    step { State.reset with prog := [.rd 1] } = .fault .hostUnalignedRegister :=
  ⟨⟨rfl, rfl, rfl, by simp [State.reset], by simp [State.reset], fun _ => rfl⟩, rfl⟩
theorem witness_DisabledBlockStepChangesNothing : State.reset.status ≠ .busy ∧
    (∃ L, { tinyState .bc1 false [] with bY := 1 }.latch = some L ∧ L.bcy ≤ { tinyState .bc1 false [] with bY := 1 }.bY) :=
  ⟨by decide, tinyLatch .bc1 false, rfl, by decide⟩
theorem witness_PixelBytesAreInRangeAndDisjoint : (tinyLatch .bc1 false).Accepted ∧ 0 < (tinyLatch .bc1 false).w.toNat ∧
    0 < (tinyLatch .bc1 false).h.toNat := ⟨⟨by decide, by decide, by decide, by decide, by decide, by decide⟩, by decide, by decide⟩
theorem witness_DecodeOfEncodeSelectsTheOperation : (Instr.bc3aLut8 1 0).wellFormed = true ∧
    (Instr.bc3aLut6 255 255).wellFormed = true ∧ (Instr.xfYcocg 15 true true false).wellFormed = true := by decide
theorem witness_DecodedOperationsAreWellFormed : decode .alpha zeros8 = .ops [.bc3aLut6 0 0, .bc3aIdx3 0, .bc3aLookup] ∧
    Instr.bc3aLut6 0 0 ∈ [Instr.bc3aLut6 0 0, .bc3aIdx3 0, .bc3aLookup] := by decide
theorem witness_BlockFormatsAreBijective : zeros8.length = 8 := by decide
/-- `c0 > c1` by one, `c0 = c1` in both opacity modes (40 R122). -/
theorem witness_ColourBlockSelectsTable : ([1, 0, 0, 0, 0, 0, 0, 0] : List Byte).length = 8 ∧
    (colourBlock [1, 0, 0, 0, 0, 0, 0, 0]).c0.toNat > (colourBlock [1, 0, 0, 0, 0, 0, 0, 0]).c1.toNat ∧
    ¬(colourBlock zeros8).c0.toNat > (colourBlock zeros8).c1.toNat := by decide
theorem witness_AlphaBlockSelectsTable : ([1, 0, 0, 0, 0, 0, 0, 0] : List Byte).length = 8 ∧
    (1 : Byte).toNat > (0 : Byte).toNat ∧ (0 : Byte).toNat ≤ (0 : Byte).toNat := by decide
theorem witness_ColourIndexPositions : zeros8.length = 8 := by decide
theorem witness_AlphaIndexPositions : zeros8.length = 8 := by decide
theorem witness_FourColourTable : (innerState .bc1).dp.e0Rgb = some (expand 0xF800) ∧
    (innerState .bc1).dp.e1Rgb = some (expand 0x001F) := by decide
theorem witness_ThreeColourTable : (innerState .bc1).dp.e0Rgb = some (expand 0xF800) ∧
    (innerState .bc1).dp.e1Rgb = some (expand 0x001F) := by decide
/-- Both formats, an in-bounds lane (0) and an overhang lane (1). -/
theorem witness_ColourLookupWritesPixels : ∀ fmt : Format, (innerState fmt).latch = some (tinyLatch fmt true) ∧
    (innerState fmt).dp.table = some (lut4 (expand 0xF800) (expand 0x001F)) ∧
    (innerState fmt).dp.idx2 = some (unpackIdx2 2) ∧ (innerState fmt).dp.origin = some { x := 0, y := 0 } ∧
    (tinyLatch fmt true).dstReq ≤ (tinyLatch fmt true).dstLen.toNat ∧
    4 * (tinyLatch fmt true).w.toNat ≤ (tinyLatch fmt true).stride.toNat ∧
    inBounds (tinyLatch fmt true) { x := 0, y := 0 } 0 = true ∧ inBounds (tinyLatch fmt true) { x := 0, y := 0 } 1 = false := by
  intro fmt; cases fmt <;> decide
theorem witness_LookupsStoreInBoundsPixelsOnly :
    (3, (0xDB : Byte)) ∈ colourStores .alwaysOpaque (tinyLatch .bc3 true) { x := 0, y := 0 }
      (lut4 (expand 0xF800) (expand 0x001F)) (unpackIdx2 2) ++
      alphaStores (tinyLatch .bc3 true) { x := 0, y := 0 } (lut8 255 0) (unpackIdx3 2) := by decide
theorem witness_AlphaLookupWritesAlpha : (innerState .bc3).latch = some (tinyLatch .bc3 true) ∧
    (innerState .bc3).dp.value = some (lut8 255 0) ∧ (innerState .bc3).dp.idx3 = some (unpackIdx3 2) ∧
    (innerState .bc3).dp.origin = some { x := 0, y := 0 } ∧
    (tinyLatch .bc3 true).dstReq ≤ (tinyLatch .bc3 true).dstLen.toNat ∧
    4 * (tinyLatch .bc3 true).w.toNat ≤ (tinyLatch .bc3 true).stride.toNat := by decide
theorem witness_EightStepAlphaTable : (1 : Byte).toNat > (0 : Byte).toNat := by decide
theorem witness_SixStepAlphaTable : (255 : Byte).toNat ≤ (255 : Byte).toNat := by decide
/-- One in-bounds pixel whose bytes DST holds: the hypotheses of the four transform statements. -/
theorem witness_SwapExchangesRedAndAlpha : (innerState .bc3).latch = some (tinyLatch .bc3 true) ∧
    (innerState .bc3).dp.origin = some { x := 0, y := 0 } ∧ inBounds (tinyLatch .bc3 true) { x := 0, y := 0 } 0 = true ∧
    pixelRead (tinyLatch .bc3 true) (innerState .bc3) (lanePix (tinyLatch .bc3 true) { x := 0, y := 0 } 0) =
      .ok { r := 88, g := 86, b := 88, a := 200 } := ⟨rfl, rfl, by decide, rfl⟩
/-- The same pixel with none of its bytes written. -/
theorem witness_SwapExchangesRedAndAlpha_unwritten :
    pixelRead (tinyLatch .bc3 true) { innerState .bc3 with dst := [] } (lanePix (tinyLatch .bc3 true) { x := 0, y := 0 } 0) =
      .ok { r := Config.unwritten .dst 0, g := Config.unwritten .dst 1, b := Config.unwritten .dst 2
            a := Config.unwritten .dst 3 } := rfl
theorem witness_YcocgAppliesTheParameter : (innerState .bc3).latch = some (tinyLatch .bc3 true) ∧
    (innerState .bc3).dp.origin = some { x := 0, y := 0 } ∧ inBounds (tinyLatch .bc3 true) { x := 0, y := 0 } 0 = true ∧
    pixelRead (tinyLatch .bc3 true) (innerState .bc3) (lanePix (tinyLatch .bc3 true) { x := 0, y := 0 } 0) =
      .ok { r := 88, g := 86, b := 88, a := 200 } := witness_SwapExchangesRedAndAlpha
theorem witness_HemioctAppliesTheParameter : (innerState .bc3).latch = some (tinyLatch .bc3 true) ∧
    (innerState .bc3).dp.origin = some { x := 0, y := 0 } ∧ inBounds (tinyLatch .bc3 true) { x := 0, y := 0 } 0 = true ∧
    pixelRead (tinyLatch .bc3 true) (innerState .bc3) (lanePix (tinyLatch .bc3 true) { x := 0, y := 0 } 0) =
      .ok { r := 88, g := 86, b := 88, a := 200 } := witness_SwapExchangesRedAndAlpha
/-- The square-root operands of that pixel, and of (255, 128), where the clamp at 0 applies. -/
theorem witness_SqrtReconstructsBlue :
    ((51895 : Nat) : Int) =
      max 0 (65025 - (2 * ((88 : Byte).toNat : Int) - 255) ^ 2 - (2 * ((86 : Byte).toNat : Int) - 255) ^ 2) ∧
    113 * 113 ≤ 51895 / 4 ∧ 51895 / 4 < (113 + 1) * (113 + 1) ∧
    ((0 : Nat) : Int) =
      max 0 (65025 - (2 * ((255 : Byte).toNat : Int) - 255) ^ 2 - (2 * ((128 : Byte).toNat : Int) - 255) ^ 2) ∧
    0 * 0 ≤ 0 / 4 ∧ 0 / 4 < (0 + 1) * (0 + 1) := by decide
theorem witness_TransformsSkipOverhang : (innerState .bc3).latch = some (tinyLatch .bc3 true) ∧
    (innerState .bc3).dp.origin = some { x := 0, y := 0 } ∧ inBounds (tinyLatch .bc3 true) { x := 0, y := 0 } 4 = false := by
  decide
theorem witness_ReadsWithoutValueFault : (tinyState .bc1 false []).dp = Datapath.empty ∧
    (tinyState .bc1 false []).latch = some (tinyLatch .bc1 false) := by decide

/-- One host state per clause, at the boundary of each check: reserved bit 4, one byte too short, one byte too small, legal
(V-E2, V-E9, V-E12, V-E1). -/
theorem witness_StartChecksThenBegins :
    (tinyState .bc1 false []).status = .busy ∧ readyHost.status ≠ .busy ∧
    ({ readyHost with ctrl := 16 } : State).ctrl.toNat / 16 ≠ 0 ∧
    7 < (readyHost.width.toNat + 3) / 4 * ((readyHost.height.toNat + 3) / 4) * 8 ∧
    63 < (readyHost.height.toNat - 1) * readyHost.stride.toNat + 4 * readyHost.width.toNat ∧
    readyHost.ctrl.toNat / 16 = 0 ∧ readyHost.width ≠ 0 ∧ readyHost.height ≠ 0 ∧
    4 * readyHost.width.toNat ≤ readyHost.stride.toNat ∧
    (readyHost.width.toNat + 3) / 4 * ((readyHost.height.toNat + 3) / 4) * 8 ≤ readyHost.srcLen.toNat ∧
    (readyHost.height.toNat - 1) * readyHost.stride.toNat + 4 * readyHost.width.toNat ≤ readyHost.dstLen.toNat := by decide
/-- V-E19. -/
theorem witness_WideImagesAreInvalid : readyHost.status ≠ .busy ∧
    0x40000000 ≤ ({ readyHost with width := 0x40000000, height := 1, stride := 0xFFFFFFFF } : State).width.toNat := by decide
/-- BUSY with a block left; DONE after the last block step (BY = BCY); IDLE after reset. -/
theorem witness_AbortCancelsTheNextBlockStep : (tinyState .bc1 false []).latch = some (tinyLatch .bc1 false) ∧
    (tinyState .bc1 false []).bY < (tinyLatch .bc1 false).bcy ∧ (tinyState .bc1 false []).status = .busy ∧
    (∃ t, step (tinyState .bc1 false zeros8) = .next t ∧ t.status = .done ∧ t.bY = (tinyLatch .bc1 false).bcy ∧
      exec .abort t = .next t) ∧
    State.reset.status ≠ .busy := by
  refine ⟨rfl, by decide, rfl, ⟨_, rfl, by decide, by decide, rfl⟩, by decide⟩
/-- START while IDLE, and ABORT while BUSY on the host's turn. -/
theorem witness_StepRunsTheDecodedCommand :
    decode (.command (ctrlFmt State.reset.ctrl)) [1, 0, 0, 0] = .ops [.decodeBc1] ∧
    ({ State.reset with prog := [.wr 0x18 1] } : State).prog = .wr 0x18 (BitVec.ofNat 32 (le [1, 0, 0, 0])) :: [] ∧
    State.reset.status ≠ .busy ∧
    decode (.command (ctrlFmt (tinyState .bc1 false []).ctrl)) [2, 0, 0, 0] = .ops [.abort] ∧
    ({ tinyState .bc1 false [] with prog := [.wr 0x18 2], turns := [.host] } : State).prog =
      .wr 0x18 (BitVec.ofNat 32 (le [2, 0, 0, 0])) :: [] ∧
    ({ tinyState .bc1 false [] with prog := [.wr 0x18 2], turns := [.host] } : State).turns = .host :: [] := by decide
theorem witness_StepRunsTheBlockStep : (tinyState .bc1 false []).status = .busy ∧ (tinyState .bc1 false []).prog = [] ∧
    ({ tinyState .bc1 false [] with prog := [.rd 0x1C], turns := [.engine] } : State).prog = .rd 0x1C :: [] ∧
    ({ tinyState .bc1 false [] with prog := [.rd 0x1C], turns := [.engine] } : State).turns = .engine :: [] := by decide
theorem witness_FreeTurnIsOneOfTheTwoMoves :
    ({ tinyState .bc1 false [] with prog := [.rd 0x1C] } : State).status = .busy ∧
    ({ tinyState .bc1 false [] with prog := [.rd 0x1C] } : State).prog = .rd 0x1C :: [] ∧
    ({ tinyState .bc1 false [] with prog := [.rd 0x1C] } : State).turns = [] := by decide
theorem witness_IdleMachineStays : State.reset.prog = [] ∧ State.reset.status ≠ .busy := by decide
theorem witness_CommandRegister : (3 : Word) ≠ 1 ∧ (3 : Word) ≠ 2 := by decide
/-- The first offset past the map; a state that is BUSY and one that is not. -/
theorem witness_RegisterMap : (tinyState .bc1 false []).status = .busy ∧ readyHost.status ≠ .busy ∧ 0x20 ≤ (0x20 : Nat) ∧ (0x20 : Nat) % 4 = 0 := by decide
/-- BUSY; a dropped write, a dropped START, a write past the map and a read, on the host's turn and on a free one. -/
theorem witness_BusyMachineDropsWrites : ∀ a ∈ ([.wr 0x04 8, .wr 0x18 1, .wr 0x20 7, .rd 0x1C] : List HostAction),
    ({ tinyState .bc1 false [] with prog := [a], turns := [.host] } : State).status = .busy ∧
    ({ tinyState .bc1 false [] with prog := [a], turns := [.host] } : State).turns = .host :: [] ∧
    ({ tinyState .bc1 false [] with prog := [a], turns := [.host] } : State).prog = a :: [] ∧
    ({ tinyState .bc1 false [] with prog := [a] } : State).turns = [] ∧
    ¬((0x04 : Nat) = 0x18 ∧ (8 : Word) = 2) ∧ ¬((0x18 : Nat) = 0x18 ∧ (1 : Word) = 2) ∧ (0x20 : Nat) % 4 = 0 := by decide
/-- A written byte, and one that nothing has written. -/
theorem witness_HostReadsDstBytes : (innerState .bc1).status = .busy ∧
    ({ innerState .bc1 with status := .done } : State).status ≠ .busy ∧
    Memory.read (innerState .bc1).dst 3 = some 200 ∧ Memory.read (innerState .bc1).dst 4 = none := by decide
theorem witness_HostDuties : (tinyState .bc1 false []).status = .busy ∧ (1 : Nat) % 4 ≠ 0 ∧ State.reset.status ≠ .busy ∧
    0 < ([1] : List Byte).length := by decide
/-- A reset while BUSY and one while IDLE; byte 0 is a byte of the image, byte 4 is none. -/
theorem witness_ResetAbandonsTheCommand : (tinyState .bc1 false []).status = .busy ∧
    (tinyState .bc1 false []).latch = some (tinyLatch .bc1 false) ∧ State.reset.status ≠ .busy ∧
    imageByte (tinyLatch .bc1 false) 0 ∧ ¬imageByte (tinyLatch .bc1 false) 4 := by
  refine ⟨rfl, rfl, by decide, ⟨0, 0, by decide, by decide, 0, rfl⟩, ?_⟩
  rintro ⟨x, y, hx, hy, k, hk⟩
  have hx0 : x < 1 := hx
  have hy0 : y < 1 := hy
  obtain rfl : x = 0 := by omega
  obtain rfl : y = 0 := by omega
  have : k.val < 4 := k.isLt
  simp [Latch.pix] at hk
  omega
theorem witness_OperationsNeverWriteHostState : exec .abort State.reset = .next State.reset := by rfl

end Sys2Proof.Machine.Tests
end

/-! # The state: host registers, the moves on them, and the machine's invariant (spec/10_state.md) -/

/-! ## The commands and the moves, one equation per case -/

namespace Sys2Proof.Machine

open Sys2Proof Sys2Proof.Machine.Claims

/-! ### The commands -/

/-- The two START commands are the START action of their format (43_orchestrator.md R181, R182). -/
theorem exec_startOf (fmt : Format) (s : State) : exec (startOf fmt) s = .next (start fmt s) := by
  cases fmt <;> rfl

/-- START is dropped while BUSY (43_orchestrator.md R180). -/
theorem start_of_busy {s : State} (hb : s.status = .busy) (fmt : Format) : start fmt s = s :=
  if_pos hb

/-- A START whose checks fail latches, clears ABORT_REQ and raises the first error. -/
theorem start_of_error {fmt : Format} {s : State} {e : ErrCode} (hb : s.status ≠ .busy)
    (he : startError s.ctrl (latchOf fmt s) = some e) :
    start fmt s = raise e { s with latch := some (latchOf fmt s), abortReq := false } := by
  simp [start, hb, he]

/-- A START whose checks pass begins the command at the first block. -/
theorem start_of_accepted {fmt : Format} {s : State} (hb : s.status ≠ .busy)
    (he : startError s.ctrl (latchOf fmt s) = none) :
    start fmt s =
      { s with
        latch := some (latchOf fmt s), abortReq := false, bX := 0, bY := 0, cursor := 0, ahead := [], status := .busy } := by
  simp [start, hb, he]

/-- The checks of START pass only for a latched command that is accepted (60_exceptions.md R212 to R214). -/
theorem accepted_of_startError_eq_none {ctrl : Word} {L : Latch} (h : startError ctrl L = none) : L.Accepted := by
  unfold startError at h
  split at h
  · simp at h
  · rename_i hbad
    simp only [badConfig, Bool.not_eq_true, Bool.or_eq_false_iff, decide_eq_false_iff_not] at hbad
    obtain ⟨⟨⟨⟨-, hhemi⟩, hw⟩, hh⟩, hstride⟩ := hbad
    split at h
    · simp at h
    · split at h
      · simp at h
      · exact
          { hemioct := by simpa using hhemi
            width := Nat.pos_of_ne_zero fun h0 => by simp [BitVec.eq_of_toNat_eq (y := 0#32) h0] at hw
            height := Nat.pos_of_ne_zero fun h0 => by simp [BitVec.eq_of_toNat_eq (y := 0#32) h0] at hh
            stride := by omega
            src := by omega
            dst := by omega }

/-- A stride is a 32-bit word, so no stride holds a row of 2^30 pixels (10_state.md R25, R27). -/
theorem badConfig_of_wide {ctrl : Word} {L : Latch} (hw : 0x40000000 ≤ L.w.toNat) : badConfig ctrl L = true := by
  have hstride : L.stride.toNat < 4 * L.w.toNat := by have := L.stride.isLt; omega
  simp [badConfig, hstride]

/-! ### The host's accesses -/

/-- A write of CMD that is a command runs it (10_state.md R30). -/
theorem writeCmd_of_command {s : State} {v : Word} {x : Instr} (h : decodeCommand (ctrlFmt s.ctrl) v = some x) :
    writeCmd v s = exec x s := by
  simp [writeCmd, h]

/-- The value 1 is the START of a format. -/
theorem decodeCommand_one (fmt : Format) : decodeCommand fmt 1 = some (startOf fmt) := by
  cases fmt <;> rfl

/-- The value 2 is ABORT. -/
theorem decodeCommand_two (fmt : Format) : decodeCommand fmt 2 = some .abort := by
  cases fmt <;> rfl

/-- A value other than 1 and 2 is no command (30_encoding.md R80). -/
theorem decodeCommand_of_reserved (fmt : Format) {v : Word} (h1 : v ≠ 1) (h2 : v ≠ 2) : decodeCommand fmt v = none :=
  (if_neg h1).trans (if_neg h2)

/-- Bytes that decode as one command are, as a word, that command. -/
theorem decodeCommand_of_decode {fmt : Format} {bs : List Byte} {x : Instr}
    (h : decode (.command fmt) bs = .ops [x]) : decodeCommand fmt (BitVec.ofNat 32 (le bs)) = some x := by
  unfold decode at h
  split at h
  · simp only at h
    split at h
    · rename_i y hy
      simpa [hy] using h
    · simp at h
  · simp at h

/-- A write of any other value to CMD does nothing. -/
theorem writeCmd_of_reserved {v : Word} (h1 : v ≠ 1) (h2 : v ≠ 2) (s : State) : writeCmd v s = .next s := by
  simp [writeCmd, decodeCommand_of_reserved _ h1 h2]

/-- A host read of a register changes the read data only. -/
theorem hostMove_rd {off : Nat} (ha : off % 4 = 0) (s : State) :
    hostMove (.rd off) s = .next { s with rdata := regRead s off } :=
  if_pos ha

/-- A host write of CMD is the command's affair. -/
theorem hostMove_wr_cmd (v : Word) (s : State) : hostMove (.wr offCmd v) s = writeCmd v s := rfl

/-- A host write at any other word offset is a register write. -/
theorem hostMove_wr_reg {off : Nat} (ha : off % 4 = 0) (hc : off ≠ offCmd) (v : Word) (s : State) :
    hostMove (.wr off v) s = .next (regWrite s off v) := by
  simp [hostMove, hostWrite, ha, hc]

/-- Register writes are dropped while BUSY (10_state.md R32). -/
theorem regWrite_of_busy {s : State} (hb : s.status = .busy) (off : Nat) (v : Word) : regWrite s off v = s :=
  if_pos hb

/-- From CMD on no offset is a configuration register (10_state.md R23). -/
theorem ne_configOffsets {off : Nat} (h : offCmd ≤ off) :
    off ≠ offCtrl ∧ off ≠ offWidth ∧ off ≠ offHeight ∧ off ≠ offStride ∧ off ≠ offSrcLen ∧ off ≠ offDstLen := by
  unfold offCmd at h
  simp only [offCtrl, offWidth, offHeight, offStride, offSrcLen, offDstLen]
  omega

/-- STATUS and the offsets past the register map hold no storage (10_state.md R23, R31). -/
theorem regWrite_of_no_storage {off : Nat} (h : offCmd ≤ off) (s : State) (v : Word) : regWrite s off v = s := by
  obtain ⟨hctrl, hwidth, hheight, hstride, hsrcLen, hdstLen⟩ := ne_configOffsets h
  simp [regWrite, hctrl, hwidth, hheight, hstride, hsrcLen, hdstLen]

/-- A read past the register map returns 0 (10_state.md R23). -/
theorem regRead_past_map {off : Nat} (h : offStatus < off) (s : State) : regRead s off = 0 := by
  obtain ⟨hctrl, hwidth, hheight, hstride, hsrcLen, hdstLen⟩ := ne_configOffsets (le_trans (by decide) h.le)
  simp [regRead, hctrl, hwidth, hheight, hstride, hsrcLen, hdstLen, h.ne']

/-- While BUSY every host write of a word offset but ABORT is dropped, START among them (10_state.md R30, R32). -/
theorem hostMove_wr_of_busy {s : State} {off : Nat} {v : Word} (hb : s.status = .busy) (ha : off % 4 = 0)
    (hv : ¬(off = offCmd ∧ v = 2)) : hostMove (.wr off v) s = .next s := by
  by_cases hc : off = offCmd
  · subst hc
    rw [hostMove_wr_cmd]
    by_cases h1 : v = 1
    · subst h1
      rw [writeCmd_of_command (decodeCommand_one _), exec_startOf, start_of_busy hb]
    · exact writeCmd_of_reserved h1 (fun h2 => hv ⟨rfl, h2⟩) s
  · rw [hostMove_wr_reg ha hc, regWrite_of_busy hb]

/-! ### STATUS as a word -/

theorem stateCode_le (st : Status) : stateCode st ≤ 3 := by cases st <;> simp [stateCode]

theorem errField_le (st : Status) : errField st ≤ 4 := by
  cases st with
  | error c => cases c <;> decide
  | _ => decide

/-- ERR is 0 exactly when STATE is not ERROR (10_state.md R31). -/
theorem errField_eq_zero_iff (st : Status) : errField st = 0 ↔ stateCode st ≠ 3 := by
  cases st with
  | error c => cases c <;> decide
  | _ => decide

/-- The number of the STATUS word: no field overflows into another. -/
theorem statusWord_toNat (st : Status) : (statusWord st).toNat = stateCode st + 16 * errField st := by
  have := stateCode_le st
  have := errField_le st
  rw [statusWord, BitVec.toNat_ofNat, Nat.mod_eq_of_lt (by omega)]

/-! ### Whose move a step is -/

/-- The schedule's next turn is taken off it. -/
theorem takeTurn_cons {s : State} {g : Agent} {ts : List Agent} (ht : s.turns = g :: ts) :
    takeTurn s = (g, { s with turns := ts }) := by
  simp [takeTurn, ht]

/-- Where the schedule is exhausted a free turn is the engine's, or the host's with finitely many more before the engine's. -/
theorem takeTurn_nil {s : State} (ht : s.turns = []) :
    takeTurn s = (.engine, { s with turns := [], draws := s.draws + 1 }) ∨
      ∃ k, takeTurn s = (.host, { s with turns := List.replicate k .host ++ [.engine], draws := s.draws + 1 }) := by
  have he : takeTurn s =
      ((freeTurns s.draws).1, { s with turns := (freeTurns s.draws).2, draws := s.draws + 1 }) := by
    simp [takeTurn, ht]
  rcases freeTurns_cases s.draws with hf | ⟨k, hf⟩
  · exact .inl (by rw [he, hf])
  · exact .inr ⟨k, by rw [he, hf]⟩

/-- While not BUSY the step is the host's next action. -/
theorem step_of_not_busy {s : State} {a : HostAction} {rest : List HostAction} (hb : s.status ≠ .busy)
    (hp : s.prog = a :: rest) : step s = hostMove a { s with prog := rest } := by
  simp [step, move, hb, hp]

/-- While BUSY with nothing pending the step is the engine's. -/
theorem step_of_no_action {s : State} (hb : s.status = .busy) (hp : s.prog = []) : step s = exec .blockStep s := by
  simp [step, move, hb, hp]

/-- While BUSY, on the host's turn, the step is the host's next action. -/
theorem step_of_host_turn {s t : State} {a : HostAction} {rest : List HostAction} (hb : s.status = .busy)
    (hp : s.prog = a :: rest) (ht : takeTurn s = (.host, t)) : step s = hostMove a { t with prog := rest } := by
  simp [step, move, hb, hp, ht]

/-- While BUSY, on the engine's turn, the step is BLOCK.STEP. -/
theorem step_of_engine_turn {s t : State} {a : HostAction} {rest : List HostAction} (hb : s.status = .busy)
    (hp : s.prog = a :: rest) (ht : takeTurn s = (.engine, t)) : step s = exec .blockStep t := by
  simp [step, move, hb, hp, ht]

end Sys2Proof.Machine

/-! ## The sequencer's arithmetic (43_orchestrator.md R183, R186) -/

namespace Sys2Proof.Machine

open Sys2Proof

theorem Latch.Accepted.bcx_pos {L : Latch} (h : L.Accepted) : 0 < L.bcx := by
  have := h.width
  simp only [Latch.bcx, ceil4]; omega

theorem Latch.Accepted.bcy_pos {L : Latch} (h : L.Accepted) : 0 < L.bcy := by
  have := h.height
  simp only [Latch.bcy, ceil4]; omega

/-- A single advance moves the position to the next block in row-major order. -/
theorem blockNumber_advanceOne {L : Latch} {s : State} : blockNumber L (advanceOne L s) = blockNumber L s + 1 := by
  unfold blockNumber advanceOne
  split
  · rename_i hlast
    rw [Nat.succ_mul]; simp only; omega
  · simp only; omega

/-- A single advance keeps the column inside the grid. -/
theorem advanceOne_bX_lt {L : Latch} {s : State} (h : s.bX < L.bcx) : (advanceOne L s).bX < L.bcx := by
  unfold advanceOne
  split <;> simp only <;> omega

theorem advanceOne_bY_le (L : Latch) (s : State) : (advanceOne L s).bY ≤ s.bY + 1 := by
  unfold advanceOne
  split <;> simp

/-- With the column inside the grid, the position is a block of the grid exactly when its row is one. -/
theorem blockNumber_lt_iff {L : Latch} {s : State} (h : s.bX < L.bcx) :
    blockNumber L s < L.bcx * L.bcy ↔ s.bY < L.bcy := by
  unfold blockNumber
  rw [Nat.mul_comm L.bcx]
  constructor
  · intro hlt
    exact Nat.lt_of_mul_lt_mul_right (Nat.lt_of_le_of_lt (Nat.le_add_right _ _) hlt)
  · intro hy
    calc s.bY * L.bcx + s.bX < (s.bY + 1) * L.bcx := by rw [Nat.succ_mul]; omega
      _ ≤ L.bcy * L.bcx := Nat.mul_le_mul_right _ hy

/-- The sequencer in the middle of an advance: as `Running`, but the position may itself be a block done ahead, and no block row
may be left. -/
structure Advancing (L : Latch) (s : State) : Prop where
  accepted : L.Accepted
  column : s.bX < L.bcx
  row : s.bY ≤ L.bcy
  cursor : s.cursor = L.bs * blockNumber L s
  aheadRange : ∀ n ∈ s.ahead, blockNumber L s ≤ n ∧ n < L.bcx * L.bcy
  aheadNodup : s.ahead.Nodup
  oneWorker : s.params.extraWorkers = 0 → s.ahead = []

/-- `Running` speaks of the position, CURSOR, the blocks done ahead and the number of workers only. -/
theorem Running.congr {L : Latch} {s t : State} (h : Running L s) (hX : t.bX = s.bX) (hY : t.bY = s.bY)
    (hc : t.cursor = s.cursor) (ha : t.ahead = s.ahead) (hp : t.params = s.params) : Running L t := by
  have hn : blockNumber L t = blockNumber L s := by simp only [blockNumber, hX, hY]
  exact
    { accepted := h.accepted
      column := hX ▸ h.column
      row := hY ▸ h.row
      cursor := by rw [hc, hn, h.cursor]
      aheadRange := by rw [ha, hn]; exact h.aheadRange
      aheadNodup := ha ▸ h.aheadNodup
      oneWorker := by rw [ha, hp]; exact h.oneWorker }

/-- One advance from a running position leaves the sequencer advancing. -/
theorem Running.advanceOne {L : Latch} {s : State} (h : Running L s) : Advancing L (advanceOne L s) where
  accepted := h.accepted
  column := advanceOne_bX_lt h.column
  row := le_trans (advanceOne_bY_le L s) h.row
  cursor := by rw [advanceOne_cursor, blockNumber_advanceOne, h.cursor, Nat.mul_succ]
  aheadRange := by
    intro n hn
    rw [advanceOne_ahead] at hn
    obtain ⟨hlt, htotal⟩ := h.aheadRange n hn
    exact ⟨by rw [blockNumber_advanceOne]; exact hlt, htotal⟩
  aheadNodup := by rw [advanceOne_ahead]; exact h.aheadNodup
  oneWorker := by rw [advanceOne_ahead, advanceOne_params]; exact h.oneWorker

/-- An advancing sequencer with a row left and its position not done ahead is running. -/
theorem Advancing.running {L : Latch} {s : State} (h : Advancing L s) (hy : s.bY < L.bcy)
    (hpos : blockNumber L s ∉ s.ahead) : Running L s where
  accepted := h.accepted
  column := h.column
  row := hy
  cursor := h.cursor
  aheadRange := by
    intro n hn
    obtain ⟨hle, htotal⟩ := h.aheadRange n hn
    exact ⟨lt_of_le_of_ne hle fun heq => hpos (heq ▸ hn), htotal⟩
  aheadNodup := h.aheadNodup
  oneWorker := h.oneWorker

/-- No block is done ahead once no block row is left. -/
theorem Advancing.ahead_eq_nil {L : Latch} {s : State} (h : Advancing L s) (hy : s.bY = L.bcy) : s.ahead = [] := by
  refine List.eq_nil_iff_forall_not_mem.mpr fun n hn => ?_
  obtain ⟨hle, htotal⟩ := h.aheadRange n hn
  have := (blockNumber_lt_iff h.column).mp (lt_of_le_of_lt hle htotal)
  omega

/-- The state in which `catchUp` advances over a block done ahead: the block is taken off the list, and the position runs. -/
theorem Advancing.running_filter {L : Latch} {s : State} (h : Advancing L s) (hpos : blockNumber L s ∈ s.ahead) :
    Running L { s with ahead := s.ahead.filter (· != blockNumber L s) } where
  accepted := h.accepted
  column := h.column
  row := (blockNumber_lt_iff h.column).mp (h.aheadRange _ hpos).2
  cursor := h.cursor
  aheadRange := by
    intro n hn
    obtain ⟨hmem, hne⟩ := List.mem_filter.mp hn
    obtain ⟨hle, htotal⟩ := h.aheadRange n hmem
    exact ⟨lt_of_le_of_ne hle (Ne.symm (bne_iff_ne.mp hne)), htotal⟩
  aheadNodup := h.aheadNodup.filter _
  oneWorker := by
    intro hw
    simp [h.oneWorker hw]

/-- Given as many rounds as there are blocks done ahead, `catchUp` stops at a position that is not one of them. -/
theorem Advancing.catchUp {L : Latch} {k : Nat} {s : State} (h : Advancing L s) (hk : s.ahead.length ≤ k) :
    Advancing L (catchUp L k s) ∧ blockNumber L (catchUp L k s) ∉ (catchUp L k s).ahead := by
  induction k generalizing s with
  | zero =>
    have hnil : s.ahead = [] := List.eq_nil_of_length_eq_zero (Nat.le_zero.mp hk)
    exact ⟨h, by simp [Machine.catchUp, hnil]⟩
  | succ k ih =>
    unfold Machine.catchUp
    split
    · rename_i hpos
      have hshort : (s.ahead.filter (· != blockNumber L s)).length < s.ahead.length :=
        List.length_filter_lt_length_iff_exists.mpr ⟨_, hpos, by simp⟩
      refine ih (h.running_filter hpos).advanceOne ?_
      rw [advanceOne_ahead]
      exact Nat.le_of_lt_succ (lt_of_lt_of_le hshort hk)
    · rename_i hpos
      exact ⟨h, hpos⟩

/-! ## The block that a block step decodes (43_orchestrator.md R183) -/

/-- Block `n` is one that a block step may decode: a block of the grid not yet decoded, with WORKERS = 1 the block at the position. -/
structure Undecoded (L : Latch) (s : State) (n : Nat) : Prop where
  lower : blockNumber L s ≤ n
  upper : n < L.bcx * L.bcy
  fresh : n ∉ s.ahead
  oneWorker : s.params.extraWorkers = 0 → n = blockNumber L s

/-- The block at the position of a running command is not yet decoded. -/
theorem Running.undecoded_position {L : Latch} {s : State} (h : Running L s) : Undecoded L s (blockNumber L s) where
  lower := le_rfl
  upper := (blockNumber_lt_iff h.column).mpr h.row
  fresh := fun hmem => lt_irrefl _ (h.aheadRange _ hmem).1
  oneWorker := fun _ => rfl

/-- The block that a running command's next block step picks is not yet decoded. -/
theorem Running.undecoded_pickBlock {L : Latch} {s : State} (h : Running L s) : Undecoded L s (pickBlock L s).1 := by
  have hpos := h.undecoded_position
  unfold pickBlock
  simp only
  split
  · exact hpos
  · rename_i hw
    simp only
    split
    · exact hpos
    · rename_i hfresh
      have hlt := hpos.upper
      have := Nat.mod_lt (Config.freeBlock s.draws) (Nat.sub_pos_of_lt hlt)
      exact ⟨Nat.le_add_right _ _, by omega, hfresh, fun h0 => absurd h0 hw⟩

/-- A block decoded ahead of the position joins the blocks done ahead. -/
theorem Running.append_ahead {L : Latch} {s : State} {n : Nat} (h : Running L s) (hn : Undecoded L s n)
    (hne : n ≠ blockNumber L s) : Running L { s with ahead := s.ahead ++ [n] } where
  accepted := h.accepted
  column := h.column
  row := h.row
  cursor := h.cursor
  aheadRange := by
    intro m hm
    rcases List.mem_append.mp hm with hm | hm
    · exact h.aheadRange m hm
    · obtain rfl := List.mem_singleton.mp hm
      exact ⟨lt_of_le_of_ne hn.lower (Ne.symm hne), hn.upper⟩
  aheadNodup := List.nodup_append.mpr
    ⟨h.aheadNodup, List.nodup_singleton n, fun a ha b hb heq => hn.fresh (by
      obtain rfl := List.mem_singleton.mp hb
      exact heq ▸ ha)⟩
  oneWorker := fun hw => absurd (hn.oneWorker hw) hne

end Sys2Proof.Machine

/-! ## The machine's invariant (10_state.md R34, R38, 43_orchestrator.md R186, R190) -/

namespace Sys2Proof.Machine

open Sys2Proof

/-- The invariant speaks of the engine's side only: the host's registers, its pending actions, its read data, the schedule and the
count of draws are free. -/
theorem Inv.of_engine_side_eq {s t : State} (h : Inv s)
    (ht : t = { s with
      ctrl := t.ctrl, width := t.width, height := t.height, stride := t.stride, srcLen := t.srcLen, dstLen := t.dstLen
      prog := t.prog, turns := t.turns, draws := t.draws, rdata := t.rdata }) : Inv t := by
  rw [ht]
  exact
    { srcWf := h.srcWf
      dstWf := h.dstWf
      datapath := h.datapath
      running := fun hb =>
        let ⟨L, hL, hr⟩ := h.running hb
        ⟨L, hL, hr.congr rfl rfl rfl rfl rfl⟩
      abortBusy := h.abortBusy
      aheadBusy := h.aheadBusy }

/-- In the invariant the sequencer runs on the latched command while BUSY. -/
theorem Inv.running_of_latch {L : Latch} {s : State} (h : Inv s) (hb : s.status = .busy) (hL : s.latch = some L) :
    Running L s := by
  obtain ⟨L', hL', hr⟩ := h.running hb
  obtain rfl : L = L' := Option.some.inj (hL.symm.trans hL')
  exact hr

/-- A state that is not BUSY has no sequencer to speak of. -/
theorem Inv.of_not_busy {s : State} (hsrc : Memory.wf s.src = true) (hdst : Memory.wf s.dst = true)
    (hdp : s.dp = Datapath.empty) (hb : s.status ≠ .busy) (habort : s.abortReq = false) (hahead : s.ahead = []) :
    Inv s where
  srcWf := hsrc
  dstWf := hdst
  datapath := hdp
  running := fun h => absurd h hb
  abortBusy := fun h => absurd h (by simp [habort])
  aheadBusy := fun _ => hahead

theorem reset_inv : Inv State.reset :=
  .of_not_busy rfl rfl rfl (by decide) rfl rfl

/-! ### The host's moves keep it -/

/-- START keeps the invariant: what it latches without an error is an accepted command at block 0. -/
theorem start_keeps_inv {fmt : Format} {s : State} (h : Inv s) : Inv (start fmt s) := by
  by_cases hb : s.status = .busy
  · rw [start_of_busy hb]; exact h
  · cases he : startError s.ctrl (latchOf fmt s) with
    | some e =>
      rw [start_of_error hb he]
      exact .of_not_busy h.srcWf h.dstWf h.datapath (by simp) rfl (h.aheadBusy hb)
    | none =>
      have hacc := accepted_of_startError_eq_none he
      rw [start_of_accepted hb he]
      exact
        { srcWf := h.srcWf
          dstWf := h.dstWf
          datapath := h.datapath
          running := fun _ => ⟨latchOf fmt s, rfl,
            { accepted := hacc
              column := hacc.bcx_pos
              row := hacc.bcy_pos
              cursor := by simp [blockNumber]
              aheadRange := by simp
              aheadNodup := List.nodup_nil
              oneWorker := fun _ => rfl }⟩
          abortBusy := by simp
          aheadBusy := fun _ => rfl }

/-- ABORT keeps the invariant: it sets ABORT_REQ only while BUSY. -/
theorem execAbort_keeps_inv {s t : State} (h : Inv s) (ht : execAbort s = .next t) : Inv t := by
  cases ht
  split
  · rename_i hb
    exact
      { srcWf := h.srcWf
        dstWf := h.dstWf
        datapath := h.datapath
        running := fun _ =>
          let ⟨L, hL, hr⟩ := h.running hb
          ⟨L, hL, hr.congr rfl rfl rfl rfl rfl⟩
        abortBusy := fun _ => hb
        aheadBusy := fun hn => absurd hb hn }
  · exact h

/-- A command is one of the two STARTs or ABORT. -/
theorem decodeCommand_cases {fmt : Format} {v : Word} {x : Instr} (h : decodeCommand fmt v = some x) :
    x = Claims.startOf fmt ∨ x = .abort := by
  by_cases h1 : v = 1
  · rw [h1, decodeCommand_one] at h
    exact .inl (Option.some.inj h).symm
  · by_cases h2 : v = 2
    · rw [h2, decodeCommand_two] at h
      exact .inr (Option.some.inj h).symm
    · rw [decodeCommand_of_reserved fmt h1 h2] at h
      cases h

theorem writeCmd_keeps_inv {v : Word} {s t : State} (h : Inv s) (ht : writeCmd v s = .next t) : Inv t := by
  cases hx : decodeCommand (ctrlFmt s.ctrl) v with
  | none =>
    simp only [writeCmd, hx] at ht
    cases ht
    exact h
  | some x =>
    rw [writeCmd_of_command hx] at ht
    rcases decodeCommand_cases hx with rfl | rfl
    · rw [exec_startOf] at ht
      cases ht
      exact start_keeps_inv h
    · exact execAbort_keeps_inv h ht

/-- A register write changes the host's registers only. -/
theorem regWrite_keeps_inv {s : State} (h : Inv s) (off : Nat) (v : Word) : Inv (regWrite s off v) := by
  refine h.of_engine_side_eq ?_
  unfold regWrite
  repeat' split
  all_goals rfl

theorem hostWrite_keeps_inv {off : Nat} {v : Word} {s t : State} (h : Inv s) (ht : hostWrite off v s = .next t) :
    Inv t := by
  unfold hostWrite at ht
  split at ht
  · split at ht
    · exact writeCmd_keeps_inv h ht
    · cases ht
      exact regWrite_keeps_inv h off v
  · cases ht

theorem hostRead_keeps_inv {off : Nat} {s t : State} (h : Inv s) (ht : hostRead off s = .next t) : Inv t := by
  unfold hostRead at ht
  split at ht
  · cases ht
    exact h.of_engine_side_eq rfl
  · cases ht

theorem hostWait_keeps_inv {off lo width v : Nat} {s t : State} (h : Inv s)
    (ht : hostWait off lo width v s = .next t) : Inv t := by
  unfold hostWait at ht
  split at ht
  · cases ht
    split <;> exact h.of_engine_side_eq rfl
  · cases ht

/-- The host reaches SRC and DST only while not BUSY. -/
theorem hostBuffer_eq_next {f : State → Result} {s t : State} :
    hostBuffer f s = .next t ↔ s.status ≠ .busy ∧ f s = .next t := by
  unfold hostBuffer
  split <;> simp_all

/-- While not BUSY other canonical memories keep the invariant. -/
theorem Inv.set_memories {s : State} (h : Inv s) (hb : s.status ≠ .busy) {m n : Memory} (hm : Memory.wf m = true)
    (hn : Memory.wf n = true) : Inv { s with src := m, dst := n } :=
  .of_not_busy hm hn h.datapath hb (by simpa using mt h.abortBusy hb) (h.aheadBusy hb)

/-- What a reset makes of DST is canonical. -/
theorem abandon_dst_wf {s : State} (h : Memory.wf s.dst = true) : Memory.wf (abandon s).dst = true := by
  unfold abandon
  split
  · split
    · exact drawBytes_wf h
    · exact h
  · exact h

theorem coreReset_keeps_inv {s : State} (h : Inv s) : Inv (coreReset s) :=
  .of_not_busy h.srcWf (abandon_dst_wf h.dstWf) rfl (by simp) rfl rfl

/-- Every action of the host keeps the invariant. -/
theorem hostMove_keeps_inv {a : HostAction} {s t : State} (h : Inv s) (ht : hostMove a s = .next t) : Inv t := by
  cases a with
  | wr off v => exact hostWrite_keeps_inv h ht
  | rd off => exact hostRead_keeps_inv h ht
  | wait off lo width v => exact hostWait_keeps_inv h ht
  | placeSrc off bytes =>
    simp only [hostMove, hostBuffer_eq_next] at ht
    obtain ⟨hb, ⟨⟩⟩ := ht
    exact h.set_memories hb (Memory.writeBytes_wf off bytes h.srcWf) h.dstWf
  | placeDst off bytes =>
    simp only [hostMove, hostBuffer_eq_next] at ht
    obtain ⟨hb, ⟨⟩⟩ := ht
    exact h.set_memories hb h.srcWf (Memory.writeBytes_wf off bytes h.dstWf)
  | readDst off =>
    obtain ⟨-, ht⟩ := hostBuffer_eq_next.mp ht
    cases ht
    exact h.of_engine_side_eq rfl
  | reset =>
    cases ht
    exact coreReset_keeps_inv h

/-! ### The block step keeps it -/

theorem cancel_keeps_inv {s : State} (h : Inv s) : Inv (cancel s) :=
  .of_not_busy h.srcWf h.dstWf h.datapath (by simp) rfl rfl

/-- Where the advance ends decides between the two outcomes: DONE with no block row left, else a running sequencer. -/
theorem finish_inv {L : Latch} {s : State} (hsrc : Memory.wf s.src = true) (hdst : Memory.wf s.dst = true)
    (hdp : s.dp = Datapath.empty) (hb : s.status = .busy) (hL : s.latch = some L) (habort : s.abortReq = false)
    (hadv : Advancing L s) (hpos : blockNumber L s ∉ s.ahead) : Inv (finish L s) := by
  unfold finish
  split
  · rename_i hend
    exact .of_not_busy hsrc hdst hdp (by simp) habort (hadv.ahead_eq_nil hend)
  · rename_i hleft
    exact
      { srcWf := hsrc
        dstWf := hdst
        datapath := hdp
        running := fun _ => ⟨L, hL, hadv.running (lt_of_le_of_ne hadv.row hleft) hpos⟩
        abortBusy := fun h => absurd h (by simp [habort])
        aheadBusy := fun h => absurd hb h }

/-- The end of a block step gives the invariant, whatever the datapath registers held (10_state.md R38, 43_orchestrator.md R186). -/
theorem advance_inv {L : Latch} {n : Nat} {s : State} (hsrc : Memory.wf s.src = true) (hdst : Memory.wf s.dst = true)
    (hb : s.status = .busy) (hL : s.latch = some L) (habort : s.abortReq = false) (hr : Running L s)
    (hn : Undecoded L s n) : Inv (advance L n s) := by
  have hr' : Running L { s with dp := Datapath.empty } := hr.congr rfl rfl rfl rfl rfl
  unfold advance
  simp only
  split
  · obtain ⟨hadv, hpos⟩ := hr'.advanceOne.catchUp (k := s.ahead.length) (by simp)
    exact finish_inv (by simpa using hsrc) (by simpa using hdst) (by simp) (by simpa using hb) (by simpa using hL)
      (by simpa using habort) hadv hpos
  · rename_i hne
    exact
      { srcWf := hsrc
        dstWf := hdst
        datapath := rfl
        running := fun _ => ⟨L, hL, (hr.append_ahead hn hne).congr rfl rfl rfl rfl rfl⟩
        abortBusy := fun h => absurd h (by simp [habort])
        aheadBusy := fun h => absurd hb h }

/-- The decoding of the block picked keeps the invariant: its operations change datapath registers and DST only. -/
theorem stepBlock_keeps_inv {L : Latch} {s t : State} (h : Inv s) (hb : s.status = .busy) (hL : s.latch = some L)
    (habort : s.abortReq = false) (ht : stepBlock L (pickBlock L s).1 (pickBlock L s).2 = .next t) : Inv t := by
  have hr := h.running_of_latch hb hL
  obtain ⟨blk, u, -, hu, hframe, rfl⟩ := stepBlock_cases ht
  have hdst : Memory.wf u.dst = true := runOps_wf (by simpa using h.dstWf) hu
  have hn := hr.undecoded_pickBlock
  rw [hframe]
  refine advance_inv (by simpa using h.srcWf) hdst (by simpa using hb) (by simpa using hL) (by simpa using habort)
    (hr.congr (by simp) (by simp) (by simp) (by simp) (by simp)) ?_
  exact
    { lower := by simpa [blockNumber] using hn.lower
      upper := hn.upper
      fresh := by simpa using hn.fresh
      oneWorker := by simpa [blockNumber] using hn.oneWorker }

/-- BLOCK.STEP keeps the invariant. -/
theorem execBlockStep_keeps_inv {s t : State} (h : Inv s) (ht : execBlockStep s = .next t) : Inv t := by
  rcases execBlockStep_cases ht with ⟨-, rfl⟩ | ⟨hb, L, hL, ⟨-, rfl⟩ | ⟨-, -, rfl⟩ | ⟨-, habort, hstep⟩⟩
  · exact h
  · exact h
  · exact cancel_keeps_inv h
  · exact stepBlock_keeps_inv h hb hL habort hstep

/-- Taking a turn keeps the invariant. -/
theorem takeTurn_keeps_inv {s : State} (h : Inv s) : Inv (takeTurn s).2 := by
  refine h.of_engine_side_eq ?_
  unfold takeTurn
  split <;> rfl

/-- Every step keeps the invariant, whoever moves. -/
theorem step_keeps_inv {s t : State} (h : Inv s) (ht : step s = .next t) : Inv t := by
  rcases step_cases s with ⟨-, -, he⟩ | ⟨a, rest, -, -, he⟩ | ⟨-, -, he⟩ | ⟨a, rest, -, -, -, he⟩ | ⟨a, rest, -, -, -, he⟩
  · cases he.symm.trans ht
    exact h
  · exact hostMove_keeps_inv (h.of_engine_side_eq rfl) (he.symm.trans ht)
  · exact execBlockStep_keeps_inv h (he.symm.trans ht)
  · exact hostMove_keeps_inv ((takeTurn_keeps_inv h).of_engine_side_eq rfl) (he.symm.trans ht)
  · exact execBlockStep_keeps_inv (takeTurn_keeps_inv h) (he.symm.trans ht)

end Sys2Proof.Machine

/-! ## What no operation writes (10_state.md R39, 20_memory.md R50, 00_scope.md R9) -/

namespace Sys2Proof.Machine

open Sys2Proof

/-- Two states agree on what no operation writes: the configuration registers, SRC, the parameters and the host's side. -/
structure HostSideEq (s t : State) : Prop where
  ctrl : t.ctrl = s.ctrl
  width : t.width = s.width
  height : t.height = s.height
  stride : t.stride = s.stride
  srcLen : t.srcLen = s.srcLen
  dstLen : t.dstLen = s.dstLen
  src : t.src = s.src
  params : t.params = s.params
  prog : t.prog = s.prog
  turns : t.turns = s.turns
  rdata : t.rdata = s.rdata

theorem HostSideEq.refl (s : State) : HostSideEq s s := by constructor <;> rfl

theorem start_hostSideEq (fmt : Format) (s : State) : HostSideEq s (start fmt s) := by constructor <;> simp

theorem execAbort_hostSideEq {s t : State} (h : execAbort s = .next t) : HostSideEq s t := by
  cases h
  split <;> constructor <;> rfl

theorem runOp_hostSideEq {x : Instr} {s t : State} (h : runOp x s = .next t) : HostSideEq s t := by
  rw [runOp_frame h]
  constructor <;> rfl

theorem stepBlock_hostSideEq {L : Latch} {s t : State}
    (h : stepBlock L (pickBlock L s).1 (pickBlock L s).2 = .next t) : HostSideEq s t := by
  obtain ⟨blk, u, -, -, hframe, rfl⟩ := stepBlock_cases h
  rw [hframe]
  constructor <;> simp

theorem execBlockStep_hostSideEq {s t : State} (h : execBlockStep s = .next t) : HostSideEq s t := by
  rcases execBlockStep_cases h with ⟨-, rfl⟩ | ⟨-, L, -, ⟨-, rfl⟩ | ⟨-, -, rfl⟩ | ⟨-, -, hstep⟩⟩
  · exact .refl _
  · exact .refl _
  · constructor <;> rfl
  · exact stepBlock_hostSideEq hstep

/-- No operation writes the host's side: the commands and BLOCK.STEP by name, the rest as operations of a block step. -/
theorem exec_hostSideEq {x : Instr} {s t : State} (h : exec x s = .next t) : HostSideEq s t := by
  cases hx : isBlockOp x with
  | true => exact runOp_hostSideEq ((runOp_eq_exec hx s).trans h)
  | false =>
    cases x with
    | decodeBc1 =>
      cases h
      exact start_hostSideEq .bc1 s
    | decodeBc3 =>
      cases h
      exact start_hostSideEq .bc3 s
    | abort => exact execAbort_hostSideEq h
    | blockStep => exact execBlockStep_hostSideEq h
    | _ => simp [isBlockOp] at hx

end Sys2Proof.Machine

/-! ## Reads without value (10_state.md R33, R38, 93_implementation_defined.md U9) -/

namespace Sys2Proof.Machine

open Sys2Proof

theorem latched_of_none {s : State} (h : s.latch = none) : latched s = .error .latchNoValue := by simp [latched, h]

/-- A transform operation without latched state faults there first. -/
theorem transformPixel_of_no_latch {s : State} (h : s.latch = none) (p : Lane) (f : Pixel → Pixel) (ks : List (Fin 4)) :
    transformPixel p f ks s = .fault .latchNoValue := by
  rw [transformPixel, latched_of_none h, withValue_error]

/-- A transform operation outside a block step faults on the block's origin. -/
theorem transformPixel_of_no_origin {s : State} {L : Latch} (hL : s.latch = some L) (ho : s.dp.origin = none) (p : Lane)
    (f : Pixel → Pixel) (ks : List (Fin 4)) : transformPixel p f ks s = .fault (.datapathNoValue .origin) := by
  rw [transformPixel, latched_eq_ok.mpr hL, withValue_ok, ho]
  rfl

end Sys2Proof.Machine

/-! ## The obligations -/

namespace Sys2Proof.Machine.Claims

open Sys2Proof Sys2Proof.Machine

/-- Settles O48: each move keeps the invariant, the host's by cases on the action, BLOCK.STEP by the sequencer's advance. -/
theorem stepKeepsTheInvariant : Obligations.StepKeepsTheInvariant :=
  fun _ _ h ht => step_keeps_inv h ht

/-- Settles O47. -/
theorem invariantHoldsAtReset : Obligations.InvariantHoldsAtReset := reset_inv

/-- Settles O27: four bytes a pixel make the row longer than any 32-bit stride, and that is the first check. -/
theorem wideImagesAreInvalid : Obligations.WideImagesAreInvalid := by
  intro fmt s hb hwide
  have he : startError s.ctrl (latchOf fmt s) = some .invalidConfiguration := if_pos (badConfig_of_wide hwide)
  refine ⟨start fmt s, exec_startOf fmt s, ?_, start_dst fmt s, start_src fmt s⟩
  rw [start_of_error hb he, raise_status]

/-- Settles O37: the word is `STATE + 16 * ERR`, and both fields are small. -/
theorem statusWordLayout : Obligations.StatusWordLayout := by
  intro st s v
  have hstate := stateCode_le st
  have herr := errField_le st
  have hzero := errField_eq_zero_iff st
  have hlow : (statusWord st).toNat % 4 = stateCode st := by rw [statusWord_toNat]; omega
  have hhigh : (statusWord st).toNat / 16 % 16 = errField st := by rw [statusWord_toNat]; omega
  refine ⟨?_, ?_, by rw [statusWord_toNat]; omega, by rw [statusWord_toNat]; omega, by rw [hlow, hhigh]; exact hzero,
    hostMove_rd rfl s, ?_, rfl⟩
  · rw [hlow]
    cases st <;> rfl
  · rw [hhigh]
    cases st with
    | error c => cases c <;> rfl
    | _ => rfl
  · rw [hostMove_wr_reg (by decide) (by decide), regWrite_of_no_storage (by decide)]

/-- Settles O45. -/
theorem operationsNeverWriteHostState : Obligations.OperationsNeverWriteHostState := by
  intro x s t h
  have he := exec_hostSideEq h
  exact ⟨he.ctrl, he.width, he.height, he.stride, he.srcLen, he.dstLen, he.src, he.params, he.prog, he.turns, he.rdata⟩

/-- Settles O25: the tables read `e0Rgb` first, the lookups the latched state and then their table, the transforms the latched
state and then the origin. -/
theorem readsWithoutValueFault : Obligations.ReadsWithoutValueFault := by
  intro s L p h n y f hdp hL
  have ho : s.dp.origin = none := by rw [hdp]; rfl
  have hlut4 : execBc1Lut4 s = .fault (.datapathNoValue .e0Rgb) := by rw [execBc1Lut4, hdp]; rfl
  have hlut3 : execBc1Lut3 s = .fault (.datapathNoValue .e0Rgb) := by rw [execBc1Lut3, hdp]; rfl
  have hcolour : execBc1Lookup s = .fault (.datapathNoValue .table) := by
    rw [execBc1Lookup, latched_eq_ok.mpr hL, withValue_ok, hdp]; rfl
  have halpha : execBc3aLookup s = .fault (.datapathNoValue .value) := by
    rw [execBc3aLookup, latched_eq_ok.mpr hL, withValue_ok, hdp]; rfl
  have hxf := transformPixel_of_no_origin hL ho p
  have hxf' := transformPixel_of_no_latch (s := { s with latch := none }) rfl p
  exact ⟨hlut4, hlut3, hcolour, halpha, hxf Config.ycocgInv [0, 1, 2, 3], hxf swapRa [0, 3], hxf nrmSqrt [2],
    hxf nrmHemioct [0, 1, 2], rfl, rfl, hxf' Config.ycocgInv [0, 1, 2, 3], hxf' swapRa [0, 3], hxf' nrmSqrt [2],
    hxf' nrmHemioct [0, 1, 2]⟩

/-- Settles O33. -/
theorem stepRunsTheDecodedCommand : Obligations.StepRunsTheDecodedCommand := by
  intro s bs x rest ts hdec hprog
  have hcmd := decodeCommand_of_decode hdec
  constructor
  · intro hb
    rw [step_of_not_busy hb hprog]
    exact writeCmd_of_command hcmd
  · intro hb hturn
    rw [step_of_host_turn hb hprog (takeTurn_cons hturn)]
    exact writeCmd_of_command hcmd

/-- Settles O34. -/
theorem stepRunsTheBlockStep : Obligations.StepRunsTheBlockStep := by
  intro s a rest ts hb
  exact ⟨step_of_no_action hb, fun hprog hturn => step_of_engine_turn hb hprog (takeTurn_cons hturn)⟩

/-- Settles O38. -/
theorem commandRegister : Obligations.CommandRegister := by
  intro s v
  exact ⟨hostMove_rd rfl s, writeCmd_of_command (decodeCommand_one _), writeCmd_of_command (decodeCommand_two _),
    fun h1 h2 => writeCmd_of_reserved h1 h2 s⟩

/-- Settles O39. -/
theorem registerMap : Obligations.RegisterMap := by
  intro s v off
  refine ⟨hostMove_rd rfl s, hostMove_rd rfl s, hostMove_rd rfl s, hostMove_rd rfl s, hostMove_rd rfl s, hostMove_rd rfl s,
    ?_, ?_⟩
  · intro hoff ha
    constructor
    · rw [hostMove_rd ha, regRead_past_map (by unfold offStatus; omega)]
    · rw [hostMove_wr_reg ha (by unfold offCmd; omega), regWrite_of_no_storage (by unfold offCmd; omega)]
  · intro hb
    have hstore : ∀ {o : Nat}, o % 4 = 0 → o ≠ offCmd → hostMove (.wr o v) s = .next (regWrite s o v) :=
      fun ha hc => hostMove_wr_reg ha hc v s
    refine ⟨?_, ?_, ?_, ?_, ?_, ?_⟩ <;> rw [hstore (by decide) (by decide), regWrite, if_neg hb] <;> rfl

/-- Settles O40: the host's move is dropped, and a step is that move with the action and the turn taken off. -/
theorem busyMachineDropsWrites : Obligations.BusyMachineDropsWrites := by
  intro s v off hb ha
  refine ⟨hostMove_wr_of_busy hb ha, hostMove_rd ha s, fun rest ts => ⟨?_, ?_, ?_⟩⟩
  · intro hturn hv hprog
    rw [step_of_host_turn hb hprog (takeTurn_cons hturn)]
    exact hostMove_wr_of_busy hb ha hv
  · intro hturn hprog
    rw [step_of_host_turn hb hprog (takeTurn_cons hturn)]
    exact hostMove_rd ha _
  · intro hturn hv hprog
    rcases takeTurn_nil hturn with ht | ⟨k, ht⟩
    · right
      rw [step_of_engine_turn hb hprog ht, ← hturn]
    · left
      refine ⟨k, ?_⟩
      rw [step_of_host_turn hb hprog ht]
      exact hostMove_wr_of_busy hb ha hv

/-- Settles O43. -/
theorem resetValues : Obligations.ResetValues :=
  ⟨by decide, rfl, rfl, rfl, rfl, rfl, rfl, rfl⟩

end Sys2Proof.Machine.Claims

/-! # Memory: where the bytes of the image stand, and why every access is in range (spec/20_memory.md) -/

/-! ## The bytes of the pixels (20_memory.md R52 to R54) -/

namespace Sys2Proof.Machine

open Sys2Proof Sys2Proof.Machine.Claims

/-- Every channel byte of an in-bounds pixel lies below DSTREQ: DSTREQ ends at the last pixel of the last row (20_memory.md R53). -/
theorem Latch.pix_add_lt_dstReq {L : Latch} {x y : Nat} (hx : x < L.w.toNat) (hy : y < L.h.toNat) (k : Fin 4) :
    L.pix x y + k.val < L.dstReq := by
  have hrow : y * L.stride.toNat ≤ (L.h.toNat - 1) * L.stride.toNat := Nat.mul_le_mul_right _ (by omega)
  simp only [Latch.pix, Latch.dstReq]
  omega

/-- Where a row fits in the stride, a channel byte's row is the quotient of its offset by the stride, and the rest is its place in
the row. -/
theorem Latch.pix_add_div_mod {L : Latch} (hstride : 4 * L.w.toNat ≤ L.stride.toNat) {x : Nat} (hx : x < L.w.toNat) (y : Nat)
    (k : Fin 4) :
    (L.pix x y + k.val) / L.stride.toNat = y ∧ (L.pix x y + k.val) % L.stride.toNat = 4 * x + k.val := by
  refine (Nat.div_mod_unique (by omega)).mpr ⟨?_, by omega⟩
  rw [Latch.pix, Nat.mul_comm y]
  omega

/-- Where a row fits in the stride, the offset of a channel byte determines its column, row and channel (20_memory.md R52). -/
theorem Latch.pix_add_inj {L : Latch} (hstride : 4 * L.w.toNat ≤ L.stride.toNat) {x y x' y' : Nat} {k k' : Fin 4}
    (hx : x < L.w.toNat) (hx' : x' < L.w.toNat) (h : L.pix x y + k.val = L.pix x' y' + k'.val) :
    x = x' ∧ y = y' ∧ k = k' := by
  obtain ⟨hrow, hplace⟩ := Latch.pix_add_div_mod hstride hx y k
  obtain ⟨hrow', hplace'⟩ := Latch.pix_add_div_mod hstride hx' y' k'
  rw [h] at hrow hplace
  have hcol : 4 * x + k.val = 4 * x' + k'.val := hplace.symm.trans hplace'
  exact ⟨by omega, hrow.symm.trans hrow', Fin.ext (by omega)⟩

/-- A lane is in bounds exactly when its column and its row are. -/
theorem inBounds_iff {L : Latch} {o : Origin} {p : Lane} :
    inBounds L o p = true ↔ laneX o p < L.w.toNat ∧ laneY o p < L.h.toNat := by
  simp [inBounds]

/-- Every byte of the in-bounds pixels of a block lies below DSTREQ, whatever the block's origin. -/
theorem blockByte_lt_dstReq {L : Latch} {o : Origin} {a : Nat} (h : blockByte L o a) : a < L.dstReq := by
  obtain ⟨p, hb, k, rfl⟩ := h
  obtain ⟨hx, hy⟩ := inBounds_iff.mp hb
  exact Latch.pix_add_lt_dstReq hx hy k

/-- BC1.LOOKUP stores to channel bytes of in-bounds pixels of the block only (40_bc1_decoder.md R116, R118). -/
theorem blockByte_of_mem_colourStores {om : OpacityMode} {L : Latch} {o : Origin} {t : Vector Pixel 4}
    {x : Vector (BitVec 2) 16} {c : Host.Cell} (h : c ∈ colourStores om L o t x) : blockByte L o c.1 := by
  obtain ⟨p, -, h⟩ := List.mem_flatMap.mp h
  unfold colourLaneStores at h
  split at h
  · rename_i hb
    rcases List.mem_append.mp h with h | h
    · simp only [List.mem_cons, List.not_mem_nil, or_false] at h
      rcases h with rfl | rfl | rfl
      · exact ⟨p, hb, 0, rfl⟩
      · exact ⟨p, hb, 1, rfl⟩
      · exact ⟨p, hb, 2, rfl⟩
    · split at h
      · obtain rfl := List.mem_singleton.mp h
        exact ⟨p, hb, 3, rfl⟩
      · cases h
  · cases h

/-- BC3A.LOOKUP stores to A bytes of in-bounds pixels of the block only (41_bc3_alpha_decoder.md R148). -/
theorem blockByte_of_mem_alphaStores {L : Latch} {o : Origin} {u : Vector Byte 8} {z : Vector (BitVec 3) 16}
    {c : Host.Cell} (h : c ∈ alphaStores L o u z) : blockByte L o c.1 := by
  obtain ⟨p, -, h⟩ := List.mem_flatMap.mp h
  unfold alphaLaneStores at h
  split at h
  · rename_i hb
    obtain rfl := List.mem_singleton.mp h
    exact ⟨p, hb, 3, rfl⟩
  · cases h

/-- A transform of an in-bounds pixel stores to channel bytes of that pixel only. -/
theorem blockByte_of_mem_pixelStores {L : Latch} {o : Origin} {p : Lane} {P : Pixel} {ks : List (Fin 4)}
    {c : Host.Cell} (hb : inBounds L o p = true) (h : c ∈ pixelStores (lanePix L o p) P ks) : blockByte L o c.1 := by
  obtain ⟨k, -, rfl⟩ := List.mem_map.mp h
  exact ⟨p, hb, k, rfl⟩

end Sys2Proof.Machine

/-! ## The operations of a block step complete where DST is long enough (20_memory.md R51, R53) -/

namespace Sys2Proof.Machine

open Sys2Proof Sys2Proof.Machine.Claims

/-- Stores to bytes of the block's in-bounds pixels complete. -/
theorem dstWriteAll_of_blockBytes {L : Latch} {o : Origin} {cs : List Host.Cell} (hdst : L.dstReq ≤ L.dstLen.toNat)
    (hcs : ∀ c ∈ cs, blockByte L o c.1) (s : State) :
    dstWriteAll L cs s = .next { s with dst := Memory.writeCells s.dst cs } :=
  dstWriteAll_eq_next.mpr ⟨fun c hc => lt_of_lt_of_le (blockByte_lt_dstReq (hcs c hc)) hdst, rfl⟩

/-- The four bytes of an in-bounds pixel are readable. -/
theorem pixelRead_of_inBounds {L : Latch} {o : Origin} {p : Lane} (hdst : L.dstReq ≤ L.dstLen.toNat)
    (hb : inBounds L o p = true) (s : State) : ∃ P, pixelRead L s (lanePix L o p) = .ok P := by
  have hread : ∀ k : Fin 4, dstRead L s (lanePix L o p + k.val) = .ok (Memory.byteAt .dst s.dst (lanePix L o p + k.val)) :=
    fun k => dstRead_eq_ok.mpr ⟨lt_of_lt_of_le (blockByte_lt_dstReq ⟨p, hb, k, rfl⟩) hdst, rfl⟩
  exact ⟨⟨_, _, _, _⟩, pixelRead_eq_ok.mpr ⟨hread 0, hread 1, hread 2, hread 3⟩⟩

/-- A transform operation completes inside a block step, on an overhang pixel and on an in-bounds one, and changes DST only. -/
theorem transformPixel_completes {L : Latch} {o : Origin} {s : State} (hdst : L.dstReq ≤ L.dstLen.toNat)
    (hL : s.latch = some L) (ho : s.dp.origin = some o) (p : Lane) (f : Pixel → Pixel) (ks : List (Fin 4)) :
    ∃ m, transformPixel p f ks s = .next { s with dst := m } := by
  cases hb : inBounds L o p with
  | false => exact ⟨s.dst, transformPixel_eq_next.mpr ⟨L, o, hL, ho, .inl ⟨hb, rfl⟩⟩⟩
  | true =>
    obtain ⟨P, hP⟩ := pixelRead_of_inBounds hdst hb s
    have hstore := dstWriteAll_of_blockBytes hdst
      (fun c hc => blockByte_of_mem_pixelStores (P := f P) (ks := ks) hb hc) s
    exact ⟨_, transformPixel_eq_next.mpr ⟨L, o, hL, ho, .inr ⟨hb, P, hP, hstore⟩⟩⟩

/-- The operations that the CTRL bits select for a pixel are transforms of that pixel (42_color_transform.md R161). -/
theorem runOp_of_mem_xfOps {f y n h : Bool} {p : Lane} {x : Instr} (hx : x ∈ xfOps f y n h p) :
    ∃ g ks, runOp x = transformPixel p g ks := by
  simp only [xfOps, List.mem_append, List.mem_ite_nil_right, List.mem_singleton] at hx
  rcases hx with ((⟨-, rfl⟩ | ⟨-, rfl⟩) | ⟨-, rfl⟩) | ⟨-, rfl⟩
  · exact ⟨Config.ycocgInv, [0, 1, 2, 3], rfl⟩
  · exact ⟨swapRa, [0, 3], rfl⟩
  · exact ⟨nrmSqrt, [2], rfl⟩
  · exact ⟨nrmHemioct, [0, 1, 2], rfl⟩

/-- A sequence of transforms completes inside a block step and changes DST only. -/
theorem runOps_transforms_complete {L : Latch} {o : Origin} {s : State} {xs : List Instr}
    (hdst : L.dstReq ≤ L.dstLen.toNat) (hL : s.latch = some L) (ho : s.dp.origin = some o)
    (hxs : ∀ x ∈ xs, ∃ p g ks, runOp x = transformPixel p g ks) : ∃ m, runOps xs s = .next { s with dst := m } := by
  induction xs generalizing s with
  | nil => exact ⟨s.dst, rfl⟩
  | cons x xs ih =>
    obtain ⟨p, g, ks, hx⟩ := hxs x (by simp)
    obtain ⟨m, hm⟩ := transformPixel_completes hdst hL ho p g ks
    obtain ⟨m', hm'⟩ := ih (s := { s with dst := m }) hL ho fun y hy => hxs y (by simp [hy])
    exact ⟨m', by rw [runOps, hx, hm, andThen_next, hm']⟩

/-- The operations of a colour block complete, and keep the block's origin and everything but the datapath and DST. -/
theorem runOps_colourOps_completes {L : Latch} {o : Origin} {s : State} (hdst : L.dstReq ≤ L.dstLen.toNat)
    (hL : s.latch = some L) (ho : s.dp.origin = some o) (om : OpacityMode) (mode : Bc3ColorMode) (b : ColourBlock) :
    ∃ d m, runOps (colourOps om mode b) s = .next { s with dp := d, dst := m } ∧ d.origin = some o := by
  rw [runOps_colourOps hL ho, dstWriteAll_of_blockBytes hdst fun c => blockByte_of_mem_colourStores]
  exact ⟨_, _, rfl, ho⟩

/-- The operations of an alpha sub-block complete, and keep the same. -/
theorem runOps_alphaOps_completes {L : Latch} {o : Origin} {s : State} (hdst : L.dstReq ≤ L.dstLen.toNat)
    (hL : s.latch = some L) (ho : s.dp.origin = some o) (a : AlphaBlock) :
    ∃ d m, runOps (alphaOps a) s = .next { s with dp := d, dst := m } ∧ d.origin = some o := by
  rw [runOps_alphaOps hL ho, dstWriteAll_of_blockBytes hdst fun c => blockByte_of_mem_alphaStores]
  exact ⟨_, _, rfl, ho⟩

/-- The decoding half of a block step completes: the colour block alone in BC1, after the alpha sub-block in BC3. -/
theorem runOps_decodeOps_completes {L : Latch} {o : Origin} {s : State} (hdst : L.dstReq ≤ L.dstLen.toNat)
    (hL : s.latch = some L) (ho : s.dp.origin = some o) (fmt : Format) (mode : Bc3ColorMode) (blk : List Byte) :
    ∃ d m, runOps (decodeOps fmt mode blk) s = .next { s with dp := d, dst := m } ∧ d.origin = some o := by
  cases fmt with
  | bc1 => exact runOps_colourOps_completes hdst hL ho _ _ _
  | bc3 =>
    obtain ⟨d, m, halpha, ho'⟩ := runOps_alphaOps_completes hdst hL ho (alphaBlock (blk.take 8))
    obtain ⟨d', m', hcolour, ho''⟩ := runOps_colourOps_completes (s := { s with dp := d, dst := m }) hdst hL ho'
      (opacityOf .bc3) mode (colourBlock (blk.drop 8))
    exact ⟨d', m', by rw [decodeOps, runOps_append, halpha, andThen_next, hcolour], ho''⟩

/-- All operations of a block step complete: the decoding, then the transforms of the 16 pixels. -/
theorem runOps_blockOps_completes {L : Latch} {o : Origin} {s : State} (hdst : L.dstReq ≤ L.dstLen.toNat)
    (hL : s.latch = some L) (ho : s.dp.origin = some o) (fmt : Format) (mode : Bc3ColorMode) (y n h : Bool)
    (blk : List Byte) : ∃ t, runOps (blockOps fmt mode y n h blk) s = .next t := by
  obtain ⟨d, m, hdec, ho'⟩ := runOps_decodeOps_completes hdst hL ho fmt mode blk
  obtain ⟨m', hxf⟩ := runOps_transforms_complete (s := { s with dp := d, dst := m })
    (xs := lanes.flatMap (xfOps (fmt == .bc3) y n h)) hdst hL ho' fun x hx =>
      let ⟨p, _, hp⟩ := List.mem_flatMap.mp hx
      ⟨p, runOp_of_mem_xfOps hp⟩
  exact ⟨_, by rw [blockOps, runOps_append, hdec, andThen_next, hxf]⟩

end Sys2Proof.Machine

/-! ## The block step completes from the invariant (20_memory.md R50, R55, R61) -/

namespace Sys2Proof.Machine

open Sys2Proof

/-- The SRC offset of block `n` is `BS * n`, for the block at the position by CURSOR's value (20_memory.md R55). -/
theorem Running.blockPlace_offset {L : Latch} {s : State} (h : Running L s) (n : Nat) :
    (blockPlace L s n).2.2 = L.bs * n := by
  unfold blockPlace
  split
  · rename_i hn
    rw [h.cursor, hn]
  · rfl

/-- The bytes of every block of the grid lie below SRCREQ (20_memory.md R55). -/
theorem Latch.block_end_le_srcReq {L : Latch} {n : Nat} (hn : n < L.bcx * L.bcy) : L.bs * n + L.bs ≤ L.srcReq :=
  calc L.bs * n + L.bs = (n + 1) * L.bs := by ring
    _ ≤ L.bcx * L.bcy * L.bs := Nat.mul_le_mul_right _ hn

/-- The decoding of a block of the grid completes: its bytes are in SRC's range and its pixels in DST's. -/
theorem Running.stepBlock_completes {L : Latch} {s : State} {n : Nat} (h : Running L s) (hL : s.latch = some L)
    (hn : n < L.bcx * L.bcy) : ∃ t, stepBlock L n s = .next t := by
  have hread : srcRead L s (blockPlace L s n).2.2 L.bs = .ok (Memory.bytesAt .src s.src (blockPlace L s n).2.2 L.bs) :=
    srcRead_eq_ok.mpr
      ⟨by rw [h.blockPlace_offset]; exact (Latch.block_end_le_srcReq hn).trans h.accepted.src, rfl⟩
  obtain ⟨u, hu⟩ := runOps_blockOps_completes (s := { s with dp := { Datapath.empty with
      origin := some { x := 4 * (blockPlace L s n).1, y := 4 * (blockPlace L s n).2.1 } } })
    h.accepted.dst hL rfl L.fmt s.params.colorMode L.ycocg L.normalize L.hemioct
    (Memory.bytesAt .src s.src (blockPlace L s n).2.2 L.bs)
  exact ⟨advance L n u, by simp only [stepBlock]; rw [hread, withValue_ok, hu, andThen_next]⟩

/-- BLOCK.STEP completes from every state of the invariant, whichever block is picked. -/
theorem execBlockStep_completes {s : State} (h : Inv s) : ∃ t, execBlockStep s = .next t := by
  by_cases hb : s.status = .busy
  · obtain ⟨L, hL, hr⟩ := h.running hb
    have hr' : Running L (pickBlock L s).2 := hr.congr (by simp) (by simp) (by simp) (by simp) (by simp)
    obtain ⟨t, ht⟩ := hr'.stepBlock_completes ((pickBlock_latch L s).trans hL) hr.undecoded_pickBlock.upper
    cases ha : s.abortReq with
    | false => exact ⟨t, by simpa [execBlockStep, hb, latched_eq_ok.mpr hL, hr.row, ha] using ht⟩
    | true => exact ⟨cancel s, by simp [execBlockStep, hb, latched_eq_ok.mpr hL, hr.row, ha]⟩
  · exact ⟨s, if_neg hb⟩

/-- From the invariant the engine's move never stops. -/
theorem exec_blockStep_ne_fault {s : State} (h : Inv s) (r : Fault) : exec .blockStep s ≠ .fault r := by
  intro hr
  obtain ⟨t, ht⟩ := execBlockStep_completes h
  cases ht.symm.trans hr

end Sys2Proof.Machine

/-! ## What can stop a move of the host (70_reset_and_hazards.md R251) -/

namespace Sys2Proof.Machine

open Sys2Proof

/-- A write of CMD completes in every state. -/
theorem writeCmd_completes (v : Word) (s : State) : ∃ t, writeCmd v s = .next t := by
  cases hx : decodeCommand (ctrlFmt s.ctrl) v with
  | none => exact ⟨s, by simp only [writeCmd, hx]⟩
  | some x =>
    rw [writeCmd_of_command hx]
    rcases decodeCommand_cases hx with rfl | rfl
    · exact ⟨_, exec_startOf _ s⟩
    · exact ⟨_, rfl⟩

/-- A host write stops only at an offset that is no multiple of 4. -/
theorem hostWrite_eq_fault {off : Nat} {v : Word} {s : State} {r : Fault} (h : hostWrite off v s = .fault r) :
    r = .hostUnalignedRegister := by
  unfold hostWrite at h
  split at h
  · split at h
    · obtain ⟨t, ht⟩ := writeCmd_completes v s
      cases ht.symm.trans h
    · cases h
  · cases h
    rfl

/-- A host access to SRC or DST that completes while not BUSY stops only while BUSY. -/
theorem hostBuffer_eq_fault {f : State → Result} {s : State} {r : Fault} (h : hostBuffer f s = .fault r)
    (hf : ∃ t, f s = .next t) : r = .hostAccessWhileBusy := by
  unfold hostBuffer at h
  split at h
  · cases h
    rfl
  · obtain ⟨t, ht⟩ := hf
    cases ht.symm.trans h

/-- A move of the host stops only where the host has no such move, in any state. -/
theorem hostMove_eq_fault {a : HostAction} {s : State} {r : Fault} (h : hostMove a s = .fault r) :
    r = .hostAccessWhileBusy ∨ r = .hostUnalignedRegister := by
  cases a with
  | wr off v => exact .inr (hostWrite_eq_fault h)
  | rd off =>
    simp only [hostMove, hostRead] at h
    split at h <;> cases h
    exact .inr rfl
  | wait off lo width v =>
    simp only [hostMove, hostWait] at h
    split at h <;> cases h
    exact .inr rfl
  | placeSrc off bytes =>
    unfold hostMove at h
    exact .inl (hostBuffer_eq_fault h ⟨_, rfl⟩)
  | placeDst off bytes =>
    unfold hostMove at h
    exact .inl (hostBuffer_eq_fault h ⟨_, rfl⟩)
  | readDst off => exact .inl (hostBuffer_eq_fault h ⟨_, rfl⟩)
  | reset => cases h

/-- From the invariant a step stops only for a move that the host has not. -/
theorem step_eq_fault {s : State} {r : Fault} (h : Inv s) (hf : step s = .fault r) :
    r = .hostAccessWhileBusy ∨ r = .hostUnalignedRegister := by
  rcases step_cases s with ⟨-, -, he⟩ | ⟨a, rest, -, -, he⟩ | ⟨-, -, he⟩ | ⟨a, rest, -, -, -, he⟩ | ⟨a, rest, -, -, -, he⟩
  · cases he.symm.trans hf
  · exact hostMove_eq_fault (he.symm.trans hf)
  · exact absurd (he.symm.trans hf) (exec_blockStep_ne_fault h r)
  · exact hostMove_eq_fault (he.symm.trans hf)
  · exact absurd (he.symm.trans hf) (exec_blockStep_ne_fault (takeTurn_keeps_inv h) r)

end Sys2Proof.Machine

/-! ## The obligations about memory -/

namespace Sys2Proof.Machine.Claims

open Sys2Proof Sys2Proof.Machine

/-- Settles O13: both lookups store for in-bounds lanes only, and DSTREQ covers the last in-bounds pixel. -/
theorem lookupsStoreInBoundsPixelsOnly : Obligations.LookupsStoreInBoundsPixelsOnly := by
  intro om L o t x u z c hc
  have hblock : blockByte L o c.1 := (List.mem_append.mp hc).elim blockByte_of_mem_colourStores blockByte_of_mem_alphaStores
  exact ⟨hblock, blockByte_lt_dstReq hblock⟩

/-- Settles O32: the START checks make DST as long as DSTREQ and the stride as long as a row. -/
theorem pixelBytesAreInRangeAndDisjoint : Obligations.PixelBytesAreInRangeAndDisjoint := by
  intro L x y x' y' k k' hL hx hy hx' _
  have hreq := Latch.pix_add_lt_dstReq hx hy k
  exact ⟨hreq, lt_of_lt_of_le hreq hL.dst, Latch.pix_add_inj hL.stride hx hx'⟩

/-- Settles O49: BLOCK.STEP completes from the invariant, and a host move stops only where the host has no such move. -/
theorem noAccessOutOfRange : Obligations.NoAccessOutOfRange := by
  intro s f h hf
  rcases step_eq_fault h hf with rfl | rfl <;> rfl

end Sys2Proof.Machine.Claims

/-! # Encodings (spec/30_encoding.md): little-endian fields, the block formats, the decoder and the encoder -/

/-! ## Little-endian bytes (00_scope.md R12) -/

namespace Sys2Proof

@[simp] theorem le_nil : le [] = 0 := rfl
@[simp] theorem le_cons (b : Byte) (bs : List Byte) : le (b :: bs) = b.toNat + 256 * le bs := rfl

@[simp] theorem leBytes_length (n v : Nat) : (leBytes n v).length = n := by
  induction n generalizing v with
  | zero => rfl
  | succ n ih => simp [leBytes, ih]

/-- `n` bytes are a number below `2 ^ (8 * n)`. -/
theorem le_lt_two_pow (bs : List Byte) : le bs < 2 ^ (8 * bs.length) := by
  induction bs with
  | nil => simp
  | cons b bs ih =>
    have hb : b.toNat < 256 := b.isLt
    rw [List.length_cons, Nat.mul_succ, Nat.pow_add, le_cons]
    omega

/-- Laying out a number in `n` bytes keeps its low `8 * n` bits. -/
theorem le_leBytes (n v : Nat) : le (leBytes n v) = v % 2 ^ (8 * n) := by
  induction n generalizing v with
  | zero => simp [leBytes, Nat.mod_one]
  | succ n ih =>
    rw [leBytes, le_cons, ih, BitVec.toNat_ofNat, Nat.mul_succ, Nat.add_comm (8 * n), Nat.pow_add, Nat.mod_mul]

/-- Laying out the number of some bytes gives those bytes. -/
theorem leBytes_le (bs : List Byte) : leBytes bs.length (le bs) = bs := by
  induction bs with
  | nil => rfl
  | cons b bs ih =>
    have hb : b.toNat < 256 := b.isLt
    have hdiv : (b.toNat + 256 * le bs) / 256 = le bs := by omega
    have hlow : BitVec.ofNat 8 (b.toNat + 256 * le bs) = b := BitVec.eq_of_toNat_eq (by rw [BitVec.toNat_ofNat]; omega)
    rw [List.length_cons, leBytes, le_cons, hdiv, ih, hlow]

/-- A field of `n` bytes reads back as it was laid out. -/
theorem ofNat_le_leBytes (n : Nat) (x : BitVec (8 * n)) : BitVec.ofNat (8 * n) (le (leBytes n x.toNat)) = x := by
  rw [le_leBytes, Nat.mod_eq_of_lt x.isLt, BitVec.ofNat_toNat, BitVec.setWidth_eq]

/-- The field that `n` bytes hold lays out as those bytes. -/
theorem leBytes_ofNat_le {n : Nat} {bs : List Byte} (h : bs.length = n) :
    leBytes n (BitVec.ofNat (8 * n) (le bs)).toNat = bs := by
  subst h
  rw [BitVec.toNat_ofNat, Nat.mod_eq_of_lt (le_lt_two_pow bs), leBytes_le]

/-- Bit `n` of a little-endian number is bit `n mod 8` of byte `n // 8`. -/
theorem testBit_le (bs : List Byte) {n : Nat} (h : n / 8 < bs.length) :
    (le bs).testBit n = bs[n / 8].getLsbD (n % 8) := by
  induction bs generalizing n with
  | nil => simp at h
  | cons b bs ih =>
    have hbit : (le (b :: bs)).testBit n = if n < 8 then b.toNat.testBit n else (le bs).testBit (n - 8) := by
      rw [le_cons, Nat.add_comm]
      exact Nat.testBit_two_pow_mul_add _ b.isLt n
    rw [hbit]
    split
    next hn => simp [Nat.div_eq_of_lt hn, Nat.mod_eq_of_lt hn, BitVec.testBit_toNat]
    next hn =>
      obtain ⟨m, rfl⟩ := Nat.exists_eq_add_of_le' (Nat.le_of_not_lt hn)
      have hm : m / 8 < bs.length := by simpa [Nat.add_div_right] using h
      simp [ih hm, Nat.add_div_right]

/-- Bit `n` of a field of some bytes is bit `n mod 8` of byte `n // 8`. -/
theorem getLsbD_ofNat_le {w n : Nat} (bs : List Byte) (hw : n < w) (h : n / 8 < bs.length) :
    (BitVec.ofNat w (le bs)).getLsbD n = bs[n / 8].getLsbD (n % 8) := by
  rw [BitVec.getLsbD_ofNat, testBit_le bs h]
  simp [hw]

end Sys2Proof

/-! ## The block formats (30_encoding.md R71, R75) -/

namespace Sys2Proof

@[simp] theorem encodeColour_length (b : ColourBlock) : (encodeColour b).length = 8 := rfl
@[simp] theorem encodeAlpha_length (a : AlphaBlock) : (encodeAlpha a).length = 8 := rfl

/-- A colour block's fields read back from its bytes. -/
@[simp] theorem colourBlock_encodeColour (b : ColourBlock) : colourBlock (encodeColour b) = b := by
  cases b with
  | mk c0 c1 idx =>
    exact congr (congr (congrArg ColourBlock.mk (ofNat_le_leBytes 2 c0)) (ofNat_le_leBytes 2 c1)) (ofNat_le_leBytes 4 idx)

/-- An alpha sub-block's fields read back from its bytes. -/
@[simp] theorem alphaBlock_encodeAlpha (a : AlphaBlock) : alphaBlock (encodeAlpha a) = a := by
  cases a with
  | mk e0 e1 idx =>
    exact congr (congr (congrArg AlphaBlock.mk (ofNat_le_leBytes 1 e0)) (ofNat_le_leBytes 1 e1)) (ofNat_le_leBytes 6 idx)

/-- Two fields of `m` and `n` bytes and one of the rest make up the whole. -/
theorem take_append_take_append_take {bs : List Byte} {l m n : Nat} (h : bs.length = l + m + n) :
    bs.take l ++ (bs.drop l).take m ++ (bs.drop (l + m)).take n = bs := by
  rw [List.take_of_length_le (l := bs.drop (l + m)) (by rw [List.length_drop]; omega), ← List.take_add,
    List.take_append_drop]

/-- Any 8 bytes are the colour block that they hold. -/
theorem encodeColour_colourBlock {bs : List Byte} (h : bs.length = 8) : encodeColour (colourBlock bs) = bs := by
  have hc0 : leBytes 2 (colourBlock bs).c0.toNat = bs.take 2 := leBytes_ofNat_le (n := 2) (by simp [h])
  have hc1 : leBytes 2 (colourBlock bs).c1.toNat = (bs.drop 2).take 2 := leBytes_ofNat_le (n := 2) (by simp [h])
  have hidx : leBytes 4 (colourBlock bs).idx.toNat = (bs.drop 4).take 4 := leBytes_ofNat_le (n := 4) (by simp [h])
  rw [encodeColour, hc0, hc1, hidx]
  exact take_append_take_append_take h

/-- Any 8 bytes are the alpha sub-block that they hold. -/
theorem encodeAlpha_alphaBlock {bs : List Byte} (h : bs.length = 8) : encodeAlpha (alphaBlock bs) = bs := by
  have he0 : leBytes 1 (alphaBlock bs).e0.toNat = bs.take 1 := leBytes_ofNat_le (n := 1) (by simp [h])
  have he1 : leBytes 1 (alphaBlock bs).e1.toNat = (bs.drop 1).take 1 := leBytes_ofNat_le (n := 1) (by simp [h])
  have hidx : leBytes 6 (alphaBlock bs).idx.toNat = (bs.drop 2).take 6 := leBytes_ofNat_le (n := 6) (by simp [h])
  rw [encodeAlpha, he0, he1, hidx]
  exact take_append_take_append_take h

/-- Bit `n` of the field I is bit `n mod 8` of byte `b[4 + n // 8]` (30_encoding.md R73). -/
theorem colourBlock_idx_getLsbD {bs : List Byte} {n : Nat} (hlen : bs.length = 8) (hn : n < 32) :
    (colourBlock bs).idx.getLsbD n = (bs[4 + n / 8]'(by omega)).getLsbD (n % 8) := by
  refine (getLsbD_ofNat_le ((bs.drop 4).take 4) hn (by simp [hlen]; omega)).trans ?_
  simp

/-- Bit `n` of the field J is bit `n mod 8` of byte `a[2 + n // 8]` (30_encoding.md R78). -/
theorem alphaBlock_idx_getLsbD {bs : List Byte} {n : Nat} (hlen : bs.length = 8) (hn : n < 48) :
    (alphaBlock bs).idx.getLsbD n = (bs[2 + n / 8]'(by omega)).getLsbD (n % 8) := by
  refine (getLsbD_ofNat_le ((bs.drop 2).take 6) hn (by simp [hlen]; omega)).trans ?_
  simp

/-- Index `p` of the field I is the two bits of byte `b[4 + p // 4]` for column `p mod 4` (30_encoding.md R74). -/
theorem colourBlock_idx_extract {bs : List Byte} (hlen : bs.length = 8) (p : Lane) :
    (colourBlock bs).idx.extractLsb' (2 * p.val) 2 =
      (bs[4 + p.val / 4]'(by omega)).extractLsb' (2 * (p.val % 4)) 2 := by
  refine BitVec.eq_of_getLsbD_eq fun k hk => ?_
  have hbyte : (2 * p.val + k) / 8 = p.val / 4 := by omega
  have hbit : (2 * p.val + k) % 8 = 2 * (p.val % 4) + k := by omega
  simp only [BitVec.getLsbD_extractLsb', hk, decide_true, Bool.true_and]
  rw [colourBlock_idx_getLsbD hlen (by omega)]
  simp only [hbyte, hbit]

end Sys2Proof

/-! ## The index fields (40_bc1_decoder.md R113, 41_bc3_alpha_decoder.md R146) -/

namespace Sys2Proof.Machine

open Sys2Proof

@[simp] theorem unpackIdx2_getElem (x : BitVec 32) (p : Lane) :
    (unpackIdx2 x)[p.val] = x.extractLsb' (2 * p.val) 2 := by
  simp [unpackIdx2]

@[simp] theorem unpackIdx3_getElem (x : BitVec 48) (p : Lane) :
    (unpackIdx3 x)[p.val] = x.extractLsb' (3 * p.val) 3 := by
  simp [unpackIdx3]

end Sys2Proof.Machine

/-! ## What each space decodes to (30_encoding.md R80, R81) -/

namespace Sys2Proof

variable {bs : List Byte} {l : List Instr}

/-- Where bytes are rejected but under a condition, a selection is one under that condition. -/
theorem ite_rejected_eq_ops {c : Prop} [Decidable c] {d : Decoded} {why : Reject} :
    (if c then d else .rejected why) = .ops l ↔ c ∧ d = .ops l := by
  split <;> simp [*]

theorem decode_command_eq_ops {fmt : Format} :
    decode (.command fmt) bs = .ops l ↔
      bs.length = 4 ∧ ∃ x, decodeCommand fmt (BitVec.ofNat 32 (le bs)) = some x ∧ l = [x] := by
  rw [decode, ite_rejected_eq_ops]
  cases decodeCommand fmt (BitVec.ofNat 32 (le bs)) <;> simp [Space.length, @eq_comm _ l]

theorem decode_block_eq_ops {fmt : Format} :
    decode (.block fmt) bs = .ops l ↔ bs.length = blockSize fmt ∧ l = [.blockStep] := by
  rw [decode, ite_rejected_eq_ops]
  simp [Space.length, @eq_comm _ l]

theorem decode_endpoint_eq_ops {e : Endpoint} :
    decode (.endpoint e) bs = .ops l ↔ bs.length = 2 ∧ l = [.bc1Expand e (BitVec.ofNat 16 (le bs))] := by
  rw [decode, ite_rejected_eq_ops]
  simp [Space.length, @eq_comm _ l]

theorem decode_colour_eq_ops {om : OpacityMode} {mode : Bc3ColorMode} :
    decode (.colour om mode) bs = .ops l ↔ bs.length = 8 ∧ l = colourOps om mode (colourBlock bs) := by
  rw [decode, ite_rejected_eq_ops]
  simp [Space.length, @eq_comm _ l]

theorem decode_alpha_eq_ops : decode .alpha bs = .ops l ↔ bs.length = 8 ∧ l = alphaOps (alphaBlock bs) := by
  rw [decode, ite_rejected_eq_ops]
  simp [Space.length, @eq_comm _ l]

theorem decode_ctrl_eq_ops {p : Lane} :
    decode (.ctrl p) bs = .ops l ↔
      bs.length = 4 ∧ ctrlLegal (BitVec.ofNat 32 (le bs)) = true ∧
        l = xfOps (ctrlFmt (BitVec.ofNat 32 (le bs)) == .bc3) (ctrlYcocg (BitVec.ofNat 32 (le bs)))
          (ctrlNormalize (BitVec.ofNat 32 (le bs))) (ctrlHemioct (BitVec.ofNat 32 (le bs))) p := by
  rw [decode, ite_rejected_eq_ops]
  simp [ite_rejected_eq_ops, Space.length, @eq_comm _ l]

/-- The CTRL word of four flags reads back as them, and it is legal exactly when HEMIOCT comes with NORMALIZE (30_encoding.md R80,
R84). -/
theorem ctrlWord_fields (f y n h : Bool) :
    (ctrlFmt (ctrlWord f y n h) == .bc3) = f ∧ ctrlYcocg (ctrlWord f y n h) = y ∧
      ctrlNormalize (ctrlWord f y n h) = n ∧ ctrlHemioct (ctrlWord f y n h) = h ∧
      ctrlLegal (ctrlWord f y n h) = (!h || n) := by
  revert f y n h
  decide

/-- The CTRL word of legal flags selects the transforms of those flags. -/
theorem decode_ctrlWord {f y n h : Bool} (hlegal : (!h || n) = true) (p : Lane) :
    decode (.ctrl p) (leBytes 4 (ctrlWord f y n h).toNat) = .ops (xfOps f y n h p) := by
  obtain ⟨hf, hy, hn, hh, hl⟩ := ctrlWord_fields f y n h
  have hw : BitVec.ofNat 32 (le (leBytes 4 (ctrlWord f y n h).toNat)) = ctrlWord f y n h := ofNat_le_leBytes 4 _
  refine decode_ctrl_eq_ops.mpr ⟨rfl, ?_, ?_⟩
  · rw [hw, hl, hlegal]
  · rw [hw, hf, hy, hn, hh]

/-- The bytes of a colour block select its operations. -/
theorem decode_encodeColour (om : OpacityMode) (mode : Bc3ColorMode) (b : ColourBlock) :
    decode (.colour om mode) (encodeColour b) = .ops (colourOps om mode b) :=
  decode_colour_eq_ops.mpr ⟨rfl, by rw [colourBlock_encodeColour]⟩

/-- The bytes of an alpha sub-block select its operations. -/
theorem decode_encodeAlpha (a : AlphaBlock) : decode .alpha (encodeAlpha a) = .ops (alphaOps a) :=
  decode_alpha_eq_ops.mpr ⟨rfl, by rw [alphaBlock_encodeAlpha]⟩

end Sys2Proof

/-! ## Every selection is well formed (41_bc3_alpha_decoder.md R141, 30_encoding.md R80) -/

namespace Sys2Proof

/-- A command has no operand to be ill formed. -/
theorem wellFormed_of_decodeCommand {fmt : Format} {v : Word} {x : Instr} (h : decodeCommand fmt v = some x) :
    x.wellFormed = true := by
  rcases Machine.decodeCommand_cases h with rfl | rfl
  · cases fmt <;> rfl
  · rfl

/-- A colour block selects operations without a condition on their operands. -/
theorem wellFormed_of_mem_colourOps {om : OpacityMode} {mode : Bc3ColorMode} {b : ColourBlock} {x : Instr}
    (hx : x ∈ colourOps om mode b) : x.wellFormed = true := by
  simp only [colourOps, List.mem_cons, List.not_mem_nil, or_false] at hx
  rcases hx with rfl | rfl | rfl | rfl | rfl
  case inr.inr.inl => split <;> rfl
  all_goals rfl

/-- The order of an alpha sub-block's endpoints selects the table that is well formed for it (41_bc3_alpha_decoder.md R141). -/
theorem wellFormed_of_mem_alphaOps {a : AlphaBlock} {x : Instr} (hx : x ∈ alphaOps a) : x.wellFormed = true := by
  simp only [alphaOps, List.mem_cons, List.not_mem_nil, or_false] at hx
  rcases hx with rfl | rfl | rfl
  · split
    next hgt => exact decide_eq_true hgt
    next hle => exact decide_eq_true (Nat.le_of_not_lt hle)
  · rfl
  · rfl

/-- Legal flags select well-formed transforms: XF.YCOCG is the one that carries HEMIOCT and NORMALIZE both. -/
theorem wellFormed_of_mem_xfOps {f y n h : Bool} {p : Lane} {x : Instr} (hlegal : (!h || n) = true)
    (hx : x ∈ xfOps f y n h p) : x.wellFormed = true := by
  simp only [xfOps, List.mem_append, List.mem_ite_nil_right, List.mem_singleton] at hx
  rcases hx with ((⟨-, rfl⟩ | ⟨-, rfl⟩) | ⟨-, rfl⟩) | ⟨-, rfl⟩
  · exact hlegal
  · rfl
  · rfl
  · rfl

end Sys2Proof

/-! ## No operation and no move is refused (30_encoding.md R81) -/

namespace Sys2Proof.Machine

open Sys2Proof

/-- The operation or move answers a next state or a fault. -/
def NotRefused (o : Result) : Prop := ∀ r, o ≠ .refused r

@[simp] theorem notRefused_next (s : State) : NotRefused (.next s) := fun _ h => by cases h
@[simp] theorem notRefused_fault (r : Fault) : NotRefused (.fault r) := fun _ h => by cases h

theorem NotRefused.andThen {o : Result} {f : State → Result} (ho : NotRefused o) (hf : ∀ s, NotRefused (f s)) :
    NotRefused (andThen o f) := by
  cases o with
  | next s => exact hf s
  | fault r => exact notRefused_fault r
  | refused r => exact absurd rfl (ho r)

theorem NotRefused.withValue {α : Type} {r : Except Fault α} {f : α → Result} (hf : ∀ v, NotRefused (f v)) :
    NotRefused (withValue r f) := by
  cases r with
  | ok v => exact hf v
  | error e => exact notRefused_fault e

theorem NotRefused.ite {c : Prop} [Decidable c] {o o' : Result} (ho : NotRefused o) (ho' : NotRefused o') :
    NotRefused (if c then o else o') := by
  split <;> assumption

theorem dstWriteAll_notRefused (L : Latch) (cs : List Host.Cell) (s : State) : NotRefused (dstWriteAll L cs s) := by
  induction cs generalizing s with
  | nil => exact notRefused_next s
  | cons c cs ih => exact .andThen (.ite (notRefused_next _) (notRefused_fault _)) ih

theorem transformPixel_notRefused (p : Lane) (f : Pixel → Pixel) (ks : List (Fin 4)) (s : State) :
    NotRefused (transformPixel p f ks s) :=
  .withValue fun _ => .withValue fun _ =>
    .ite (.withValue fun _ => dstWriteAll_notRefused _ _ _) (notRefused_next s)

/-- A datapath or transform operation is not refused: its registers are read, its bytes are written. -/
theorem runOp_notRefused (x : Instr) (s : State) : NotRefused (runOp x s) := by
  cases x with
  | bc1Expand e c => cases e <;> exact notRefused_next _
  | bc1Lut4 | bc1Lut3 => exact .withValue fun _ => .withValue fun _ => notRefused_next _
  | bc1Lookup | bc3aLookup =>
    exact .withValue fun _ => .withValue fun _ => .withValue fun _ => .withValue fun _ => dstWriteAll_notRefused _ _ _
  | xfYcocg p _ _ _ | xfSwapRa p _ _ _ | xfNrmSqrt p _ _ | xfNrmHemioct p _ _ => exact transformPixel_notRefused _ _ _ _
  | _ => exact notRefused_next _

theorem runOps_notRefused (xs : List Instr) (s : State) : NotRefused (runOps xs s) := by
  induction xs generalizing s with
  | nil => exact notRefused_next s
  | cons x xs ih => exact .andThen (runOp_notRefused x s) ih

theorem stepBlock_notRefused (L : Latch) (n : Nat) (s : State) : NotRefused (stepBlock L n s) :=
  .withValue fun _ => .andThen (runOps_notRefused _ _) fun _ => notRefused_next _

theorem execBlockStep_notRefused (s : State) : NotRefused (execBlockStep s) :=
  .ite
    (.withValue fun _ => .ite (.ite (notRefused_next _) (stepBlock_notRefused _ _ _)) (notRefused_next s))
    (notRefused_next s)

/-- Every operation has a meaning: the commands and BLOCK.STEP by name, the rest as operations of a block step. -/
theorem exec_notRefused (x : Instr) (s : State) : NotRefused (exec x s) := by
  cases hx : isBlockOp x with
  | true => exact runOp_eq_exec hx s ▸ runOp_notRefused x s
  | false =>
    cases x with
    | decodeBc1 | decodeBc3 | abort => exact notRefused_next _
    | blockStep => exact execBlockStep_notRefused s
    | _ => cases hx

theorem hostBuffer_notRefused {f : State → Result} (hf : ∀ s, NotRefused (f s)) (s : State) : NotRefused (hostBuffer f s) :=
  .ite (notRefused_fault _) (hf s)

theorem hostMove_notRefused (a : HostAction) (s : State) : NotRefused (hostMove a s) := by
  cases a with
  | wr off v =>
    obtain ⟨t, ht⟩ := writeCmd_completes v s
    exact .ite (.ite (ht ▸ notRefused_next t) (notRefused_next _)) (notRefused_fault _)
  | rd off | wait off lo width v => exact .ite (notRefused_next _) (notRefused_fault _)
  | placeSrc off bytes | placeDst off bytes | readDst off => exact hostBuffer_notRefused (fun _ => notRefused_next _) s
  | reset => exact notRefused_next _

/-- A step is nothing, a move of the host, or BLOCK.STEP. -/
theorem step_notRefused (s : State) : NotRefused (step s) := by
  rcases step_cases s with ⟨-, -, he⟩ | ⟨a, rest, -, -, he⟩ | ⟨-, -, he⟩ | ⟨a, rest, -, -, -, he⟩ | ⟨a, rest, -, -, -, he⟩
  all_goals rw [he]
  · exact notRefused_next s
  · exact hostMove_notRefused a _
  · exact exec_notRefused .blockStep s
  · exact hostMove_notRefused a _
  · exact exec_notRefused .blockStep _

end Sys2Proof.Machine

/-! ## A wait of the host (30_encoding.md R84) -/

namespace Sys2Proof.Machine

open Sys2Proof

@[simp] theorem regRead_status (s : State) : regRead s 0x1C = statusWord s.status := rfl

/-- STATE is the two lowest bits of STATUS (10_state.md R31). -/
theorem fieldOf_state (w : Word) : fieldOf w 0 2 = w.toNat % 4 := by simp [fieldOf]

/-- A wait reads the register, and stays the next action exactly while the field has the value. -/
theorem hostMove_wait {off : Nat} (ha : off % 4 = 0) (lo width v : Nat) (s : State) :
    hostMove (.wait off lo width v) s =
      .next { s with
        rdata := regRead s off
        prog := if fieldOf (regRead s off) lo width = v then .wait off lo width v :: s.prog else s.prog } := by
  by_cases hv : fieldOf (regRead s off) lo width = v <;> simp [hostMove, hostWait, ha, hv]

end Sys2Proof.Machine

/-! ## The obligations about encodings -/

namespace Sys2Proof.Machine.Claims

open Sys2Proof Sys2Proof.Machine

/-- Settles O2: the fields of each format read back from its bytes, and the operation is among those that they select. An
operation without a field of its own is found in its representative block (log entry 16). -/
theorem decodeOfEncodeSelectsTheOperation : Obligations.DecodeOfEncodeSelectsTheOperation := by
  intro x hx
  cases x with
  | decodeBc1 | decodeBc3 | abort | blockStep => exact ⟨_, rfl, List.mem_singleton_self _⟩
  | bc1Expand e c =>
    have hc : BitVec.ofNat 16 (le (leBytes 2 c.toNat)) = c := ofNat_le_leBytes 2 c
    exact ⟨_, decode_endpoint_eq_ops.mpr ⟨rfl, rfl⟩, by simp [encode, hc]⟩
  | bc1Lut4 | bc1Lut3 | bc1Idx2 idx | bc1Lookup =>
    exact ⟨_, decode_encodeColour _ _ _, by simp [colourOps, fourColour]⟩
  | bc3aLut8 e0 e1 =>
    have hgt : e1.toNat < e0.toNat := of_decide_eq_true hx
    exact ⟨_, decode_encodeAlpha _, by simp [alphaOps, hgt]⟩
  | bc3aLut6 e0 e1 =>
    have hle : e0.toNat ≤ e1.toNat := of_decide_eq_true hx
    exact ⟨_, decode_encodeAlpha _, by simp [alphaOps, hle.not_gt]⟩
  | bc3aIdx3 idx | bc3aLookup => exact ⟨_, decode_encodeAlpha _, by simp [alphaOps]⟩
  | xfYcocg p h n f => exact ⟨_, decode_ctrlWord hx p, by simp [xfOps]⟩
  | xfSwapRa p h y f => exact ⟨_, decode_ctrlWord (Bool.or_true _) p, by simp [xfOps]⟩
  | xfNrmSqrt p y f | xfNrmHemioct p y f => exact ⟨_, decode_ctrlWord rfl p, by simp [xfOps]⟩

/-- Settles O3, space by space: the alpha table follows the order of its endpoints, and CTRL is decoded only where it is legal. -/
theorem decodedOperationsAreWellFormed : Obligations.DecodedOperationsAreWellFormed := by
  intro sp bs l hl x hx
  cases sp with
  | command fmt =>
    obtain ⟨-, y, hy, rfl⟩ := decode_command_eq_ops.mp hl
    exact List.mem_singleton.mp hx ▸ wellFormed_of_decodeCommand hy
  | block fmt =>
    obtain ⟨-, rfl⟩ := decode_block_eq_ops.mp hl
    exact List.mem_singleton.mp hx ▸ rfl
  | endpoint e =>
    obtain ⟨-, rfl⟩ := decode_endpoint_eq_ops.mp hl
    exact List.mem_singleton.mp hx ▸ rfl
  | colour om mode =>
    obtain ⟨-, rfl⟩ := decode_colour_eq_ops.mp hl
    exact wellFormed_of_mem_colourOps hx
  | alpha =>
    obtain ⟨-, rfl⟩ := decode_alpha_eq_ops.mp hl
    exact wellFormed_of_mem_alphaOps hx
  | ctrl p =>
    obtain ⟨-, hlegal, rfl⟩ := decode_ctrl_eq_ops.mp hl
    exact wellFormed_of_mem_xfOps (Bool.and_eq_true_iff.mp hlegal).2 hx

/-- Settles O4. -/
theorem blockFormatsAreBijective : Obligations.BlockFormatsAreBijective :=
  ⟨fun b => ⟨encodeColour_length b, colourBlock_encodeColour b⟩,
    fun a => ⟨encodeAlpha_length a, alphaBlock_encodeAlpha a⟩,
    fun _ hlen => ⟨encodeColour_colourBlock hlen, encodeAlpha_alphaBlock hlen⟩⟩

/-- Settles O11: index `p` is bits `2p+1:2p` of I, and those lie in one byte, four indices to a byte. -/
theorem colourIndexPositions : Obligations.ColourIndexPositions := by
  intro bs hlen s
  refine ⟨unpackIdx2 (colourBlock bs).idx, rfl, fun p => ⟨?_, ?_⟩⟩
  · simp [Nat.shiftRight_eq_div_pow]
  · simp [colourBlock_idx_extract hlen p, Nat.shiftRight_eq_div_pow]

/-- Settles O16: index `p` is bits `3p+2:3p` of J, each in the byte that holds it. -/
theorem alphaIndexPositions : Obligations.AlphaIndexPositions := by
  intro bs hlen s
  refine ⟨unpackIdx3 (alphaBlock bs).idx, rfl, fun p => ⟨?_, fun k hk => ?_⟩⟩
  · simp [Nat.shiftRight_eq_div_pow]
  · rw [unpackIdx3_getElem, ← alphaBlock_idx_getLsbD hlen (by omega)]
    simp [hk]

/-- Settles O46. -/
theorem nothingIsRefused : Obligations.NothingIsRefused := ⟨exec_notRefused, step_notRefused⟩

/-- Settles O1, each word by evaluating the decoder on it. -/
theorem writtenOutWordsDecode : Obligations.WrittenOutWordsDecode := by
  refine ⟨?_, ?_, ?_, ?_, ?_, ?_, ?_, ?_, ?_, ?_⟩ <;> decide

/-- Settles O41: 0x1C is STATUS, and STATE its two lowest bits. -/
theorem waitRepeatsUntilTheFieldDiffers : Obligations.WaitRepeatsUntilTheFieldDiffers := by
  intro s v
  rw [hostMove_wait rfl, regRead_status, fieldOf_state]

end Sys2Proof.Machine.Claims

/-! # The BC1 block decoder (spec/40_bc1_decoder.md): the block's fields, endpoint expansion, the tables and the lookup -/

/-! ## The bytes of a colour block (30_encoding.md R71, 40_bc1_decoder.md R108) -/

namespace Sys2Proof

/-- A field of `n` bytes has their little-endian number: nothing is cut off. -/
theorem toNat_ofNat_le {n : Nat} {bs : List Byte} (h : bs.length = n) : (BitVec.ofNat (8 * n) (le bs)).toNat = le bs := by
  subst h
  rw [BitVec.toNat_ofNat, Nat.mod_eq_of_lt (le_lt_two_pow bs)]

/-- The fields of a colour block are the little-endian numbers of its bytes 0 and 1, 2 and 3, and 4 to 7. -/
theorem colourBlock_toNat {bs : List Byte} (hlen : bs.length = 8) :
    (colourBlock bs).c0.toNat = bs[0].toNat + 256 * bs[1].toNat ∧
      (colourBlock bs).c1.toNat = bs[2].toNat + 256 * bs[3].toNat ∧
      (colourBlock bs).idx.toNat =
        bs[4].toNat + 256 * bs[5].toNat + 65536 * bs[6].toNat + 16777216 * bs[7].toNat := by
  match bs, hlen with
  | [b0, b1, b2, b3, b4, b5, b6, b7], _ =>
    have hc0 : (colourBlock [b0, b1, b2, b3, b4, b5, b6, b7]).c0.toNat = le [b0, b1] := toNat_ofNat_le (n := 2) rfl
    have hc1 : (colourBlock [b0, b1, b2, b3, b4, b5, b6, b7]).c1.toNat = le [b2, b3] := toNat_ofNat_le (n := 2) rfl
    have hidx : (colourBlock [b0, b1, b2, b3, b4, b5, b6, b7]).idx.toNat = le [b4, b5, b6, b7] :=
      toNat_ofNat_le (n := 4) rfl
    rw [hc0, hc1, hidx]
    refine ⟨rfl, rfl, ?_⟩
    simp only [le_cons, le_nil, List.getElem_cons_zero, List.getElem_cons_succ]
    omega

/-- The 4-colour table is selected by the order of the packed endpoints, or by always-opaque mode with FOUR_COLOR_ALWAYS. -/
theorem fourColour_iff {om : OpacityMode} {mode : Bc3ColorMode} {c0 c1 : BitVec 16} :
    fourColour om mode c0 c1 = true ↔ c0.toNat > c1.toNat ∨ (om = .alwaysOpaque ∧ mode = .fourColorAlways) := by
  simp [fourColour]

end Sys2Proof

/-! ## Endpoint expansion (40_bc1_decoder.md R105) -/

namespace Sys2Proof.Machine

open Sys2Proof

/-- Bit replication as arithmetic: the value moved up by `i` bits, and its top `i` of `i + j` bits below it. -/
theorem shiftLeft_or_shiftRight {v i j : Nat} (h : v < 2 ^ (i + j)) : (v <<< i) ||| (v >>> j) = v * 2 ^ i + v / 2 ^ j := by
  have hlow : v >>> j < 2 ^ i := by
    rw [Nat.shiftRight_eq_div_pow, Nat.div_lt_iff_lt_mul (Nat.two_pow_pos j), ← Nat.pow_add]
    exact h
  rw [← Nat.shiftLeft_add_eq_or_of_lt hlow, Nat.shiftLeft_eq, Nat.shiftRight_eq_div_pow]

@[simp] theorem expand5_toNat (v : BitVec 5) : (expand5 v).toNat = v.toNat * 8 + v.toNat / 4 := by
  have hv : v.toNat < 32 := v.isLt
  rw [expand5, shiftLeft_or_shiftRight hv, BitVec.toNat_ofNat, Nat.mod_eq_of_lt (by omega)]
  rfl

@[simp] theorem expand6_toNat (v : BitVec 6) : (expand6 v).toNat = v.toNat * 4 + v.toNat / 16 := by
  have hv : v.toNat < 64 := v.isLt
  rw [expand6, shiftLeft_or_shiftRight hv, BitVec.toNat_ofNat, Nat.mod_eq_of_lt (by omega)]
  rfl

/-- The red channel expands the field `c[15:11]` (30_encoding.md R72). -/
theorem expand_r_toNat (c : BitVec 16) : (expand c).r.toNat = c.toNat / 2048 * 8 + c.toNat / 2048 / 4 := by
  have hc : c.toNat < 65536 := c.isLt
  have hfield : (c.extractLsb' 11 5).toNat = c.toNat / 2048 := by
    rw [BitVec.extractLsb'_toNat, Nat.shiftRight_eq_div_pow]; omega
  rw [expand, expand5_toNat, hfield]

/-- The green channel expands the field `c[10:5]`. -/
theorem expand_g_toNat (c : BitVec 16) : (expand c).g.toNat = c.toNat / 32 % 64 * 4 + c.toNat / 32 % 64 / 16 := by
  have hfield : (c.extractLsb' 5 6).toNat = c.toNat / 32 % 64 := by
    rw [BitVec.extractLsb'_toNat, Nat.shiftRight_eq_div_pow]
  rw [expand, expand6_toNat, hfield]

/-- The blue channel expands the field `c[4:0]`. -/
theorem expand_b_toNat (c : BitVec 16) : (expand c).b.toNat = c.toNat % 32 * 8 + c.toNat % 32 / 4 := by
  have hfield : (c.extractLsb' 0 5).toNat = c.toNat % 32 := by
    rw [BitVec.extractLsb'_toNat, Nat.shiftRight_zero]
  rw [expand, expand5_toNat, hfield]

/-- The high bits of the three channels are the three fields, which make up the packed endpoint (40_bc1_decoder.md R111). -/
theorem expand_injective : Function.Injective expand := by
  intro u v h
  have hr := expand_r_toNat v
  have hg := expand_g_toNat v
  have hb := expand_b_toNat v
  rw [← h, expand_r_toNat] at hr
  rw [← h, expand_g_toNat] at hg
  rw [← h, expand_b_toNat] at hb
  have hred : u.toNat / 2048 = v.toNat / 2048 := by omega
  have hgreen : u.toNat / 32 % 64 = v.toNat / 32 % 64 := by omega
  have hblue : u.toNat % 32 = v.toNat % 32 := by omega
  exact BitVec.eq_of_toNat_eq (by omega)

end Sys2Proof.Machine

/-! ## The tables (40_bc1_decoder.md R109 to R111) -/

namespace Sys2Proof.Machine

open Sys2Proof

@[simp] theorem third_toNat (u v : Byte) : (third u v).toNat = (2 * u.toNat + v.toNat) / 3 := by
  have hu : u.toNat < 256 := u.isLt
  have hv : v.toNat < 256 := v.isLt
  rw [third, BitVec.toNat_ofNat, Nat.mod_eq_of_lt (by omega)]

@[simp] theorem half_toNat (u v : Byte) : (half u v).toNat = (u.toNat + v.toNat) / 2 := by
  have hu : u.toNat < 256 := u.isLt
  have hv : v.toNat < 256 := v.isLt
  rw [half, BitVec.toNat_ofNat, Nat.mod_eq_of_lt (by omega)]

@[simp] theorem third_self (u : Byte) : third u u = u := BitVec.eq_of_toNat_eq (by rw [third_toNat]; omega)
@[simp] theorem half_self (u : Byte) : half u u = u := BitVec.eq_of_toNat_eq (by rw [half_toNat]; omega)

/-- A truncated third lies between its operands. -/
theorem third_between (u v : Byte) :
    min u.toNat v.toNat ≤ (third u v).toNat ∧ (third u v).toNat ≤ max u.toNat v.toNat := by
  rw [third_toNat]
  omega

/-- A mean of equal endpoints is the endpoint. -/
theorem mixRgb_self {f : Byte → Byte → Byte} (hf : ∀ u, f u u = u) (c : Rgb) : mixRgb f c c = opaquePixel c := by
  simp [mixRgb, opaquePixel, hf]

/-- Each colour channel of the 4-colour table holds the endpoints' bytes and their truncated thirds. -/
theorem lut4_channel {f : Pixel → Byte} (hf : f = Pixel.r ∨ f = Pixel.g ∨ f = Pixel.b) (c d : Rgb) :
    f (lut4 c d)[2] = third (f (lut4 c d)[0]) (f (lut4 c d)[1]) ∧
      f (lut4 c d)[3] = third (f (lut4 c d)[1]) (f (lut4 c d)[0]) := by
  rcases hf with rfl | rfl | rfl <;> exact ⟨rfl, rfl⟩

/-- Every entry of the 4-colour table lies between the endpoints, channel by channel. -/
theorem lut4_between {f : Pixel → Byte} (hf : f = Pixel.r ∨ f = Pixel.g ∨ f = Pixel.b) (c d : Rgb) (k : Fin 4) :
    min (f (lut4 c d)[0]).toNat (f (lut4 c d)[1]).toNat ≤ (f (lut4 c d)[k.val]).toNat ∧
      (f (lut4 c d)[k.val]).toNat ≤ max (f (lut4 c d)[0]).toNat (f (lut4 c d)[1]).toNat := by
  obtain ⟨h2, h3⟩ := lut4_channel hf c d
  match k with
  | 0 => exact ⟨min_le_left _ _, le_max_left _ _⟩
  | 1 => exact ⟨min_le_right _ _, le_max_right _ _⟩
  | 2 => exact h2 ▸ third_between _ _
  | 3 =>
    rw [min_comm, max_comm]
    exact h3 ▸ third_between _ _

/-- Equal endpoints give four equal entries (40_bc1_decoder.md R111). -/
theorem lut4_self (c : Rgb) (k : Fin 4) : (lut4 c c)[k.val] = opaquePixel c := by
  match k with
  | 0 | 1 => rfl
  | 2 | 3 => exact mixRgb_self third_self c

/-- BC1.LUT4 completes where both expanded endpoints have a value. -/
theorem exec_bc1Lut4 {s : State} {c d : Rgb} (hc : s.dp.e0Rgb = some c) (hd : s.dp.e1Rgb = some d) :
    exec .bc1Lut4 s = .next { s with dp := { s.dp with table := some (lut4 c d), four := some true } } := by
  change execBc1Lut4 s = _
  rw [execBc1Lut4, hc, hd, regValue_some, regValue_some, withValue_ok, withValue_ok]

/-- BC1.LUT3 completes where both expanded endpoints have a value. -/
theorem exec_bc1Lut3 {s : State} {c d : Rgb} (hc : s.dp.e0Rgb = some c) (hd : s.dp.e1Rgb = some d) :
    exec .bc1Lut3 s = .next { s with dp := { s.dp with table := some (lut3 c d), four := some false } } := by
  change execBc1Lut3 s = _
  rw [execBc1Lut3, hc, hd, regValue_some, regValue_some, withValue_ok, withValue_ok]

end Sys2Proof.Machine

/-! ## The lookup (40_bc1_decoder.md R115 to R118) -/

namespace Sys2Proof.Machine

open Sys2Proof

/-- Where a row fits in the stride, the offset of a channel byte determines its in-bounds lane and its channel. -/
theorem lanePix_add_inj {L : Latch} {o : Origin} {p q : Lane} {k l : Fin 4} (hstride : 4 * L.w.toNat ≤ L.stride.toNat)
    (hp : inBounds L o p = true) (hq : inBounds L o q = true) (h : lanePix L o p + k.val = lanePix L o q + l.val) :
    p = q ∧ k = l := by
  obtain ⟨hcol, hrow, hk⟩ := Latch.pix_add_inj hstride (inBounds_iff.mp hp).1 (inBounds_iff.mp hq).1 h
  unfold laneX at hcol
  unfold laneY at hrow
  exact ⟨Fin.ext (by omega), hk⟩

/-- The lookup stores the channels of each in-bounds lane's table entry, A in punch-through-capable mode only. -/
theorem mem_colourStores {om : OpacityMode} {L : Latch} {o : Origin} {t : Vector Pixel 4} {x : Vector (BitVec 2) 16}
    {c : Host.Cell} :
    c ∈ colourStores om L o t x ↔ ∃ p : Lane, inBounds L o p = true ∧ ∃ k : Fin 4,
      (k = 3 → om = .punchThroughCapable) ∧ c = (lanePix L o p + k.val, channel (tableAt t x p) k) := by
  have hlane : ∀ p : Lane, c ∈ colourLaneStores om L o t x p ↔ inBounds L o p = true ∧ ∃ k : Fin 4,
      (k = 3 → om = .punchThroughCapable) ∧ c = (lanePix L o p + k.val, channel (tableAt t x p) k) := by
    intro p
    by_cases hb : inBounds L o p = true
    · simp [colourLaneStores, hb, Fin.exists_fin_succ, channel]
    · simp [colourLaneStores, hb]
  simp [colourStores, lanes, hlane]

/-- After the lookup's stores, a channel byte that an in-bounds lane stores is its table entry's. -/
theorem read_colourStores {om : OpacityMode} {L : Latch} {o : Origin} {p : Lane} {k : Fin 4}
    (hstride : 4 * L.w.toNat ≤ L.stride.toNat) (hp : inBounds L o p = true) (hk : k = 3 → om = .punchThroughCapable)
    (m : Memory) (t : Vector Pixel 4) (x : Vector (BitVec 2) 16) :
    Memory.read (Memory.writeCells m (colourStores om L o t x)) (lanePix L o p + k.val) =
      some (channel (tableAt t x p) k) := by
  refine Memory.read_writeCells_stored m _ (mem_colourStores.mpr ⟨p, hp, k, hk, rfl⟩) fun c hc haddr => ?_
  obtain ⟨q, hq, l, -, rfl⟩ := mem_colourStores.mp hc
  obtain ⟨rfl, rfl⟩ := lanePix_add_inj hstride hq hp haddr
  rfl

/-- In always-opaque mode the lookup leaves the A bytes of the in-bounds lanes alone. -/
theorem read_alpha_colourStores_alwaysOpaque {L : Latch} {o : Origin} {p : Lane}
    (hstride : 4 * L.w.toNat ≤ L.stride.toNat) (hp : inBounds L o p = true)
    (m : Memory) (t : Vector Pixel 4) (x : Vector (BitVec 2) 16) :
    Memory.read (Memory.writeCells m (colourStores .alwaysOpaque L o t x)) (lanePix L o p + 3) =
      Memory.read m (lanePix L o p + 3) := by
  refine Memory.read_writeCells_frame m _ fun c hc haddr => ?_
  obtain ⟨q, hq, l, hl, rfl⟩ := mem_colourStores.mp hc
  obtain ⟨-, rfl⟩ := lanePix_add_inj (l := 3) hstride hq hp haddr
  cases hl rfl

/-- BC1.LOOKUP completes where its registers have values and DST is long enough: it makes its stores. -/
theorem exec_bc1Lookup {s : State} {L : Latch} {o : Origin} {t : Vector Pixel 4} {x : Vector (BitVec 2) 16}
    (hL : s.latch = some L) (ht : s.dp.table = some t) (hx : s.dp.idx2 = some x) (ho : s.dp.origin = some o)
    (hdst : L.dstReq ≤ L.dstLen.toNat) :
    exec .bc1Lookup s = .next { s with dst := Memory.writeCells s.dst (colourStores (opacityOf L.fmt) L o t x) } := by
  change execBc1Lookup s = _
  rw [execBc1Lookup, latched_eq_ok.mpr hL, ht, hx, ho]
  exact dstWriteAll_of_blockBytes hdst (fun _ => blockByte_of_mem_colourStores) s

end Sys2Proof.Machine

/-! ## The obligations about the BC1 block decoder -/

namespace Sys2Proof.Machine.Claims

open Sys2Proof Sys2Proof.Machine

/-- Settles O5: the operations are those of the block's fields, and their table is the one that `fourColour` picks. -/
theorem colourBlockSelectsTable : Obligations.ColourBlockSelectsTable := by
  intro om mode bs hlen
  obtain ⟨hc0, hc1, hidx⟩ := colourBlock_toNat hlen
  exact ⟨_, _, _, _, decode_colour_eq_ops.mpr ⟨hlen, rfl⟩, hc0, hc1, hidx, fun h => if_pos (fourColour_iff.mpr h),
    fun h => if_neg (mt fourColour_iff.mp h)⟩

/-- Settles O7: replication is `v * 2 ^ i + v / 2 ^ j`, of which each clause is arithmetic. -/
theorem expandReplicatesBits : Obligations.ExpandReplicatesBits := by
  refine ⟨fun c s => ⟨expand c, rfl, rfl, ?_⟩, fun u v h => ?_, fun u v h => ?_⟩
  · have hc : c.toNat < 65536 := c.isLt
    have hr := expand_r_toNat c
    have hg := expand_g_toNat c
    have hb := expand_b_toNat c
    refine ⟨?_, ?_, ?_, by omega, by omega, by omega, by omega, by omega, by omega⟩
    · exact hr.trans (shiftLeft_or_shiftRight (i := 3) (j := 2) (by omega)).symm
    · exact hg.trans (shiftLeft_or_shiftRight (i := 2) (j := 4) (by omega)).symm
    · exact hb.trans (shiftLeft_or_shiftRight (i := 3) (j := 2) (by omega)).symm
  · rw [expand5_toNat, expand5_toNat]
    omega
  · rw [expand6_toNat, expand6_toNat]
    omega

/-- Settles O9: entry 3 is entry 2 with the endpoints exchanged. -/
theorem fourColourTable : Obligations.FourColourTable := by
  intro c d s hc hd
  have hfar : ∀ u v : Byte, (third v u).toNat = (u.toNat + 2 * v.toNat) / 3 := fun u v => by rw [third_toNat, Nat.add_comm]
  exact ⟨lut4 c d, exec_bc1Lut4 hc hd, rfl, rfl, third_toNat _ _, third_toNat _ _, third_toNat _ _, rfl,
    hfar _ _, hfar _ _, hfar _ _, rfl,
    fun f hf => lut4_between hf c d, fun h k => h ▸ lut4_self c k, fun u v => @expand_injective u v⟩

/-- Settles O10: the half of equal endpoints is the endpoint. -/
theorem threeColourTable : Obligations.ThreeColourTable := by
  intro c d s hc hd
  have hself : c = d → (lut3 c d)[2] = opaquePixel c := fun h => h ▸ mixRgb_self half_self c
  exact ⟨lut3 c d, exec_bc1Lut3 hc hd, rfl, rfl, half_toNat _ _, half_toNat _ _, half_toNat _ _, rfl, rfl,
    fun h => ⟨(hself h).symm, h ▸ (hself h).symm⟩⟩

/-- Settles O12: no two stores of the lookup share an address, so each byte stored is the one read. -/
theorem colourLookupWritesPixels : Obligations.ColourLookupWritesPixels := by
  intro s L o t x hL ht hx ho hdst hstride
  refine ⟨_, exec_bc1Lookup hL ht hx ho hdst, fun p hp => ⟨?_, ?_, ?_, fun hfmt => ?_, fun hfmt => ?_⟩,
    fun a => Memory.read_writeCells_frame _ _⟩
  · exact read_colourStores (k := 0) hstride hp (absurd · (by decide)) _ t x
  · exact read_colourStores (k := 1) hstride hp (absurd · (by decide)) _ t x
  · exact read_colourStores (k := 2) hstride hp (absurd · (by decide)) _ t x
  · exact read_colourStores (k := 3) hstride hp (fun _ => by rw [hfmt]; rfl) _ t x
  · rw [hfmt]
    exact read_alpha_colourStores_alwaysOpaque hstride hp _ t x

/-- Settles O8, each table by evaluating the expansion of every value. -/
theorem expansionTables : Obligations.ExpansionTables := ⟨by decide, by decide⟩

end Sys2Proof.Machine.Claims

/-! # The BC3 alpha decoder (spec/41_bc3_alpha_decoder.md): the sub-block's fields, the two tables and the lookup -/

/-! ## The bytes of an alpha sub-block (30_encoding.md R75, 41_bc3_alpha_decoder.md R141) -/

namespace Sys2Proof

/-- The endpoints of an alpha sub-block are its bytes 0 and 1, its index field the little-endian number of bytes 2 to 7. -/
theorem alphaBlock_fields {bs : List Byte} (hlen : bs.length = 8) :
    (alphaBlock bs).e0 = bs[0] ∧ (alphaBlock bs).e1 = bs[1] ∧
      (alphaBlock bs).idx.toNat = bs[2].toNat + 256 * bs[3].toNat + 65536 * bs[4].toNat + 16777216 * bs[5].toNat +
        4294967296 * bs[6].toNat + 1099511627776 * bs[7].toNat := by
  match bs, hlen with
  | [b0, b1, b2, b3, b4, b5, b6, b7], _ =>
    have he0 : (alphaBlock [b0, b1, b2, b3, b4, b5, b6, b7]).e0.toNat = le [b0] := toNat_ofNat_le (n := 1) rfl
    have he1 : (alphaBlock [b0, b1, b2, b3, b4, b5, b6, b7]).e1.toNat = le [b1] := toNat_ofNat_le (n := 1) rfl
    have hidx : (alphaBlock [b0, b1, b2, b3, b4, b5, b6, b7]).idx.toNat = le [b2, b3, b4, b5, b6, b7] :=
      toNat_ofNat_le (n := 6) rfl
    refine ⟨BitVec.eq_of_toNat_eq he0, BitVec.eq_of_toNat_eq he1, hidx.trans ?_⟩
    simp only [le_cons, le_nil, List.getElem_cons_zero, List.getElem_cons_succ]
    omega

/-- The 8-step table is selected by `e0 > e1`. -/
theorem alphaOps_of_gt {a : AlphaBlock} (h : a.e0.toNat > a.e1.toNat) :
    alphaOps a = [.bc3aLut8 a.e0 a.e1, .bc3aIdx3 a.idx, .bc3aLookup] := by
  rw [alphaOps, if_pos h]

/-- The 6-step table is selected by `e0 <= e1`. -/
theorem alphaOps_of_le {a : AlphaBlock} (h : a.e0.toNat ≤ a.e1.toNat) :
    alphaOps a = [.bc3aLut6 a.e0 a.e1, .bc3aIdx3 a.idx, .bc3aLookup] := by
  rw [alphaOps, if_neg (Nat.not_lt.mpr h)]

end Sys2Proof

/-! ## The tables (41_bc3_alpha_decoder.md R142, R143) -/

namespace Sys2Proof.Machine

open Sys2Proof

/-- A weighted sum of two values lies between the bounds that the values have, scaled by the sum of the weights. -/
theorem weightedSum_between {a b n u v lo hi : Nat} (hn : a + b = n) (hu : lo ≤ u ∧ u ≤ hi) (hv : lo ≤ v ∧ v ≤ hi) :
    n * lo ≤ a * u + b * v ∧ a * u + b * v ≤ n * hi := by
  subst hn
  rw [Nat.add_mul, Nat.add_mul]
  exact ⟨Nat.add_le_add (Nat.mul_le_mul_left a hu.1) (Nat.mul_le_mul_left b hv.1),
    Nat.add_le_add (Nat.mul_le_mul_left a hu.2) (Nat.mul_le_mul_left b hv.2)⟩

/-- An entry of the 8-step table is the mean with weights `8 - i` and `i - 1`, rounded to nearest: no bit is cut off. -/
theorem step8_toNat (e0 e1 : Byte) {i : Nat} (h1 : 1 ≤ i) (h8 : i ≤ 8) :
    (step8 e0 e1 i).toNat = ((8 - i) * e0.toNat + (i - 1) * e1.toNat + 3) / 7 := by
  have hsum := weightedSum_between (show 8 - i + (i - 1) = 7 by omega) ⟨Nat.zero_le _, Nat.le_of_lt_succ e0.isLt⟩
    ⟨Nat.zero_le _, Nat.le_of_lt_succ e1.isLt⟩
  rw [step8, BitVec.toNat_ofNat, Nat.mod_eq_of_lt (by omega)]

/-- An entry of the 6-step table is the mean with weights `6 - i` and `i - 1`, rounded to nearest: no bit is cut off. -/
theorem step6_toNat (e0 e1 : Byte) {i : Nat} (h1 : 1 ≤ i) (h6 : i ≤ 6) :
    (step6 e0 e1 i).toNat = ((6 - i) * e0.toNat + (i - 1) * e1.toNat + 2) / 5 := by
  have hsum := weightedSum_between (show 6 - i + (i - 1) = 5 by omega) ⟨Nat.zero_le _, Nat.le_of_lt_succ e0.isLt⟩
    ⟨Nat.zero_le _, Nat.le_of_lt_succ e1.isLt⟩
  rw [step6, BitVec.toNat_ofNat, Nat.mod_eq_of_lt (by omega)]

/-- An entry of the 8-step table lies between the endpoints. -/
theorem step8_between {e0 e1 : Byte} (he : e1.toNat ≤ e0.toNat) {i : Nat} (h1 : 1 ≤ i) (h8 : i ≤ 8) :
    e1.toNat ≤ (step8 e0 e1 i).toNat ∧ (step8 e0 e1 i).toNat ≤ e0.toNat := by
  have hsum := weightedSum_between (show 8 - i + (i - 1) = 7 by omega) ⟨he, le_rfl⟩ ⟨le_rfl, he⟩
  rw [step8_toNat e0 e1 h1 h8]
  omega

/-- An entry of the 6-step table lies between the endpoints. -/
theorem step6_between {e0 e1 : Byte} (he : e0.toNat ≤ e1.toNat) {i : Nat} (h1 : 1 ≤ i) (h6 : i ≤ 6) :
    e0.toNat ≤ (step6 e0 e1 i).toNat ∧ (step6 e0 e1 i).toNat ≤ e1.toNat := by
  have hsum := weightedSum_between (show 6 - i + (i - 1) = 5 by omega) ⟨le_rfl, he⟩ ⟨he, le_rfl⟩
  rw [step6_toNat e0 e1 h1 h6]
  omega

/-- The 8-step table does not increase: each entry moves one unit of weight from the greater endpoint to the smaller. -/
theorem step8_succ_le {e0 e1 : Byte} (he : e1.toNat ≤ e0.toNat) {i : Nat} (h1 : 1 ≤ i) (h7 : i ≤ 7) :
    (step8 e0 e1 (i + 1)).toNat ≤ (step8 e0 e1 i).toNat := by
  have hupper : (8 - i) * e0.toNat = (8 - (i + 1)) * e0.toNat + e0.toNat := by
    rw [← Nat.succ_mul]; congr 1; omega
  have hlower : (i + 1 - 1) * e1.toNat = (i - 1) * e1.toNat + e1.toNat := by
    rw [← Nat.succ_mul]; congr 1; omega
  rw [step8_toNat e0 e1 (by omega) (by omega), step8_toNat e0 e1 h1 (by omega)]
  exact Nat.div_le_div_right (by omega)

theorem lut8_getElem (e0 e1 : Byte) {i : Nat} (h2 : 2 ≤ i) (h7 : i ≤ 7) : (lut8 e0 e1)[i] = step8 e0 e1 i := by
  interval_cases i <;> rfl

theorem lut6_getElem (e0 e1 : Byte) {i : Nat} (h2 : 2 ≤ i) (h5 : i ≤ 5) : (lut6 e0 e1)[i] = step6 e0 e1 i := by
  interval_cases i <;> rfl

end Sys2Proof.Machine

/-! ## The lookup (41_bc3_alpha_decoder.md R148) -/

namespace Sys2Proof.Machine

open Sys2Proof

/-- The lookup stores each in-bounds lane's table entry at its A byte. -/
theorem mem_alphaStores {L : Latch} {o : Origin} {t : Vector Byte 8} {x : Vector (BitVec 3) 16} {c : Host.Cell} :
    c ∈ alphaStores L o t x ↔ ∃ p : Lane, inBounds L o p = true ∧ c = (lanePix L o p + 3, valueAt t x p) := by
  simp [alphaStores, alphaLaneStores, lanes]

/-- After the lookup's stores, an in-bounds lane's A byte is its table entry. -/
theorem read_alphaStores {L : Latch} {o : Origin} {p : Lane} (hstride : 4 * L.w.toNat ≤ L.stride.toNat)
    (hp : inBounds L o p = true) (m : Memory) (t : Vector Byte 8) (x : Vector (BitVec 3) 16) :
    Memory.read (Memory.writeCells m (alphaStores L o t x)) (lanePix L o p + 3) = some (valueAt t x p) := by
  refine Memory.read_writeCells_stored m _ (mem_alphaStores.mpr ⟨p, hp, rfl⟩) fun c hc haddr => ?_
  obtain ⟨q, hq, rfl⟩ := mem_alphaStores.mp hc
  obtain ⟨rfl, -⟩ := lanePix_add_inj (k := 3) (l := 3) hstride hq hp haddr
  rfl

/-- The lookup's stores leave every byte alone that is no A byte of an in-bounds lane. -/
theorem read_alphaStores_frame {L : Latch} {o : Origin} {a : Nat}
    (ha : ∀ p : Lane, inBounds L o p = true → a ≠ lanePix L o p + 3) (m : Memory) (t : Vector Byte 8)
    (x : Vector (BitVec 3) 16) : Memory.read (Memory.writeCells m (alphaStores L o t x)) a = Memory.read m a := by
  refine Memory.read_writeCells_frame m _ fun c hc => ?_
  obtain ⟨p, hp, rfl⟩ := mem_alphaStores.mp hc
  exact (ha p hp).symm

/-- BC3A.LOOKUP completes where its registers have values and DST is long enough: it makes its stores. -/
theorem exec_bc3aLookup {s : State} {L : Latch} {o : Origin} {t : Vector Byte 8} {x : Vector (BitVec 3) 16}
    (hL : s.latch = some L) (ht : s.dp.value = some t) (hx : s.dp.idx3 = some x) (ho : s.dp.origin = some o)
    (hdst : L.dstReq ≤ L.dstLen.toNat) :
    exec .bc3aLookup s = .next { s with dst := Memory.writeCells s.dst (alphaStores L o t x) } := by
  change execBc3aLookup s = _
  rw [execBc3aLookup, latched_eq_ok.mpr hL, ht, hx, ho]
  exact dstWriteAll_of_blockBytes hdst (fun _ => blockByte_of_mem_alphaStores) s

end Sys2Proof.Machine

/-! ## The obligations about the BC3 alpha decoder -/

namespace Sys2Proof.Machine.Claims

open Sys2Proof Sys2Proof.Machine

/-- Settles O6: the operations are those of the sub-block's fields, and their table is the one that the order of the endpoints
picks. -/
theorem alphaBlockSelectsTable : Obligations.AlphaBlockSelectsTable := by
  intro bs hlen
  obtain ⟨he0, he1, hidx⟩ := alphaBlock_fields hlen
  refine ⟨(alphaBlock bs).idx, hidx, ?_⟩
  rw [← he0, ← he1]
  exact ⟨fun h => decode_alpha_eq_ops.mpr ⟨hlen, (alphaOps_of_gt h).symm⟩,
    fun h => decode_alpha_eq_ops.mpr ⟨hlen, (alphaOps_of_le h).symm⟩⟩

/-- Settles O14: an entry is the rounded mean of weights that add up to 7, and the next one leans further to `e1`. -/
theorem eightStepAlphaTable : Obligations.EightStepAlphaTable := by
  intro e0 e1 s he
  refine ⟨lut8 e0 e1, rfl, rfl, rfl, fun i h2 h7 => ?_⟩
  have hmean := step8_toNat e0 e1 (i := i) (by omega) (by omega)
  obtain ⟨hlower, hupper⟩ := step8_between (Nat.le_of_lt he) (i := i) (by omega) (by omega)
  rw [lut8_getElem e0 e1 h2 h7]
  refine ⟨hmean, by omega, by omega, hlower, hupper, fun hnext => ?_⟩
  rw [lut8_getElem e0 e1 (by omega) hnext, lut8_getElem e0 e1 h2 h7]
  exact step8_succ_le (Nat.le_of_lt he) (by omega) h7

/-- Settles O15: an entry of 2 to 5 is the rounded mean of weights that add up to 5. -/
theorem sixStepAlphaTable : Obligations.SixStepAlphaTable := by
  intro e0 e1 s he
  refine ⟨lut6 e0 e1, rfl, rfl, rfl, rfl, rfl, fun i h2 h5 => ?_⟩
  have hmean := step6_toNat e0 e1 (i := i) (by omega) (by omega)
  obtain ⟨hlower, hupper⟩ := step6_between he (i := i) (by omega) (by omega)
  rw [lut6_getElem e0 e1 h2 h5]
  exact ⟨hmean, by omega, by omega, hlower, hupper⟩

/-- Settles O17: the A bytes of distinct in-bounds lanes are distinct, so each byte stored is the one read. -/
theorem alphaLookupWritesAlpha : Obligations.AlphaLookupWritesAlpha := by
  intro s L o t x hL ht hx ho hdst hstride
  exact ⟨_, exec_bc3aLookup hL ht hx ho hdst, fun p hp => read_alphaStores hstride hp _ t x,
    fun a ha => read_alphaStores_frame ha _ t x⟩

end Sys2Proof.Machine.Claims

/-! # The transforms (spec/42_color_transform.md): one pixel's bytes, the square root, and the DECODE.BC1 pixel -/

/-! ## The bytes of a transformed pixel (42_color_transform.md R160) -/

namespace Sys2Proof.Machine

open Sys2Proof

/-- A pixel that reads has its four bytes in range, and they are the bytes that DST holds. -/
theorem byteAt_of_pixelRead {L : Latch} {s : State} {base : Nat} {P : Pixel} (hP : pixelRead L s base = .ok P)
    (k : Fin 4) : base + k.val < L.dstLen.toNat ∧ Memory.byteAt .dst s.dst (base + k.val) = channel P k := by
  obtain ⟨hr, hg, hb, ha⟩ := pixelRead_eq_ok.mp hP
  match k with
  | 0 => exact dstRead_eq_ok.mp hr
  | 1 => exact dstRead_eq_ok.mp hg
  | 2 => exact dstRead_eq_ok.mp hb
  | 3 => exact dstRead_eq_ok.mp ha

/-- After the stores of a pixel, each stored channel byte is the pixel's. -/
theorem read_pixelStores {ks : List (Fin 4)} {k : Fin 4} (hk : k ∈ ks) (m : Memory) (base : Nat) (P : Pixel) :
    Memory.read (Memory.writeCells m (pixelStores base P ks)) (base + k.val) = some (channel P k) := by
  refine Memory.read_writeCells_stored m _ (List.mem_map.mpr ⟨k, hk, rfl⟩) fun c hc haddr => ?_
  obtain ⟨l, -, rfl⟩ := List.mem_map.mp hc
  rw [Fin.ext (Nat.add_left_cancel haddr)]

/-- The stores of a pixel leave every other address alone. -/
theorem read_pixelStores_frame {ks : List (Fin 4)} {base a : Nat} (ha : ∀ k ∈ ks, a ≠ base + k.val) (m : Memory)
    (P : Pixel) : Memory.read (Memory.writeCells m (pixelStores base P ks)) a = Memory.read m a := by
  refine Memory.read_writeCells_frame m _ fun c hc => ?_
  obtain ⟨k, hk, rfl⟩ := List.mem_map.mp hc
  exact (ha k hk).symm

/-- A channel that is not stored keeps the byte that was read, written or not. -/
theorem byteAt_pixelStores_of_notMem {L : Latch} {s : State} {base : Nat} {P : Pixel} {ks : List (Fin 4)} {k : Fin 4}
    (hP : pixelRead L s base = .ok P) (hk : k ∉ ks) (Q : Pixel) :
    Memory.byteAt .dst (Memory.writeCells s.dst (pixelStores base Q ks)) (base + k.val) = channel P k := by
  obtain ⟨-, hbyte⟩ := byteAt_of_pixelRead hP k
  rw [← hbyte]
  refine Memory.byteAt_congr (read_pixelStores_frame (fun l hl haddr => hk ?_) s.dst Q)
  rwa [Fin.ext (Nat.add_left_cancel haddr)]

/-- A transform of an in-bounds pixel that reads completes: it makes the stores of the changed channels. -/
theorem transformPixel_of_inBounds {s : State} {L : Latch} {o : Origin} {p : Lane} {P : Pixel} (hL : s.latch = some L)
    (ho : s.dp.origin = some o) (hb : inBounds L o p = true) (hP : pixelRead L s (lanePix L o p) = .ok P)
    (f : Pixel → Pixel) (ks : List (Fin 4)) :
    transformPixel p f ks s =
      .next { s with dst := Memory.writeCells s.dst (pixelStores (lanePix L o p) (f P) ks) } := by
  refine transformPixel_eq_next.mpr ⟨L, o, hL, ho, .inr ⟨hb, P, hP, dstWriteAll_eq_next.mpr ⟨fun c hc => ?_, rfl⟩⟩⟩
  obtain ⟨k, -, rfl⟩ := List.mem_map.mp hc
  exact (byteAt_of_pixelRead hP k).1

/-- A transform of an overhang pixel changes nothing. -/
theorem transformPixel_of_overhang {s : State} {L : Latch} {o : Origin} {p : Lane} (hL : s.latch = some L)
    (ho : s.dp.origin = some o) (hb : inBounds L o p = false) (f : Pixel → Pixel) (ks : List (Fin 4)) :
    transformPixel p f ks s = .next s :=
  transformPixel_eq_next.mpr ⟨L, o, hL, ho, .inl ⟨hb, rfl⟩⟩

end Sys2Proof.Machine

/-! ## The square root (00_scope.md R11, 42_color_transform.md R164, R167) -/

namespace Sys2Proof.Machine

open Sys2Proof

/-- The model's integer square root is the library's. -/
theorem isqrt_eq_sqrt (n : Nat) : isqrt n = Nat.sqrt n := Nat.eq_sqrt.mpr (isqrt_spec n)

/-- `D` is the difference of the squares, clamped at 0. -/
theorem nrmD_cast (r g : Byte) :
    (nrmD r g : Int) = max 0 (65025 - (2 * (r.toNat : Int) - 255) ^ 2 - (2 * (g.toNat : Int) - 255) ^ 2) := by
  rw [nrmD, Int.toNat_eq_max, max_comm]

theorem nrmD_le (r g : Byte) : nrmD r g ≤ 65025 := by
  have hD := nrmD_cast r g
  have hr := sq_nonneg (2 * (r.toNat : Int) - 255)
  have hg := sq_nonneg (2 * (g.toNat : Int) - 255)
  omega

/-- B is `128 + isqrt(D // 4)`: the root is below 128, so no bit is cut off. -/
theorem nrmB_toNat (r g : Byte) : (nrmB r g).toNat = 128 + Nat.sqrt (nrmD r g / 4) := by
  have hD := nrmD_le r g
  have hroot : Nat.sqrt (nrmD r g / 4) < 128 := Nat.sqrt_lt.mpr (by omega)
  rw [nrmB, isqrt_eq_sqrt, BitVec.toNat_ofNat, Nat.mod_eq_of_lt (by omega)]

/-- Half the integer root is the integer root of the quarter: each is at least `n` where `(2 * n) ^ 2` is at most `d`. -/
theorem sqrt_div_two (d : ℕ) : Nat.sqrt d / 2 = Nat.sqrt (d / 4) := by
  refine eq_of_forall_le_iff fun n => ?_
  rw [Nat.le_div_iff_mul_le (by decide), Nat.le_sqrt, Nat.le_sqrt, Nat.le_div_iff_mul_le (by decide), Nat.mul_mul_mul_comm]

/-- Half the real root rounds down to the integer root of the quarter. -/
theorem floor_sqrt_div_two (d : ℕ) : ⌊√(d : ℝ) / 2⌋ = (Nat.sqrt (d / 4) : ℤ) := by
  rw [← sqrt_div_two, ← Nat.cast_ofNat, Int.floor_div_natCast, Real.floor_real_sqrt_eq_nat_sqrt, ← Int.natCast_div]

/-- The radicand of R167 is `D` scaled to the unit sphere: `255 ^ 2 = 65025`. -/
theorem max_one_sub_sq_eq_nrmD_div (r g : Byte) :
    max 0 (1 - (2 * (r.toNat : ℝ) / 255 - 1) ^ 2 - (2 * (g.toNat : ℝ) / 255 - 1) ^ 2) = (nrmD r g : ℝ) / 255 ^ 2 := by
  have hD : (nrmD r g : ℝ) = max 0 (65025 - (2 * (r.toNat : ℝ) - 255) ^ 2 - (2 * (g.toNat : ℝ) - 255) ^ 2) := by
    exact_mod_cast nrmD_cast r g
  rw [hD, ← max_div_div_right (by norm_num), zero_div]
  congr 1
  ring

/-- Where R is 0 or 255, its square leaves nothing, whatever G. -/
theorem nrmB_of_extreme {r : Byte} (hr : r = 0 ∨ r = 255) (g : Byte) : nrmB r g = 128 := by
  have hsq : (2 * (r.toNat : Int) - 255) ^ 2 = 65025 := by rcases hr with rfl | rfl <;> rfl
  have hg := sq_nonneg (2 * (g.toNat : Int) - 255)
  have hD := nrmD_cast r g
  have hzero : nrmD r g = 0 := by omega
  exact BitVec.eq_of_toNat_eq (by rw [nrmB_toNat, hzero]; rfl)

end Sys2Proof.Machine

/-! ## The A bytes of the BC1 tables (40_bc1_decoder.md R109, R110) -/

namespace Sys2Proof.Machine

open Sys2Proof

/-- Every entry of the 4-colour table is opaque. -/
theorem lut4_alpha (c d : Rgb) (k : Fin 4) : (lut4 c d)[k.val].a = 255 := by
  match k with
  | 0 | 1 | 2 | 3 => rfl

/-- Every entry of the 3-colour table is opaque or transparent. -/
theorem lut3_alpha (c d : Rgb) (k : Fin 4) : (lut3 c d)[k.val].a = 0 ∨ (lut3 c d)[k.val].a = 255 := by
  match k with
  | 0 | 1 | 2 => exact .inr rfl
  | 3 => exact .inl rfl

end Sys2Proof.Machine

/-! ## The obligations about the transforms -/

namespace Sys2Proof.Machine.Claims

open Sys2Proof Sys2Proof.Machine

/-- Settles O18: R and A are stored exchanged, G and B are not stored. -/
theorem swapExchangesRedAndAlpha : Obligations.SwapExchangesRedAndAlpha := by
  intro s L o p P h y f hL ho hb hP
  refine ⟨_, transformPixel_of_inBounds hL ho hb hP swapRa [0, 3], ?_, ?_, ?_, ?_, fun a h0 h3 => ?_⟩
  · exact read_pixelStores (k := 0) (by decide) _ _ _
  · exact byteAt_pixelStores_of_notMem (k := 1) hP (by decide) _
  · exact byteAt_pixelStores_of_notMem (k := 2) hP (by decide) _
  · exact read_pixelStores (k := 3) (by decide) _ _ _
  · exact read_pixelStores_frame (by simpa using ⟨h0, h3⟩) _ _

/-- Settles O19: `d` is the model's `D`, and a root with the two bounds is the integer root. -/
theorem sqrtReconstructsBlue : Obligations.SqrtReconstructsBlue := by
  intro s L o p P y f d q hL ho hb hP hd hlow hhigh
  have hD : d = nrmD P.r P.g := Int.ofNat_inj.mp (hd.trans (nrmD_cast P.r P.g).symm)
  have hq : q = Nat.sqrt (nrmD P.r P.g / 4) := hD ▸ Nat.eq_sqrt.mpr ⟨hlow, hhigh⟩
  refine ⟨_, nrmB P.r P.g, transformPixel_of_inBounds hL ho hb hP nrmSqrt [2], hq ▸ nrmB_toNat P.r P.g, ?_, fun a h2 => ?_⟩
  · exact read_pixelStores (k := 2) (by decide) _ _ _
  · exact read_pixelStores_frame (by simpa using h2) _ _

/-- Settles O20: all four channels are stored. -/
theorem ycocgAppliesTheParameter : Obligations.YcocgAppliesTheParameter := by
  intro s L o p P h n f hL ho hb hP
  have hall : ∀ k : Fin 4, k ∈ ([0, 1, 2, 3] : List (Fin 4)) := by decide
  exact ⟨_, transformPixel_of_inBounds hL ho hb hP Config.ycocgInv [0, 1, 2, 3],
    fun k => read_pixelStores (hall k) _ _ _, fun a ha => read_pixelStores_frame (fun k _ => ha k) _ _⟩

/-- Settles O21: R, G and B are stored, A is not. -/
theorem hemioctAppliesTheParameter : Obligations.HemioctAppliesTheParameter := by
  intro s L o p P y f hL ho hb hP
  refine ⟨_, transformPixel_of_inBounds hL ho hb hP nrmHemioct [0, 1, 2], ?_, ?_, ?_, ?_, fun a h0 h1 h2 => ?_⟩
  · exact read_pixelStores (k := 0) (by decide) _ _ _
  · exact read_pixelStores (k := 1) (by decide) _ _ _
  · exact read_pixelStores (k := 2) (by decide) _ _ _
  · exact byteAt_pixelStores_of_notMem (k := 3) hP (by decide) _
  · exact read_pixelStores_frame (by simpa using ⟨h0, h1, h2⟩) _ _

/-- Settles O23: `127.5 * (z + 1) + 1 / 2` is half the root of `D`, plus 128. -/
theorem sqrtIntegerFormEqualsRealForm : Obligations.SqrtIntegerFormEqualsRealForm := by
  intro r g
  have hform : (127.5 : ℝ) * (√((nrmD r g : ℝ) / 255 ^ 2) + 1) + 1 / 2 = √(nrmD r g : ℝ) / 2 + 128 := by
    rw [Real.sqrt_div' _ (by norm_num), Real.sqrt_sq (by norm_num)]
    ring
  rw [max_one_sub_sq_eq_nrmD_div, hform, Int.floor_add_ofNat, floor_sqrt_div_two, nrmB_toNat, Nat.cast_add, add_comm]
  rfl

/-- Settles O22: the four operations are transforms of the pixel. -/
theorem transformsSkipOverhang : Obligations.TransformsSkipOverhang := by
  intro s L o p h n y f hL ho hb
  have hskip := transformPixel_of_overhang hL ho hb
  exact ⟨hskip _ _, hskip _ _, hskip _ _, hskip _ _⟩

/-- Settles O24: the swap makes R the table entry's A, which is 0 or 255. -/
theorem bc1NormalisedBlueIs128 : Obligations.Bc1NormalisedBlueIs128 := by
  intro c d x p
  exact ⟨nrmB_of_extreme (.inr (lut4_alpha c d (x[p.val]'p.isLt).toFin)) _,
    nrmB_of_extreme (lut3_alpha c d (x[p.val]'p.isLt).toFin) _⟩

end Sys2Proof.Machine.Claims

/-! # The orchestrator (spec/43_orchestrator.md): START, the block step, and the command from its start to its end -/

/-! ## The checks of START (60_exceptions.md R212 to R215) -/

namespace Sys2Proof.Machine

open Sys2Proof

/-- CTRL[31:4] is the quotient by 16. -/
theorem ctrlReserved_eq_zero_iff (w : Word) : ctrlReserved w = 0 ↔ w.toNat / 16 = 0 := by
  have hw : w.toNat < 4294967296 := w.isLt
  have hbits : (ctrlReserved w).toNat = w.toNat / 16 := by
    rw [ctrlReserved, BitVec.extractLsb'_toNat, Nat.shiftRight_eq_div_pow]
    omega
  rw [← hbits]
  exact ⟨fun h => by rw [h]; rfl, fun h => BitVec.eq_of_toNat_eq h⟩

/-- The causes of InvalidConfiguration (60_exceptions.md R212). -/
theorem badConfig_iff {ctrl : Word} {L : Latch} :
    badConfig ctrl L = true ↔
      ctrl.toNat / 16 ≠ 0 ∨ (L.hemioct = true ∧ L.normalize = false) ∨ L.w = 0 ∨ L.h = 0 ∨
        L.stride.toNat < 4 * L.w.toNat := by
  simp only [badConfig, Bool.or_eq_true, Bool.and_eq_true, bne_iff_ne, beq_iff_eq, decide_eq_true_eq,
    Bool.not_eq_true', ne_eq, ctrlReserved_eq_zero_iff, or_assoc]

/-! ### The checks in their order: an error is reported where the checks before it pass (60_exceptions.md R215) -/

theorem startError_of_badConfig {ctrl : Word} {L : Latch} (h : badConfig ctrl L = true) :
    startError ctrl L = some .invalidConfiguration := if_pos h

theorem startError_of_short {ctrl : Word} {L : Latch} (h : ¬badConfig ctrl L = true) (hsrc : L.srcLen.toNat < L.srcReq) :
    startError ctrl L = some .inputTooShort := (if_neg h).trans (if_pos hsrc)

theorem startError_of_small {ctrl : Word} {L : Latch} (h : ¬badConfig ctrl L = true) (hsrc : ¬L.srcLen.toNat < L.srcReq)
    (hdst : L.dstLen.toNat < L.dstReq) : startError ctrl L = some .destinationTooSmall :=
  (if_neg h).trans ((if_neg hsrc).trans (if_pos hdst))

theorem startError_of_passed {ctrl : Word} {L : Latch} (h : ¬badConfig ctrl L = true) (hsrc : ¬L.srcLen.toNat < L.srcReq)
    (hdst : ¬L.dstLen.toNat < L.dstReq) : startError ctrl L = none :=
  (if_neg h).trans ((if_neg hsrc).trans (if_neg hdst))

end Sys2Proof.Machine

/-! ## The block step, one equation per case (43_orchestrator.md R185, R190) -/

namespace Sys2Proof.Machine

open Sys2Proof Sys2Proof.Machine.Claims

/-- While not BUSY a block step does nothing (60_exceptions.md R226). -/
theorem execBlockStep_of_not_busy {s : State} (hb : s.status ≠ .busy) : execBlockStep s = .next s := if_neg hb

/-- With no block row left a block step does nothing (60_exceptions.md R226). -/
theorem execBlockStep_of_no_row {s : State} {L : Latch} (hL : s.latch = some L) (hrow : L.bcy ≤ s.bY) :
    execBlockStep s = .next s := by
  simp [execBlockStep, latched_eq_ok.mpr hL, hrow]

/-- An enabled block step cancels where ABORT was requested (43_orchestrator.md R190). -/
theorem execBlockStep_of_abort {s : State} {L : Latch} (hb : s.status = .busy) (hL : s.latch = some L)
    (hrow : s.bY < L.bcy) (ha : s.abortReq = true) : execBlockStep s = .next (cancel s) := by
  simp [execBlockStep, hb, latched_eq_ok.mpr hL, hrow, ha]

/-- An enabled block step that is not cancelled decodes the block picked. -/
theorem execBlockStep_of_enabled {s : State} {L : Latch} (hb : s.status = .busy) (hL : s.latch = some L)
    (hrow : s.bY < L.bcy) (ha : s.abortReq = false) :
    execBlockStep s = stepBlock L (pickBlock L s).1 (pickBlock L s).2 := by
  simp [execBlockStep, hb, latched_eq_ok.mpr hL, hrow, ha]

/-- With WORKERS = 1 the block picked is the one at the position (43_orchestrator.md R183). -/
theorem pickBlock_of_oneWorker {s : State} (hw : s.params.extraWorkers = 0) (L : Latch) :
    pickBlock L s = (blockNumber L s, s) := if_pos hw

/-- The block at the position stands at the sequencer's own column, row and CURSOR. -/
theorem blockPlace_position (L : Latch) (s : State) : blockPlace L s (blockNumber L s) = (s.bX, s.bY, s.cursor) := if_pos rfl

/-- A list of operations of a block runs each with its own meaning. -/
theorem runExec_eq_runOps {xs : List Instr} (h : ∀ x ∈ xs, isBlockOp x = true) (s : State) : runExec xs s = runOps xs s := by
  induction xs generalizing s with
  | nil => rfl
  | cons x xs ih =>
    have htail : runExec xs = runOps xs := funext fun t => ih (fun y hy => h y (List.mem_cons_of_mem x hy)) t
    rw [runExec, runOps, runOp_eq_exec (h x List.mem_cons_self), htail]

end Sys2Proof.Machine

/-! ## The obligations about START, ABORT and the form of the block step -/

namespace Sys2Proof.Machine.Claims

open Sys2Proof Sys2Proof.Machine

/-- Settles O26: the model's checks are the conditions written out, in the order of the clauses. -/
theorem startChecksThenBegins : Obligations.StartChecksThenBegins := by
  rintro fmt s L t bad short small rfl rfl rfl rfl rfl
  have hbad := badConfig_iff (ctrl := s.ctrl) (L := latchOf fmt s)
  have hshort : (latchOf fmt s).srcReq =
      (s.width.toNat + 3) / 4 * ((s.height.toNat + 3) / 4) * (if fmt = .bc1 then 8 else 16) := by cases fmt <;> rfl
  rw [← hshort, exec_startOf]
  refine ⟨fun hb => ?_, fun hb h => ?_, fun hb h hsrc => ?_, fun hb h hsrc hdst => ?_, fun hb h hsrc hdst => ?_⟩
  · rw [start_of_busy hb]
  · rw [start_of_error hb (startError_of_badConfig (hbad.mpr h))]
    rfl
  · rw [start_of_error hb (startError_of_short (mt hbad.mp h) hsrc)]
    rfl
  · rw [start_of_error hb (startError_of_small (mt hbad.mp h) hsrc hdst)]
    rfl
  · rw [start_of_accepted hb (startError_of_passed (mt hbad.mp h) hsrc hdst)]
    rfl

/-- Settles O28. -/
theorem abortCancelsTheNextBlockStep : Obligations.AbortCancelsTheNextBlockStep := by
  intro s
  have habort : ∀ u : State, u.status = .busy → exec .abort u = .next { u with abortReq := true } :=
    fun u hb => congrArg Host.Outcome.next (if_pos hb)
  exact ⟨fun hb => congrArg Host.Outcome.next (if_neg hb),
    fun hb => ⟨habort s hb, habort { s with abortReq := true } hb,
      fun L hL hrow => execBlockStep_of_abort (s := { s with abortReq := true }) hb hL hrow rfl⟩⟩

/-- Settles O31. -/
theorem disabledBlockStepChangesNothing : Obligations.DisabledBlockStepChangesNothing := by
  rintro s (hb | ⟨L, hL, hrow⟩)
  · exact execBlockStep_of_not_busy hb
  · exact execBlockStep_of_no_row hL hrow

/-- Settles O29: with WORKERS = 1 the block is the one at the position, and the operations that a block selects run each by its own
meaning. -/
theorem blockStepRunsItsOperations : Obligations.BlockStepRunsItsOperations := by
  intro s L blk hb hL hrow ha hw hsrc hblk
  have hread : srcRead L s s.cursor L.bs = .ok blk := srcRead_eq_ok.mpr ⟨hsrc, hblk⟩
  rw [runExec_eq_runOps fun x hx => isBlockOp_of_mem_blockOps hx]
  change execBlockStep s = _
  rw [execBlockStep_of_enabled hb hL hrow ha, pickBlock_of_oneWorker hw, stepBlock, blockPlace_position]
  simp only [hread, withValue_ok]

/-- Settles O50. -/
theorem blockStepCompletes : Obligations.BlockStepCompletes :=
  fun _ h _ => execBlockStep_completes h

end Sys2Proof.Machine.Claims

/-! ## One pixel through the pipeline (42_color_transform.md R160, R161) -/

namespace Sys2Proof.Machine

open Sys2Proof Sys2Proof.Machine.Claims

/-- The memory holds the four bytes of a pixel, each of them written, at an offset. -/
def HoldsPixel (m : Memory) (base : Nat) (P : Pixel) : Prop :=
  ∀ k : Fin 4, Memory.read m (base + k.val) = some (channel P k)

/-- A pixel is its four channels. -/
theorem pixel_eq_of_channel_eq {P Q : Pixel} (h : ∀ k, channel P k = channel Q k) : P = Q := by
  cases P
  cases Q
  exact (Pixel.mk.injEq ..).mpr ⟨h 0, h 1, h 2, h 3⟩

/-- A pixel that DST holds in bounds is the one that a read gives. -/
theorem pixelRead_of_holdsPixel {L : Latch} {o : Origin} {p : Lane} {s : State} {P : Pixel}
    (hdst : L.dstReq ≤ L.dstLen.toNat) (hb : inBounds L o p = true) (h : HoldsPixel s.dst (lanePix L o p) P) :
    pixelRead L s (lanePix L o p) = .ok P := by
  obtain ⟨Q, hQ⟩ := pixelRead_of_inBounds hdst hb s
  have hPQ : P = Q := pixel_eq_of_channel_eq fun k =>
    (Memory.byteAt_of_read (h k)).symm.trans (byteAt_of_pixelRead hQ k).2
  rw [hPQ, hQ]

/-- Operations that, inside a block step, apply a function to the pixel of one lane where DST holds it, and change nothing else. -/
def TransformsPixel (L : Latch) (o : Origin) (p : Lane) (g : Pixel → Pixel) (xs : List Instr) : Prop :=
  ∀ (s : State) (P : Pixel), s.latch = some L → s.dp.origin = some o → HoldsPixel s.dst (lanePix L o p) P →
    ∃ m, runOps xs s = .next { s with dst := m } ∧ HoldsPixel m (lanePix L o p) (g P) ∧
      ∀ a, (∀ k : Fin 4, a ≠ lanePix L o p + k.val) → Memory.read m a = Memory.read s.dst a

theorem TransformsPixel.append {L : Latch} {o : Origin} {p : Lane} {f g : Pixel → Pixel} {xs ys : List Instr}
    (hx : TransformsPixel L o p f xs) (hy : TransformsPixel L o p g ys) :
    TransformsPixel L o p (fun P => g (f P)) (xs ++ ys) := by
  intro s P hL ho hP
  obtain ⟨m, hrun, hm, hframe⟩ := hx s P hL ho hP
  obtain ⟨m', hrun', hm', hframe'⟩ := hy { s with dst := m } (f P) hL ho hm
  exact ⟨m', by rw [runOps_append, hrun, andThen_next, hrun'], hm', fun a ha => (hframe' a ha).trans (hframe a ha)⟩

/-- Operations that a flag selects apply their function where it is set. -/
theorem TransformsPixel.ite {L : Latch} {o : Origin} {p : Lane} {g : Pixel → Pixel} {xs : List Instr}
    (h : TransformsPixel L o p g xs) (c : Bool) :
    TransformsPixel L o p (fun P => if c then g P else P) (if c then xs else []) := by
  cases c with
  | true => exact h
  | false => exact fun s P _ _ hP => ⟨s.dst, rfl, hP, fun _ _ => rfl⟩

/-- A transform operation that stores all the channels it changes applies its function to the whole pixel. -/
theorem transformsPixel_of_runOp {L : Latch} {o : Origin} {p : Lane} {x : Instr} {f : Pixel → Pixel} {ks : List (Fin 4)}
    (hdst : L.dstReq ≤ L.dstLen.toNat) (hb : inBounds L o p = true) (hx : runOp x = transformPixel p f ks)
    (hkeep : ∀ (P : Pixel) (k : Fin 4), k ∉ ks → channel (f P) k = channel P k) : TransformsPixel L o p f [x] := by
  intro s P hL ho hP
  have hrun := transformPixel_of_inBounds hL ho hb (pixelRead_of_holdsPixel hdst hb hP) f ks
  refine ⟨_, by rw [runOps, hx, hrun]; rfl, fun k => ?_, fun a ha => read_pixelStores_frame (fun k _ => ha k) _ _⟩
  by_cases hk : k ∈ ks
  · exact read_pixelStores hk _ _ _
  · have hother : ∀ l ∈ ks, lanePix L o p + k.val ≠ lanePix L o p + l.val :=
      fun l hl haddr => hk (Fin.ext (Nat.add_left_cancel haddr) ▸ hl)
    rw [read_pixelStores_frame hother, hP k, hkeep P k hk]

/-- The operations that the latched flags select for an in-bounds lane are the pipeline on its pixel (42_color_transform.md R161). -/
theorem xfOps_transformsPixel {L : Latch} {o : Origin} {p : Lane} (hdst : L.dstReq ≤ L.dstLen.toNat)
    (hb : inBounds L o p = true) (f : Bool) :
    TransformsPixel L o p (pipeline L) (xfOps f L.ycocg L.normalize L.hemioct p) := by
  have hycocg : TransformsPixel L o p Config.ycocgInv [.xfYcocg p L.hemioct L.normalize f] :=
    transformsPixel_of_runOp (ks := [0, 1, 2, 3]) hdst hb rfl fun P k hk => absurd hk (by revert k; decide)
  have hswap : TransformsPixel L o p swapRa [.xfSwapRa p L.hemioct L.ycocg f] :=
    transformsPixel_of_runOp (ks := [0, 3]) hdst hb rfl fun P k hk => by
      match k with
      | 0 | 3 => exact absurd hk (by decide)
      | 1 | 2 => rfl
  have hsqrt : TransformsPixel L o p nrmSqrt [.xfNrmSqrt p L.ycocg f] :=
    transformsPixel_of_runOp (ks := [2]) hdst hb rfl fun P k hk => by
      match k with
      | 2 => exact absurd hk (by decide)
      | 0 | 1 | 3 => rfl
  have hhemi : TransformsPixel L o p nrmHemioct [.xfNrmHemioct p L.ycocg f] :=
    transformsPixel_of_runOp (ks := [0, 1, 2]) hdst hb rfl fun P k hk => by
      match k with
      | 0 | 1 | 2 => exact absurd hk (by decide)
      | 3 => rfl
  have hall := (((hycocg.ite L.ycocg).append (hswap.ite L.normalize)).append
    (hsqrt.ite (L.normalize && !L.hemioct))).append (hhemi.ite (L.normalize && L.hemioct))
  convert hall using 1
  · funext P
    unfold pipeline
    cases L.normalize <;> cases L.hemioct <;> rfl
  · rfl

end Sys2Proof.Machine

/-! ## The pixels of a block through a block step (20_memory.md R54, 43_orchestrator.md R185) -/

namespace Sys2Proof.Machine

open Sys2Proof Sys2Proof.Machine.Claims

/-- The memory holds a given pixel for every in-bounds lane of the block at origin `o`. -/
def HoldsBlock (L : Latch) (o : Origin) (Q : Lane → Pixel) (m : Memory) : Prop :=
  ∀ p : Lane, inBounds L o p = true → HoldsPixel m (lanePix L o p) (Q p)

/-- A memory reads as another outside the in-bounds pixels of the block at origin `o`. -/
def SameOutsideBlock (L : Latch) (o : Origin) (m m' : Memory) : Prop :=
  ∀ a, ¬blockByte L o a → Memory.read m' a = Memory.read m a

theorem SameOutsideBlock.trans {L : Latch} {o : Origin} {m m' m'' : Memory} (h : SameOutsideBlock L o m m')
    (h' : SameOutsideBlock L o m' m'') : SameOutsideBlock L o m m'' :=
  fun a ha => (h' a ha).trans (h a ha)

/-- Stores to bytes of the block's in-bounds pixels change nothing outside them. -/
theorem writeCells_sameOutsideBlock {L : Latch} {o : Origin} {cs : List Host.Cell} (hcs : ∀ c ∈ cs, blockByte L o c.1)
    (m : Memory) : SameOutsideBlock L o m (Memory.writeCells m cs) :=
  fun _ ha => Memory.read_writeCells_frame m cs fun c hc heq => ha (heq ▸ hcs c hc)

/-! ### The transforms of the lanes -/

/-- The transform operations of an overhang lane change nothing (42_color_transform.md R160). -/
theorem runOps_transforms_of_overhang {L : Latch} {o : Origin} {p : Lane} {s : State} {xs : List Instr}
    (hL : s.latch = some L) (ho : s.dp.origin = some o) (hb : inBounds L o p = false)
    (hxs : ∀ x ∈ xs, ∃ g ks, runOp x = transformPixel p g ks) : runOps xs s = .next s := by
  induction xs with
  | nil => rfl
  | cons x xs ih =>
    obtain ⟨g, ks, hx⟩ := hxs x List.mem_cons_self
    rw [runOps, hx, transformPixel_of_overhang hL ho hb, andThen_next,
      ih fun y hy => hxs y (List.mem_cons_of_mem x hy)]

/-- The transform operations of one lane put its pixel through the pipeline and leave the other lanes' pixels alone. -/
theorem runOps_xfOps_lane {L : Latch} {o : Origin} {s : State} {Q : Lane → Pixel} (hdst : L.dstReq ≤ L.dstLen.toNat)
    (hstride : 4 * L.w.toNat ≤ L.stride.toNat) (hL : s.latch = some L) (ho : s.dp.origin = some o)
    (hQ : HoldsBlock L o Q s.dst) (f : Bool) (p : Lane) :
    ∃ m, runOps (xfOps f L.ycocg L.normalize L.hemioct p) s = .next { s with dst := m } ∧
      HoldsBlock L o (Function.update Q p (pipeline L (Q p))) m ∧ SameOutsideBlock L o s.dst m := by
  cases hb : inBounds L o p with
  | false =>
    refine ⟨s.dst, runOps_transforms_of_overhang hL ho hb fun x hx => runOp_of_mem_xfOps hx, fun q hq => ?_, fun _ _ => rfl⟩
    have hne : q ≠ p := fun heq => by rw [heq, hb] at hq; cases hq
    rw [Function.update_of_ne hne]
    exact hQ q hq
  | true =>
    obtain ⟨m, hrun, hm, hframe⟩ := xfOps_transformsPixel hdst hb f s (Q p) hL ho (hQ p hb)
    refine ⟨m, hrun, fun q hq => ?_, fun a ha => hframe a fun k hk => ha ⟨p, hb, k, hk⟩⟩
    by_cases hqp : q = p
    · subst hqp
      rwa [Function.update_self]
    · rw [Function.update_of_ne hqp]
      intro k
      rw [hframe _ fun l haddr => hqp (lanePix_add_inj hstride hq hb haddr).1]
      exact hQ q hq k

/-- The transform operations of a list of distinct lanes put the pixels of those lanes through the pipeline. -/
theorem runOps_xfOps_lanes {L : Latch} {o : Origin} {s : State} {Q : Lane → Pixel} {ps : List Lane}
    (hdst : L.dstReq ≤ L.dstLen.toNat) (hstride : 4 * L.w.toNat ≤ L.stride.toNat) (hL : s.latch = some L)
    (ho : s.dp.origin = some o) (hQ : HoldsBlock L o Q s.dst) (f : Bool) (hps : ps.Nodup) :
    ∃ m, runOps (ps.flatMap (xfOps f L.ycocg L.normalize L.hemioct)) s = .next { s with dst := m } ∧
      HoldsBlock L o (fun p => if p ∈ ps then pipeline L (Q p) else Q p) m ∧ SameOutsideBlock L o s.dst m := by
  induction ps generalizing s Q with
  | nil => exact ⟨s.dst, rfl, by simpa using hQ, fun _ _ => rfl⟩
  | cons p ps ih =>
    obtain ⟨hp, hps⟩ := List.nodup_cons.mp hps
    obtain ⟨m, hrun, hm, hframe⟩ := runOps_xfOps_lane hdst hstride hL ho hQ f p
    obtain ⟨m', hrun', hm', hframe'⟩ := ih (s := { s with dst := m }) hL ho hm hps
    refine ⟨m', by rw [List.flatMap_cons, runOps_append, hrun, andThen_next, hrun'], fun q hq => ?_, hframe.trans hframe'⟩
    have hq' := hm' q hq
    by_cases hqp : q = p
    · subst hqp
      simpa [hp] using hq'
    · simpa [hqp] using hq'

/-! ### The decoding of the lanes -/

/-- The colour table of a BC1 block goes by the order of its endpoints alone (40_bc1_decoder.md R108). -/
theorem colourTable_punchThrough (mode : Bc3ColorMode) (b : ColourBlock) :
    colourTable .punchThroughCapable mode b =
      if b.c1.toNat < b.c0.toNat then lut4 (expand b.c0) (expand b.c1) else lut3 (expand b.c0) (expand b.c1) :=
  if_congr (by simp [fourColour_iff]) rfl rfl

/-- The colour table of a BC3 block goes by BC3_COLOR_MODE too (40_bc1_decoder.md R108). -/
theorem colourTable_alwaysOpaque (mode : Bc3ColorMode) (b : ColourBlock) :
    colourTable .alwaysOpaque mode b =
      if b.c1.toNat < b.c0.toNat ∨ mode = .fourColorAlways then lut4 (expand b.c0) (expand b.c1)
      else lut3 (expand b.c0) (expand b.c1) :=
  if_congr (by simp [fourColour_iff]) rfl rfl

/-- The operations of a colour block make the lookup's stores and keep the block's origin. -/
theorem runOps_colourOps_stores {L : Latch} {o : Origin} {s : State} (hdst : L.dstReq ≤ L.dstLen.toNat)
    (hL : s.latch = some L) (ho : s.dp.origin = some o) (om : OpacityMode) (mode : Bc3ColorMode) (b : ColourBlock) :
    ∃ d m, runOps (colourOps om mode b) s = .next { s with dp := d, dst := m } ∧ d.origin = some o ∧
      m = Memory.writeCells s.dst (colourStores (opacityOf L.fmt) L o (colourTable om mode b) (unpackIdx2 b.idx)) :=
  ⟨_, _, (runOps_colourOps hL ho).trans (dstWriteAll_of_blockBytes hdst (fun _ => blockByte_of_mem_colourStores) _), ho, rfl⟩

/-- The operations of an alpha sub-block make the lookup's stores and keep the block's origin. -/
theorem runOps_alphaOps_stores {L : Latch} {o : Origin} {s : State} (hdst : L.dstReq ≤ L.dstLen.toNat)
    (hL : s.latch = some L) (ho : s.dp.origin = some o) (a : AlphaBlock) :
    ∃ d m, runOps (alphaOps a) s = .next { s with dp := d, dst := m } ∧ d.origin = some o ∧
      m = Memory.writeCells s.dst (alphaStores L o (alphaTable a) (unpackIdx3 a.idx)) :=
  ⟨_, _, (runOps_alphaOps hL ho).trans (dstWriteAll_of_blockBytes hdst (fun _ => blockByte_of_mem_alphaStores) _), ho, rfl⟩

/-- The decoding half of a block step stores the decoded pixel of every in-bounds lane, and nothing outside them. -/
theorem runOps_decodeOps_holdsBlock {L : Latch} {o : Origin} {s : State} (hdst : L.dstReq ≤ L.dstLen.toNat)
    (hstride : 4 * L.w.toNat ≤ L.stride.toNat) (hL : s.latch = some L) (ho : s.dp.origin = some o)
    (mode : Bc3ColorMode) (blk : List Byte) :
    ∃ d m, runOps (decodeOps L.fmt mode blk) s = .next { s with dp := d, dst := m } ∧ d.origin = some o ∧
      HoldsBlock L o (decodedPixel L.fmt mode blk) m ∧ SameOutsideBlock L o s.dst m := by
  cases hfmt : L.fmt with
  | bc1 =>
    obtain ⟨d, m, hrun, ho', rfl⟩ := runOps_colourOps_stores hdst hL ho .punchThroughCapable mode (colourBlock blk)
    refine ⟨d, _, hrun, ho', fun p hp k => ?_, writeCells_sameOutsideBlock (fun c => blockByte_of_mem_colourStores) _⟩
    rw [read_colourStores hstride hp (fun _ => by rw [hfmt]; rfl), colourTable_punchThrough]
    rfl
  | bc3 =>
    obtain ⟨d, m, halpha, ho', hm⟩ := runOps_alphaOps_stores hdst hL ho (alphaBlock (blk.take 8))
    obtain ⟨d', m', hcolour, ho'', hm'⟩ := runOps_colourOps_stores (s := { s with dp := d, dst := m }) hdst hL ho'
      .alwaysOpaque mode (colourBlock (blk.drop 8))
    have hframe : SameOutsideBlock L o s.dst m := hm ▸ writeCells_sameOutsideBlock (fun c => blockByte_of_mem_alphaStores) _
    have hframe' : SameOutsideBlock L o m m' := hm' ▸ writeCells_sameOutsideBlock (fun c => blockByte_of_mem_colourStores) _
    refine ⟨d', m', by rw [decodeOps, runOps_append, halpha, andThen_next, opacityOf, hcolour], ho'', fun p hp k => ?_,
      hframe.trans hframe'⟩
    rw [hm', hfmt]
    match k with
    | 0 | 1 | 2 =>
      rw [read_colourStores hstride hp (absurd · (by decide)), colourTable_alwaysOpaque]
      rfl
    | 3 =>
      refine (read_alpha_colourStores_alwaysOpaque hstride hp _ _ _).trans ?_
      rw [hm]
      exact read_alphaStores hstride hp _ _ _

/-- The operations of a block step put every in-bounds pixel of the block through the pipeline, and change no other DST byte. -/
theorem runOps_blockOps_holdsBlock {L : Latch} {o : Origin} {s : State} (hdst : L.dstReq ≤ L.dstLen.toNat)
    (hstride : 4 * L.w.toNat ≤ L.stride.toNat) (hL : s.latch = some L) (ho : s.dp.origin = some o)
    (mode : Bc3ColorMode) (blk : List Byte) :
    ∃ d m, runOps (blockOps L.fmt mode L.ycocg L.normalize L.hemioct blk) s = .next { s with dp := d, dst := m } ∧
      HoldsBlock L o (fun p => pipeline L (decodedPixel L.fmt mode blk p)) m ∧ SameOutsideBlock L o s.dst m := by
  obtain ⟨d, m, hdec, ho', hm, hframe⟩ := runOps_decodeOps_holdsBlock hdst hstride hL ho mode blk
  obtain ⟨m', hxf, hm', hframe'⟩ := runOps_xfOps_lanes (s := { s with dp := d, dst := m }) hdst hstride hL ho' hm
    (L.fmt == .bc3) (List.nodup_finRange 16)
  refine ⟨d, m', by rw [blockOps, runOps_append, hdec, andThen_next, lanes, hxf], ?_, hframe.trans hframe'⟩
  simpa using hm'

end Sys2Proof.Machine

/-! ## The block that a block step decodes, and what it leaves in DST (43_orchestrator.md R184 to R186) -/

namespace Sys2Proof.Machine

open Sys2Proof Sys2Proof.Machine.Claims

/-- The pixel origin of block `n` (40_bc1_decoder.md R100, 43_orchestrator.md R184). -/
def blockOrigin (L : Latch) (n : Nat) : Origin := { x := 4 * (n % L.bcx), y := 4 * (n / L.bcx) }

/-- The pixels that a block step gives block `n`, from the bytes that SRC holds at its offset. -/
def blockPixels (L : Latch) (mode : Bc3ColorMode) (src : Memory) (n : Nat) (p : Lane) : Pixel :=
  pipeline L (decodedPixel L.fmt mode (Memory.bytesAt .src src (L.bs * n) L.bs) p)

/-- The column and the row of the position are those of its block number. -/
theorem Running.position {L : Latch} {s : State} (h : Running L s) :
    blockNumber L s / L.bcx = s.bY ∧ blockNumber L s % L.bcx = s.bX :=
  (Nat.div_mod_unique h.accepted.bcx_pos).mpr ⟨by rw [blockNumber, Nat.mul_comm, Nat.add_comm], h.column⟩

/-- Every block of a running command stands at its own column, row and SRC offset, the one at the position too. -/
theorem Running.blockPlace_eq {L : Latch} {s : State} (h : Running L s) (n : Nat) :
    blockPlace L s n = (n % L.bcx, n / L.bcx, L.bs * n) := by
  unfold blockPlace
  split
  · rename_i hn
    obtain ⟨hrow, hcol⟩ := h.position
    rw [hn, hrow, hcol, h.cursor]
  · rfl

/-- The decoding of a block of the grid leaves its pixels in DST, changes no other DST byte, and advances. -/
theorem Running.stepBlock_holdsBlock {L : Latch} {s : State} {n : Nat} (h : Running L s) (hL : s.latch = some L)
    (hn : n < L.bcx * L.bcy) :
    ∃ m, stepBlock L n s = .next (advance L n { s with dst := m }) ∧
      HoldsBlock L (blockOrigin L n) (blockPixels L s.params.colorMode s.src n) m ∧
      SameOutsideBlock L (blockOrigin L n) s.dst m := by
  have hread : srcRead L s (L.bs * n) L.bs = .ok (Memory.bytesAt .src s.src (L.bs * n) L.bs) :=
    srcRead_eq_ok.mpr ⟨(Latch.block_end_le_srcReq hn).trans h.accepted.src, rfl⟩
  obtain ⟨d, m, hrun, hm, hframe⟩ := runOps_blockOps_holdsBlock
    (s := { s with dp := { Datapath.empty with origin := some (blockOrigin L n) } }) h.accepted.dst h.accepted.stride hL rfl
    s.params.colorMode (Memory.bytesAt .src s.src (L.bs * n) L.bs)
  refine ⟨m, ?_, hm, hframe⟩
  rw [stepBlock, h.blockPlace_eq]
  simp only [hread, withValue_ok]
  exact congrArg (andThen · fun t => .next (advance L n t)) hrun

/-! ### The advance with WORKERS = 1 (43_orchestrator.md R186) -/

/-- With no block done ahead the advance moves the position by one block. -/
theorem advance_of_no_ahead {L : Latch} {s : State} (h : s.ahead = []) :
    advance L (blockNumber L s) s = finish L (advanceOne L { s with dp := Datapath.empty }) := by
  refine (if_pos rfl).trans ?_
  change finish L (catchUp L s.ahead.length _) = _
  rw [h]
  rfl

/-- What one advance and the check for the end change: the position, CURSOR and STATUS. -/
theorem finish_advanceOne (L : Latch) (s : State) :
    finish L (advanceOne L s) =
      { s with
        bX := (advanceOne L s).bX
        bY := (advanceOne L s).bY
        cursor := s.cursor + L.bs
        status := if (advanceOne L s).bY = L.bcy then .done else s.status } := by
  unfold finish advanceOne
  split <;> split <;> rename_i hend <;> simp only at hend ⊢

/-- Inside a row the advance moves to the next column. -/
theorem advanceOne_of_inner {L : Latch} {s : State} (h : s.bX + 1 < L.bcx) :
    (advanceOne L s).bX = s.bX + 1 ∧ (advanceOne L s).bY = s.bY := by
  simp [advanceOne, h.ne]

/-- At the end of a row the advance moves to the next row. -/
theorem advanceOne_of_last {L : Latch} {s : State} (h : s.bX + 1 = L.bcx) :
    (advanceOne L s).bX = 0 ∧ (advanceOne L s).bY = s.bY + 1 := by
  simp [advanceOne, h]

end Sys2Proof.Machine

/-! ## The obligation about one block step -/

namespace Sys2Proof.Machine.Claims

open Sys2Proof Sys2Proof.Machine

/-- Settles O30: the block is the one at the position, its operations put its pixels through the pipeline, and with no block done
ahead the advance moves the position by one. -/
theorem blockStepDecodesItsBlock : Obligations.BlockStepDecodesItsBlock := by
  rintro s L blk o ⟨hinv, hb, hL, hw, ha, rfl⟩ rfl
  have hr := hinv.running_of_latch hb hL
  obtain ⟨m, hstep, hm, hframe⟩ := hr.stepBlock_holdsBlock hL hr.undecoded_position.upper
  have horigin : blockOrigin L (blockNumber L s) = { x := 4 * s.bX, y := 4 * s.bY } := by
    rw [blockOrigin, hr.position.1, hr.position.2]
  rw [horigin] at hm hframe
  have hadvance : advance L (blockNumber L s) { s with dst := m } = finish L (advanceOne L { s with dst := m }) := by
    refine (advance_of_no_ahead (s := { s with dst := m }) (hr.oneWorker hw)).trans ?_
    rw [← hinv.datapath]
  have hrun : exec .blockStep s = .next (finish L (advanceOne L { s with dst := m })) := by
    change execBlockStep s = _
    rw [execBlockStep_of_enabled hb hL hr.row ha, pickBlock_of_oneWorker hw, hstep, hadvance]
  rw [finish_advanceOne] at hrun
  refine ⟨m, _, _, _, hrun, advanceOne_of_inner (s := { s with dst := m }), advanceOne_of_last (s := { s with dst := m }),
    fun hend => if_pos hend, fun hleft => (if_neg hleft).trans hb, fun p hp => ?_, hframe⟩
  rw [hr.cursor]
  exact hm p hp

end Sys2Proof.Machine.Claims

/-! ## The blocks that a command has decoded (43_orchestrator.md R183, R186) -/

namespace Sys2Proof.Machine

open Sys2Proof Sys2Proof.Machine.Claims

/-- Block `n` of the running command is decoded: it lies before the position, or was done ahead of it. -/
def IsDecoded (L : Latch) (s : State) (n : Nat) : Prop := n < blockNumber L s ∨ n ∈ s.ahead

/-- How many blocks of the running command are decoded. -/
def decodedCount (L : Latch) (s : State) : Nat := blockNumber L s + s.ahead.length

/-- Taking block `n` into those decoded takes the state `s` to `t`. -/
structure DecodesOne (L : Latch) (n : Nat) (s t : State) : Prop where
  blocks : ∀ m, IsDecoded L t m ↔ IsDecoded L s m ∨ m = n
  count : decodedCount L t = decodedCount L s + 1

/-- The blocks decoded are those before the position and those done ahead, whatever else the states hold. -/
theorem isDecoded_congr {L : Latch} {s t : State} (hX : t.bX = s.bX) (hY : t.bY = s.bY) (ha : t.ahead = s.ahead) :
    IsDecoded L t = IsDecoded L s ∧ decodedCount L t = decodedCount L s := by
  have hn : blockNumber L t = blockNumber L s := by simp only [blockNumber, hX, hY]
  exact ⟨funext fun m => by rw [IsDecoded, IsDecoded, hn, ha], by rw [decodedCount, decodedCount, hn, ha]⟩

/-- One advance of the position decodes the block at it. -/
theorem advanceOne_decodesOne (L : Latch) (s : State) : DecodesOne L (blockNumber L s) s (advanceOne L s) where
  blocks m := by
    simp only [IsDecoded, blockNumber_advanceOne, advanceOne_ahead]
    rw [Nat.lt_succ_iff_lt_or_eq, or_right_comm]
  count := by
    simp only [decodedCount, blockNumber_advanceOne, advanceOne_ahead]
    omega

/-- Advancing over the blocks done ahead neither adds nor loses a block. -/
theorem catchUp_isDecoded {L : Latch} {k : Nat} {s : State} (h : s.ahead.Nodup) :
    (∀ m, IsDecoded L (catchUp L k s) m ↔ IsDecoded L s m) ∧ decodedCount L (catchUp L k s) = decodedCount L s := by
  induction k generalizing s with
  | zero => exact ⟨fun _ => Iff.rfl, rfl⟩
  | succ k ih =>
    unfold catchUp
    split
    · rename_i hpos
      have hone := advanceOne_decodesOne L { s with ahead := s.ahead.filter (· != blockNumber L s) }
      obtain ⟨hblocks, hcount⟩ := ih (s := advanceOne L { s with ahead := s.ahead.filter (· != blockNumber L s) })
        (by rw [advanceOne_ahead]; exact h.filter _)
      refine ⟨fun m => (hblocks m).trans ((hone.blocks m).trans ?_), hcount.trans (hone.count.trans ?_)⟩
      · simp only [IsDecoded, List.mem_filter, bne_iff_ne, ne_eq]
        change (m < blockNumber L s ∨ m ∈ s.ahead ∧ ¬m = blockNumber L s) ∨ m = blockNumber L s ↔ _
        by_cases hm : m = blockNumber L s
        · simp [hm, hpos]
        · simp [hm]
      · have hlen : (s.ahead.filter (· != blockNumber L s)).length + 1 = s.ahead.length := by
          rw [← h.erase_eq_filter]
          exact List.length_erase_add_one hpos
        change blockNumber L s + (s.ahead.filter (· != blockNumber L s)).length + 1 = blockNumber L s + s.ahead.length
        omega
    · exact ⟨fun _ => Iff.rfl, rfl⟩

/-- The advance after block `n` adds that block. -/
theorem Running.advance_decodesOne {L : Latch} {s : State} (h : Running L s) (n : Nat) :
    DecodesOne L n s (advance L n s) := by
  unfold advance
  simp only
  split
  · rename_i hn
    have hone := advanceOne_decodesOne L { s with dp := Datapath.empty }
    obtain ⟨hblocks, hcount⟩ := catchUp_isDecoded (L := L) (k := s.ahead.length)
      (s := Machine.advanceOne L { s with dp := Datapath.empty }) (by rw [advanceOne_ahead]; exact h.aheadNodup)
    obtain ⟨hfinish, hfinish'⟩ := isDecoded_congr (L := L) (t := finish L (catchUp L s.ahead.length _))
      (finish_bX _ (catchUp L s.ahead.length (Machine.advanceOne L { s with dp := Datapath.empty }))) (finish_bY _ _)
      (finish_ahead _ _)
    exact ⟨fun m => by rw [hfinish, hblocks, hone.blocks, hn]; rfl, by rw [hfinish', hcount, hone.count]; rfl⟩
  · exact ⟨fun m => by simp [IsDecoded, blockNumber, or_assoc], by simp [decodedCount, blockNumber, Nat.add_assoc]⟩

/-- The advance ends the command only with no block row left. -/
theorem advance_status {L : Latch} {n : Nat} {s : State} (hb : s.status = .busy) :
    (advance L n s).status = .busy ∨ ((advance L n s).status = .done ∧ (advance L n s).bY = L.bcy) := by
  unfold advance
  simp only
  split
  · unfold finish
    split
    · rename_i hend
      exact .inr ⟨rfl, hend⟩
    · exact .inl (by simpa using hb)
  · exact .inl hb

/-- A block that may be decoded is not decoded yet. -/
theorem Undecoded.not_isDecoded {L : Latch} {s : State} {n : Nat} (h : Undecoded L s n) : ¬IsDecoded L s n :=
  fun hd => hd.elim (fun hlt => absurd h.lower (Nat.not_le_of_lt hlt)) h.fresh

/-- A running command has a block left: the position's and those done ahead are distinct blocks of the grid. -/
theorem Running.decodedCount_lt {L : Latch} {s : State} (h : Running L s) : decodedCount L s < L.bcx * L.bcy := by
  have hsub : s.ahead.toFinset ⊆ Finset.Ioo (blockNumber L s) (L.bcx * L.bcy) :=
    fun n hn => Finset.mem_Ioo.mpr (h.aheadRange n (List.mem_toFinset.mp hn))
  have hlen := Finset.card_le_card hsub
  rw [List.toFinset_card_of_nodup h.aheadNodup, Nat.card_Ioo] at hlen
  have hpos := h.undecoded_position.upper
  unfold decodedCount
  omega

/-! ### The pixels of different blocks (20_memory.md R54, R62) -/

/-- Blocks that share a byte of an in-bounds pixel are the same block. -/
theorem block_eq_of_blockByte {L : Latch} {n n' : Nat} {p : Lane} {k : Fin 4} (hstride : 4 * L.w.toNat ≤ L.stride.toNat)
    (hp : inBounds L (blockOrigin L n) p = true)
    (h : blockByte L (blockOrigin L n') (lanePix L (blockOrigin L n) p + k.val)) : n = n' := by
  obtain ⟨q, hq, l, haddr⟩ := h
  obtain ⟨hcol, hrow, -⟩ := Latch.pix_add_inj hstride (inBounds_iff.mp hp).1 (inBounds_iff.mp hq).1 haddr
  simp only [laneX, laneY, blockOrigin] at hcol hrow
  have hmod : n % L.bcx = n' % L.bcx := by omega
  have hdiv : n / L.bcx = n' / L.bcx := by omega
  rw [← Nat.div_add_mod n L.bcx, ← Nat.div_add_mod n' L.bcx, hmod, hdiv]

/-- What DST holds of one block stays when another block's pixels are written. -/
theorem HoldsBlock.of_other_block {L : Latch} {n n' : Nat} {Q : Lane → Pixel} {m m' : Memory}
    (h : HoldsBlock L (blockOrigin L n) Q m) (hstride : 4 * L.w.toNat ≤ L.stride.toNat)
    (hm : SameOutsideBlock L (blockOrigin L n') m m') (hne : n ≠ n') : HoldsBlock L (blockOrigin L n) Q m' := by
  intro p hp k
  rw [hm _ fun hbyte => hne (block_eq_of_blockByte hstride hp hbyte)]
  exact h p hp k

/-- The block and the lane of an image pixel are its own: the pixel stands there in bounds (00_scope.md R14). -/
theorem laneOf_place {L : Latch} {x y : Nat} (hx : x < L.w.toNat) (hy : y < L.h.toNat) :
    y / 4 * L.bcx + x / 4 < L.bcx * L.bcy ∧
      laneX (blockOrigin L (y / 4 * L.bcx + x / 4)) (laneOf x y) = x ∧
      laneY (blockOrigin L (y / 4 * L.bcx + x / 4)) (laneOf x y) = y := by
  have hcol : x / 4 < L.bcx := by simp only [Latch.bcx, ceil4]; omega
  have hrow : y / 4 < L.bcy := by simp only [Latch.bcy, ceil4]; omega
  obtain ⟨hdiv, hmod⟩ := (Nat.div_mod_unique (a := y / 4 * L.bcx + x / 4) (Nat.zero_lt_of_lt hcol)).mpr
    ⟨by rw [Nat.mul_comm, Nat.add_comm], hcol⟩
  refine ⟨?_, ?_, ?_⟩
  · rw [Nat.mul_comm L.bcx]
    exact Nat.lt_of_lt_of_le (Nat.add_lt_add_left hcol _) (by rw [← Nat.succ_mul]; exact Nat.mul_le_mul_right _ hrow)
  · simp only [laneX, laneOf, blockOrigin, hmod]
    omega
  · simp only [laneY, laneOf, blockOrigin, hdiv]
    omega

/-- A byte of an in-bounds pixel of any block is a byte of the image. -/
theorem imageByte_of_blockByte {L : Latch} {o : Origin} {a : Nat} (h : blockByte L o a) : imageByte L a := by
  obtain ⟨p, hp, k, rfl⟩ := h
  obtain ⟨hx, hy⟩ := inBounds_iff.mp hp
  exact ⟨_, _, hx, hy, k, rfl⟩

/-- DST holds the image once it holds every block of the grid. -/
theorem imageDecoded_of_holdsBlock {L : Latch} {mode : Bc3ColorMode} {src dst : Memory}
    (h : ∀ n < L.bcx * L.bcy, HoldsBlock L (blockOrigin L n) (blockPixels L mode src n) dst) :
    imageDecoded L mode src dst := by
  rintro x y blk hx hy rfl k
  obtain ⟨hn, hlaneX, hlaneY⟩ := laneOf_place hx hy
  have hpix := h _ hn (laneOf x y) (inBounds_iff.mpr ⟨hlaneX.symm ▸ hx, hlaneY.symm ▸ hy⟩) k
  rw [lanePix, hlaneX, hlaneY] at hpix
  exact hpix

end Sys2Proof.Machine

/-! ## The turns of the two agents, and runs step by step (10_state.md R20, 70_reset_and_hazards.md R249, R253) -/

namespace Sys2Proof.Machine

open Sys2Proof Sys2Proof.Machine.Claims

/-- How many turns the host has before the engine's next one: those of the schedule, and where it is exhausted the free ones. -/
def turnsBeforeEngine : List Agent → Nat → Nat
  | [], d => Config.hostTurns d
  | .engine :: _, _ => 0
  | .host :: ts, d => turnsBeforeEngine ts d + 1

/-- A free schedule of `k` turns of the host ends there. -/
theorem turnsBeforeEngine_replicate (k d : Nat) : turnsBeforeEngine (List.replicate k .host ++ [.engine]) d = k := by
  induction k with
  | zero => rfl
  | succ k ih => exact congrArg (· + 1) ih

/-- A turn of the host is one turn less before the engine's, so the engine is not held off for ever (70_reset_and_hazards.md R253). -/
theorem turnsBeforeEngine_takeTurn {s : State} (h : (takeTurn s).1 = .host) :
    turnsBeforeEngine (takeTurn s).2.turns (takeTurn s).2.draws + 1 = turnsBeforeEngine s.turns s.draws := by
  cases ht : s.turns with
  | nil =>
    simp only [takeTurn, ht, freeTurns] at h ⊢
    simp only [turnsBeforeEngine]
    split at h
    · cases h
    · rename_i k hk
      simp only [hk, turnsBeforeEngine_replicate]
  | cons g ts =>
    rw [takeTurn_cons ht] at h ⊢
    cases h
    rfl

/-- Where the next step is the engine's it is BLOCK.STEP, with at most a turn taken off the schedule. -/
theorem step_of_engineNext {s : State} (h : engineNext s = true) :
    s.status = .busy ∧ ∃ ts d, step s = exec .blockStep { s with turns := ts, draws := d } := by
  simp only [engineNext, Bool.and_eq_true, Bool.or_eq_true, beq_iff_eq, List.isEmpty_iff] at h
  obtain ⟨hb, hturn⟩ := h
  refine ⟨hb, ?_⟩
  rcases step_cases s with ⟨hn, -⟩ | ⟨a, rest, hn, -⟩ | ⟨-, -, he⟩ | ⟨a, rest, -, hp, ht, -⟩ | ⟨a, rest, -, -, -, he⟩
  · exact absurd hb hn
  · exact absurd hb hn
  · exact ⟨s.turns, s.draws, he⟩
  · rw [hp, ht] at hturn
    simp at hturn
  · exact ⟨_, _, he.trans (congrArg (exec .blockStep) (takeTurn_frame s))⟩

/-- Where the machine is BUSY and the next step is not the engine's, it is the host's next action, on the host's turn. -/
theorem step_of_hostNext {s : State} (hb : s.status = .busy) (h : engineNext s = false) :
    ∃ a rest, s.prog = a :: rest ∧ (takeTurn s).1 = .host ∧ step s = hostMove a { (takeTurn s).2 with prog := rest } := by
  rcases step_cases s with ⟨hn, -⟩ | ⟨a, rest, hn, -⟩ | ⟨-, hp, -⟩ | ⟨a, rest, -, hp, ht, he⟩ | ⟨a, rest, -, -, ht, -⟩
  · exact absurd hb hn
  · exact absurd hb hn
  · simp [engineNext, hb, hp] at h
  · exact ⟨a, rest, hp, ht, he⟩
  · simp [engineNext, hb, ht] at h

/-! ### Runs -/

/-- A run of any machine goes on from the state that its first step answers. -/
theorem coreRun_succ {M : Host.Core} {s t : M.State} (h : M.step s = .next t) (k : Nat) : M.run (k + 1) s = M.run k t := by
  rw [Host.Core.run, h]

/-- A run goes on from the state that its first step answers. -/
theorem run_succ {s t : State} (h : step s = .next t) (k : Nat) :
    Host.Core.run Sys2Proof.core (k + 1) s = Host.Core.run Sys2Proof.core k t :=
  coreRun_succ (M := Sys2Proof.core) h k

/-- The engine's steps are counted step by step. -/
theorem engineMoves_succ {s t : State} (h : step s = .next t) (k : Nat) :
    engineMoves (k + 1) s = (if engineNext s then 1 else 0) + engineMoves k t := by
  rw [engineMoves, h]

/-- A run that is BUSY for at least one state begins BUSY. -/
theorem status_of_busyFor {k : Nat} {s : State} (h : BusyFor (k + 1) s) : s.status = .busy := by
  obtain ⟨u, hu, hb⟩ := h 0 (Nat.succ_pos k)
  cases hu
  exact hb

/-- A run is BUSY for one state more than the run from its first step. -/
theorem busyFor_succ_iff {k : Nat} {s t : State} (h : step s = .next t) :
    BusyFor (k + 1) s ↔ s.status = .busy ∧ BusyFor k t := by
  constructor
  · intro hbusy
    refine ⟨status_of_busyFor hbusy, fun j hj => ?_⟩
    rw [← run_succ h]
    exact hbusy (j + 1) (Nat.succ_lt_succ hj)
  · rintro ⟨hb, hbusy⟩ j hj
    cases j with
    | zero => exact ⟨s, rfl, hb⟩
    | succ j =>
      rw [run_succ h]
      exact hbusy j (Nat.lt_of_succ_lt_succ hj)

/-- A command that ends from the next state ends one step later from this one. -/
theorem endsAt_of_step {k : Nat} {s t u : State} (h : EndsAt k t u) (hb : s.status = .busy) (hstep : step s = .next t) :
    EndsAt (k + 1) s u := by
  obtain ⟨hbusy, hrun, hend⟩ := h
  exact ⟨(busyFor_succ_iff hstep).mpr ⟨hb, hbusy⟩, (run_succ hstep k).trans hrun, hend⟩

/-! ### A dutiful host -/

/-- While BUSY an action of a dutiful host that does not abort changes the read data only, and leaves a dutiful host: a wait for
STATE to leave BUSY stays pending (70_reset_and_hazards.md R243 step 5, R251). -/
theorem hostMove_of_dutiful {a : HostAction} {rest : List HostAction} {s : State} (hb : s.status = .busy)
    (h : dutiful false (a :: rest) = true) :
    ∃ pr rd, hostMove a { s with prog := rest } = .next { s with prog := pr, rdata := rd } ∧ dutiful false pr = true := by
  cases a with
  | rd off =>
    simp only [dutiful, Bool.and_eq_true, beq_iff_eq] at h
    exact ⟨rest, _, hostMove_rd h.1 _, h.2⟩
  | wait off lo width v =>
    have hmove := hostMove_wait (off := off) (by simp only [dutiful, Bool.and_eq_true, beq_iff_eq] at h; exact h.1) lo width v
      { s with prog := rest }
    by_cases hfield : fieldOf (regRead { s with prog := rest } off) lo width = v
    · rw [if_pos hfield] at hmove
      exact ⟨_, _, hmove, h⟩
    · rw [if_neg hfield] at hmove
      refine ⟨_, _, hmove, ?_⟩
      simp only [dutiful, Bool.and_eq_true, Bool.or_eq_true, beq_iff_eq] at h
      rcases h.2 with ⟨⟨⟨rfl, rfl⟩, rfl⟩, rfl⟩ | hrest
      · rw [regRead_status, fieldOf_state, hb] at hfield
        exact absurd rfl hfield
      · exact hrest
  | wr off v =>
    simp only [dutiful, Bool.and_eq_true, Bool.or_eq_true, beq_iff_eq, bne_iff_ne, Bool.false_eq_true, false_or] at h
    obtain ⟨⟨ha, hv⟩, hrest⟩ := h
    exact ⟨rest, s.rdata, hostMove_wr_of_busy hb ha fun hcmd => hv.elim (· hcmd.1) (· hcmd.2), hrest⟩
  | placeSrc | placeDst | readDst | reset => cases h

end Sys2Proof.Machine

/-! ## A command from its start to its end (43_orchestrator.md R183, R187) -/

namespace Sys2Proof.Machine

open Sys2Proof Sys2Proof.Machine.Claims

/-- The command begun at `s` has come to `u`, running or just done: the decoded blocks hold their pixels in DST, and every other DST
byte is as it was at `s`. -/
structure Progress (L : Latch) (s u : State) : Prop where
  inv : Inv u
  latch : u.latch = some L
  noAbort : u.abortReq = false
  src : u.src = s.src
  params : u.params = s.params
  range : ∀ n, IsDecoded L u n → n < L.bcx * L.bcy
  holds : ∀ n, IsDecoded L u n → HoldsBlock L (blockOrigin L n) (blockPixels L s.params.colorMode s.src n) u.dst
  frame : ∀ a, (∀ n, IsDecoded L u n → ¬blockByte L (blockOrigin L n) a) → Memory.read u.dst a = Memory.read s.dst a
  phase : (u.status = .busy ∧ dutiful false u.prog = true) ∨ (u.status = .done ∧ u.bY = L.bcy)

/-- A command at its start has decoded no block. -/
theorem progress_of_atStart {L : Latch} {s : State} (h : AtStart L s) : Progress L s s ∧ decodedCount L s = 0 := by
  have hzero : blockNumber L s = 0 := by simp [blockNumber, h.column, h.row]
  have hnone : ∀ n, ¬IsDecoded L s n := by simp [IsDecoded, hzero, h.fresh]
  exact
    ⟨{ inv := h.inv
       latch := h.latch
       noAbort := h.noAbort
       src := rfl
       params := rfl
       range := fun n hn => absurd hn (hnone n)
       holds := fun n hn => absurd hn (hnone n)
       frame := fun _ _ => rfl
       phase := .inl ⟨h.busy, h.host⟩ },
      by simp [decodedCount, hzero, h.fresh]⟩

/-- While BUSY the command is running and its host dutiful. -/
theorem Progress.running {L : Latch} {s u : State} (h : Progress L s u) (hb : u.status = .busy) :
    Running L u ∧ dutiful false u.prog = true := by
  refine ⟨h.inv.running_of_latch hb h.latch, ?_⟩
  rcases h.phase with ⟨-, hhost⟩ | ⟨hdone, -⟩
  · exact hhost
  · rw [hb] at hdone
    cases hdone

/-- The command's progress does not depend on the host's side of the state, as long as the host is dutiful. -/
theorem Progress.set_host {L : Latch} {s u : State} (h : Progress L s u) {pr : List HostAction}
    (hpr : dutiful false pr = true) (ts : List Agent) (d : Nat) (rd : Word) :
    Progress L s { u with prog := pr, turns := ts, draws := d, rdata := rd } where
  inv := h.inv.of_engine_side_eq rfl
  latch := h.latch
  noAbort := h.noAbort
  src := h.src
  params := h.params
  range := h.range
  holds := h.holds
  frame := h.frame
  phase := h.phase.imp_left fun hbusy => ⟨hbusy.1, hpr⟩

/-- A block step of a running command decodes one block more. -/
theorem Progress.block_step {L : Latch} {s u : State} (h : Progress L s u) (hb : u.status = .busy) :
    ∃ t, execBlockStep u = .next t ∧ Progress L s t ∧ decodedCount L t = decodedCount L u + 1 ∧ t.prog = u.prog := by
  obtain ⟨hr, hhost⟩ := h.running hb
  have hn := hr.undecoded_pickBlock
  generalize hpick : (pickBlock L u).1 = n at hn
  have hr' : Running L (pickBlock L u).2 := hr.congr (by simp) (by simp) (by simp) (by simp) (by simp)
  obtain ⟨m, hstep, hm, hframe⟩ := hr'.stepBlock_holdsBlock ((pickBlock_latch L u).trans h.latch) hn.upper
  rw [pickBlock_params, pickBlock_src, h.params, h.src] at hm
  rw [pickBlock_dst] at hframe
  have hexec := execBlockStep_of_enabled hb h.latch hr.row h.noAbort
  rw [hpick, hstep] at hexec
  have hr'' : Running L { (pickBlock L u).2 with dst := m } := hr'.congr rfl rfl rfl rfl rfl
  have hone := hr''.advance_decodesOne n
  obtain ⟨hsame, hcount⟩ := isDecoded_congr (L := L) (s := u) (t := { (pickBlock L u).2 with dst := m })
    (pickBlock_bX L u) (pickBlock_bY L u) (pickBlock_ahead L u)
  have hblocks : ∀ i, IsDecoded L (advance L n { (pickBlock L u).2 with dst := m }) i ↔ IsDecoded L u i ∨ i = n :=
    fun i => by rw [hone.blocks, hsame]
  refine ⟨_, hexec, ?_, by rw [hone.count, hcount], by simp⟩
  exact
    { inv := execBlockStep_keeps_inv h.inv hexec
      latch := by simpa using h.latch
      noAbort := by simpa using h.noAbort
      src := by simpa using h.src
      params := by simpa using h.params
      range := fun i hi => ((hblocks i).mp hi).elim (h.range i) fun heq => heq ▸ hn.upper
      holds := by
        intro i hi
        rw [advance_dst]
        rcases (hblocks i).mp hi with hi | rfl
        · exact (h.holds i hi).of_other_block hr.accepted.stride hframe fun heq => hn.not_isDecoded (heq ▸ hi)
        · exact hm
      frame := by
        intro a ha
        rw [advance_dst]
        exact (hframe a (ha n ((hblocks n).mpr (.inr rfl)))).trans
          (h.frame a fun i hi => ha i ((hblocks i).mpr (.inl hi)))
      phase := by
        rcases advance_status (L := L) (n := n) (s := { (pickBlock L u).2 with dst := m }) (by simpa using hb)
          with hbusy | hdone
        · exact .inl ⟨hbusy, by simpa using hhost⟩
        · exact .inr hdone }

/-- A step of the engine decodes one block more. -/
theorem Progress.engine_step {L : Latch} {s u : State} (h : Progress L s u) (hnext : engineNext u = true) :
    ∃ t, step u = .next t ∧ Progress L s t ∧ decodedCount L t = decodedCount L u + 1 ∧ t.prog = u.prog := by
  obtain ⟨hb, ts, d, he⟩ := step_of_engineNext hnext
  rw [he]
  exact (h.set_host (h.running hb).2 ts d u.rdata).block_step hb

/-- A step of the host decodes no block, and brings the engine's next turn one nearer. -/
theorem Progress.host_step {L : Latch} {s u : State} (h : Progress L s u) (hb : u.status = .busy)
    (hnext : engineNext u = false) :
    ∃ t, step u = .next t ∧ Progress L s t ∧ decodedCount L t = decodedCount L u ∧
      turnsBeforeEngine t.turns t.draws < turnsBeforeEngine u.turns u.draws := by
  obtain ⟨a, rest, hp, hturn, he⟩ := step_of_hostNext hb hnext
  have hhost := (h.running hb).2
  rw [hp] at hhost
  obtain ⟨pr, rd, hmove, hpr⟩ := hostMove_of_dutiful (s := (takeTurn u).2) (by simpa using hb) hhost
  refine ⟨_, he.trans hmove, ?_, ?_, Nat.lt_of_succ_le (turnsBeforeEngine_takeTurn hturn).le⟩
  · rw [takeTurn_frame u]
    exact h.set_host hpr _ _ _
  · rw [takeTurn_frame u]
    rfl

/-- A step of a running command keeps its progress, and decodes a block exactly where it is the engine's. -/
theorem Progress.next_step {L : Latch} {s u : State} (h : Progress L s u) (hb : u.status = .busy) :
    ∃ t, step u = .next t ∧ Progress L s t ∧
      decodedCount L t = decodedCount L u + (if engineNext u then 1 else 0) := by
  cases hnext : engineNext u with
  | true =>
    obtain ⟨t, hstep, ht, hcount, -⟩ := h.engine_step hnext
    exact ⟨t, hstep, ht, hcount⟩
  | false =>
    obtain ⟨t, hstep, ht, hcount, -⟩ := h.host_step hb hnext
    exact ⟨t, hstep, ht, hcount⟩

/-- As long as it is BUSY a command never stops, and the engine's steps are the blocks it decodes. -/
theorem Progress.run {L : Latch} {s u : State} {k : Nat} (h : Progress L s u) (hbusy : BusyFor k u) :
    ∃ t, Host.Core.run Sys2Proof.core k u = .next t ∧ Progress L s t ∧
      decodedCount L t = decodedCount L u + engineMoves k u := by
  induction k generalizing u with
  | zero => exact ⟨u, rfl, h, rfl⟩
  | succ k ih =>
    obtain ⟨v, hstep, hv, hcount⟩ := h.next_step (status_of_busyFor hbusy)
    obtain ⟨t, hrun, ht, hcount'⟩ := ih hv ((busyFor_succ_iff hstep).mp hbusy).2
    exact ⟨t, (run_succ hstep k).trans hrun, ht, by rw [hcount', hcount, engineMoves_succ hstep, Nat.add_assoc]⟩

/-- With no pending action every step of a running command is the engine's. -/
theorem Progress.engineMoves_of_no_action {L : Latch} {s u : State} {k : Nat} (h : Progress L s u)
    (hbusy : BusyFor k u) (hp : u.prog = []) : engineMoves k u = k := by
  induction k generalizing u with
  | zero => rfl
  | succ k ih =>
    have hnext : engineNext u = true := by simp [engineNext, status_of_busyFor hbusy, hp]
    obtain ⟨t, hstep, ht, -, hprog⟩ := h.engine_step hnext
    rw [engineMoves_succ hstep, if_pos hnext, ih ht ((busyFor_succ_iff hstep).mp hbusy).2 (hprog.trans hp), Nat.add_comm]

/-- Every command ends: a step of the engine leaves fewer blocks, one of the host fewer turns before the engine's. -/
theorem Progress.ends {L : Latch} {s u : State} (h : Progress L s u) : ∃ k t, EndsAt k u t := by
  by_cases hb : u.status = .busy
  · cases hnext : engineNext u with
    | true =>
      obtain ⟨v, hstep, hv, hcount, -⟩ := h.engine_step hnext
      have hleft := (h.running hb).1.decodedCount_lt
      obtain ⟨k, t, hend⟩ := hv.ends
      exact ⟨k + 1, t, endsAt_of_step hend hb hstep⟩
    | false =>
      obtain ⟨v, hstep, hv, hcount, hturns⟩ := h.host_step hb hnext
      obtain ⟨k, t, hend⟩ := hv.ends
      exact ⟨k + 1, t, endsAt_of_step hend hb hstep⟩
  · exact ⟨0, u, fun j hj => absurd hj (Nat.not_lt_zero j), rfl, hb⟩
termination_by (L.bcx * L.bcy - decodedCount L u, turnsBeforeEngine u.turns u.draws)
decreasing_by
  · rw [hcount]
    exact Prod.Lex.right _ hturns
  · exact Prod.Lex.left _ _ (by omega)

/-- A command that is no longer BUSY is done with every block of the grid and no other. -/
theorem Progress.finished {L : Latch} {s t : State} (h : Progress L s t) (hb : t.status ≠ .busy) :
    t.status = .done ∧ decodedCount L t = L.bcx * L.bcy ∧ ∀ n < L.bcx * L.bcy, IsDecoded L t n := by
  obtain ⟨hdone, hend⟩ := h.phase.resolve_left fun hbusy => hb hbusy.1
  have hpos : blockNumber L t = L.bcx * L.bcy := by
    refine Nat.le_antisymm (Nat.le_of_not_lt fun hlt => lt_irrefl _ (h.range _ (.inl hlt))) ?_
    rw [blockNumber, hend, Nat.mul_comm]
    exact Nat.le_add_right _ _
  refine ⟨hdone, ?_, fun n hn => .inl (hpos.symm ▸ hn)⟩
  rw [decodedCount, hpos, h.inv.aheadBusy hb]
  rfl

/-- A command that ends from its start is done: every block step was the engine's, and DST holds the image and nothing else new. -/
theorem command_done_of_endsAt {L : Latch} {s t : State} {k : Nat} (h : AtStart L s) (hend : EndsAt k s t) :
    t.status = .done ∧ engineMoves k s = L.bcx * L.bcy ∧ imageDecoded L s.params.colorMode s.src t.dst ∧
      ∀ a, ¬imageByte L a → Memory.read t.dst a = Memory.read s.dst a := by
  obtain ⟨hbusy, hrun, hnot⟩ := hend
  obtain ⟨hprogress, hzero⟩ := progress_of_atStart h
  obtain ⟨t', hrun', ht, hcount⟩ := hprogress.run hbusy
  cases hrun'.symm.trans hrun
  obtain ⟨hdone, htotal, hall⟩ := ht.finished hnot
  refine ⟨hdone, by omega, imageDecoded_of_holdsBlock fun n hn => ht.holds n (hall n hn), fun a ha => ?_⟩
  exact ht.frame a fun n _ hbyte => ha (imageByte_of_blockByte hbyte)

/-- Sources that hold the same bytes below SRCREQ give the same image (43_orchestrator.md R193). -/
theorem imageDecoded_congr_src {L : Latch} {mode : Bc3ColorMode} {src src' dst : Memory}
    (hsrc : ∀ a, a < L.srcReq → Memory.byteAt .src src a = Memory.byteAt .src src' a)
    (h : imageDecoded L mode src' dst) : imageDecoded L mode src dst := by
  rintro x y blk hx hy rfl
  refine h x y _ hx hy (Memory.bytesAt_congr fun j hj => hsrc _ ?_)
  exact Nat.lt_of_lt_of_le (Nat.add_lt_add_left hj _) (Latch.block_end_le_srcReq (laneOf_place hx hy).1)

end Sys2Proof.Machine

/-! ## The obligations about a whole command -/

namespace Sys2Proof.Machine.Claims

open Sys2Proof Sys2Proof.Machine

/-- Settles O51: each step of the engine decodes one block more, those of a dutiful host none, and the command is done when no block is
left. -/
theorem commandDecodesTheImage : Obligations.CommandDecodesTheImage := by
  intro L s h
  obtain ⟨hprogress, -⟩ := progress_of_atStart h
  refine ⟨fun k hbusy => ?_, fun k t hend => command_done_of_endsAt h hend, fun hp => ?_⟩
  · obtain ⟨t, hrun, -⟩ := hprogress.run hbusy
    exact ⟨t, hrun⟩
  · obtain ⟨k, t, hend⟩ := hprogress.ends
    have hmoves := (command_done_of_endsAt h hend).2.1
    rw [hprogress.engineMoves_of_no_action hend.1 hp] at hmoves
    exact ⟨t, hmoves ▸ hend⟩

/-- Settles O52: both commands end, done, with the image that the latched state and the SRC bytes determine. -/
theorem commandsAreDeterministic : Obligations.CommandsAreDeterministic := by
  intro L s s' h h' hmode hsrc
  obtain ⟨k, t, hend⟩ := (progress_of_atStart h).1.ends
  obtain ⟨k', t', hend'⟩ := (progress_of_atStart h').1.ends
  obtain ⟨hdone, -, himage, -⟩ := command_done_of_endsAt h hend
  obtain ⟨hdone', -, himage', -⟩ := command_done_of_endsAt h' hend'
  refine ⟨k, k', t, t', hend, hend', hdone.trans hdone'.symm, ?_⟩
  rintro a ⟨x, y, hx, hy, c, rfl⟩
  have hsame := imageDecoded_congr_src hsrc himage'
  rw [himage x y _ hx hy rfl c, hmode, hsame x y _ hx hy rfl c]

end Sys2Proof.Machine.Claims

/-! # Reset and hazards (spec/70_reset_and_hazards.md): reset, the host's duties, and the interleaving of the two agents -/

/-! ## Placed bytes and drawn bytes (20_memory.md R57, 70_reset_and_hazards.md R241) -/

namespace Sys2Proof.Machine

open Sys2Proof Sys2Proof.Machine.Claims

/-- Placed bytes leave every address outside their interval alone. -/
theorem Memory.read_writeBytes_frame (m : Memory) {off : Nat} (bs : List Byte) {a : Nat}
    (ha : a < off ∨ off + bs.length ≤ a) : Memory.read (Memory.writeBytes m off bs) a = Memory.read m a := by
  induction bs generalizing m off with
  | nil => rfl
  | cons b bs ih =>
    rw [List.length_cons] at ha
    rw [Memory.writeBytes, ih _ (by omega), Memory.read_write_ne m b (by omega)]

/-- Placed bytes read back, each at its offset. -/
theorem Memory.read_writeBytes_placed (m : Memory) (off : Nat) (bs : List Byte) {k : Nat} (hk : k < bs.length) :
    Memory.read (Memory.writeBytes m off bs) (off + k) = some bs[k] := by
  induction bs generalizing m off k with
  | nil => cases hk
  | cons b bs ih =>
    rw [Memory.writeBytes]
    cases k with
    | zero =>
      rw [Memory.read_writeBytes_frame _ _ (by omega)]
      exact Memory.read_write_same m off b
    | succ k =>
      have hread := ih (Memory.write m off b) (off + 1) (Nat.lt_of_succ_lt_succ hk)
      rw [Nat.add_right_comm] at hread
      exact hread

/-- An address that is not drawn keeps its byte. -/
theorem read_drawBytes_frame {as : List Nat} {a : Nat} (ha : a ∉ as) (s : State) :
    Memory.read (drawBytes as s).dst a = Memory.read s.dst a := by
  induction as generalizing s with
  | nil => rfl
  | cons b as ih =>
    obtain ⟨hne, ha⟩ := not_or.mp (mt List.mem_cons.mpr ha)
    rw [drawBytes, ih ha]
    exact Memory.read_write_ne _ _ hne

/-- An address that is drawn holds some byte. -/
theorem read_drawBytes_drawn {as : List Nat} {a : Nat} (ha : a ∈ as) (s : State) :
    ∃ b, Memory.read (drawBytes as s).dst a = some b := by
  induction as generalizing s with
  | nil => cases ha
  | cons c as ih =>
    rw [drawBytes]
    by_cases hin : a ∈ as
    · exact ih hin _
    · obtain rfl : a = c := (List.mem_cons.mp ha).resolve_right hin
      exact ⟨_, (read_drawBytes_frame hin _).trans (Memory.read_write_same _ _ _)⟩

/-- The addresses that a reset draws are those of the image (20_memory.md R52). -/
theorem mem_imageOffsets {L : Latch} {a : Nat} : a ∈ imageOffsets L ↔ imageByte L a := by
  simp only [imageOffsets, List.mem_flatMap, List.mem_range]
  constructor
  · rintro ⟨y, hy, x, hx, ha⟩
    obtain ⟨k, hk⟩ : ∃ k : Fin 4, a = L.pix x y + k.val := by simpa [Fin.exists_fin_succ] using ha
    exact ⟨x, y, hx, hy, k, hk⟩
  · rintro ⟨x, y, hx, hy, k, rfl⟩
    refine ⟨y, hy, x, hx, ?_⟩
    match k with
    | 0 | 1 | 2 | 3 => simp

/-- A reset while not BUSY abandons nothing (70_reset_and_hazards.md R240). -/
theorem abandon_of_not_busy {s : State} (hb : s.status ≠ .busy) : abandon s = s := if_neg hb

/-- A reset while BUSY draws the bytes of the command's image (70_reset_and_hazards.md R241). -/
theorem abandon_of_busy {s : State} {L : Latch} (hb : s.status = .busy) (hL : s.latch = some L) :
    abandon s = drawBytes (imageOffsets L) s := by
  simp [abandon, hb, hL]

end Sys2Proof.Machine

/-! ## The host's moves within and against its duties (70_reset_and_hazards.md R251) -/

namespace Sys2Proof.Machine

open Sys2Proof Sys2Proof.Machine.Claims

/-- While BUSY the host has no move on SRC or DST. -/
theorem hostBuffer_of_busy {s : State} (hb : s.status = .busy) (f : State → Result) :
    hostBuffer f s = .fault .hostAccessWhileBusy := if_pos hb

/-- While not BUSY a move on SRC or DST is made. -/
theorem hostBuffer_of_not_busy {s : State} (hb : s.status ≠ .busy) (f : State → Result) : hostBuffer f s = f s := if_neg hb

/-- A host write of 2 to CMD is ABORT. -/
theorem hostMove_wr_abort (s : State) : hostMove (.wr offCmd 2) s = execAbort s :=
  writeCmd_of_command (decodeCommand_two _)

/-- While BUSY ABORT is a request (43_orchestrator.md R189). -/
theorem execAbort_of_busy {s : State} (hb : s.status = .busy) : execAbort s = .next { s with abortReq := true } :=
  congrArg Host.Outcome.next (if_pos hb)

/-- While not BUSY ABORT has no effect (43_orchestrator.md R189). -/
theorem execAbort_of_not_busy {s : State} (hb : s.status ≠ .busy) : execAbort s = .next s :=
  congrArg Host.Outcome.next (if_neg hb)

/-- While not BUSY with nothing pending a step changes nothing (60_exceptions.md R226). -/
theorem step_of_idle {s : State} (hb : s.status ≠ .busy) (hp : s.prog = []) : step s = .next s := by
  simp [step, move, hb, hp]

/-- While BUSY every action of a dutiful host completes and leaves a dutiful host; it changes the pending actions and the read data
only, and ABORT_REQ where the host may abort (70_reset_and_hazards.md R251, R252). -/
theorem hostMove_of_dutiful_of_busy {mayAbort : Bool} {a : HostAction} {rest : List HostAction} {s : State}
    (hb : s.status = .busy) (h : dutiful mayAbort (a :: rest) = true) :
    ∃ pr rd ar, hostMove a { s with prog := rest } = .next { s with prog := pr, rdata := rd, abortReq := ar } ∧
      dutiful mayAbort pr = true ∧ (mayAbort = false → ar = s.abortReq) := by
  cases a with
  | rd off =>
    simp only [dutiful, Bool.and_eq_true, beq_iff_eq] at h
    exact ⟨rest, _, s.abortReq, hostMove_rd h.1 _, h.2, fun _ => rfl⟩
  | wait off lo width v =>
    have hduty := h
    simp only [dutiful, Bool.and_eq_true, Bool.or_eq_true, beq_iff_eq] at hduty
    obtain ⟨ha, hrest⟩ := hduty
    refine ⟨_, _, s.abortReq, hostMove_wait ha lo width v _, ?_, fun _ => rfl⟩
    split
    · exact h
    · rename_i hfield
      refine hrest.resolve_left ?_
      rintro ⟨⟨⟨rfl, rfl⟩, rfl⟩, rfl⟩
      rw [regRead_status, fieldOf_state, hb] at hfield
      exact hfield rfl
  | wr off v =>
    simp only [dutiful, Bool.and_eq_true, Bool.or_eq_true, beq_iff_eq, bne_iff_ne] at h
    obtain ⟨⟨ha, hv⟩, hrest⟩ := h
    by_cases hcmd : off = offCmd ∧ v = 2
    · obtain ⟨rfl, rfl⟩ := hcmd
      have hmay : mayAbort = true := hv.elim (·.resolve_right (· rfl)) (absurd rfl)
      exact ⟨rest, s.rdata, true, (hostMove_wr_abort _).trans (execAbort_of_busy hb), hrest, by simp [hmay]⟩
    · exact ⟨rest, s.rdata, s.abortReq, hostMove_wr_of_busy hb ha hcmd, hrest, fun _ => rfl⟩
  | placeSrc | placeDst | readDst | reset => cases h

end Sys2Proof.Machine

/-! ## The obligations about reset, the host's duties and the idle machine -/

namespace Sys2Proof.Machine.Claims

open Sys2Proof Sys2Proof.Machine

/-- Settles O42. -/
theorem hostDuties : Obligations.HostDuties := by
  intro s off bytes v lo width x
  refine ⟨fun hb => ?_, fun ha => ⟨if_neg ha, if_neg ha, if_neg ha⟩, fun hb => ?_⟩
  · simp only [hostMove, hostBuffer_of_busy hb, and_self]
  · simp only [hostMove, hostBuffer_of_not_busy hb]
    refine ⟨_, _, rfl, rfl, fun k hk => ?_, fun a ha => ?_⟩
    · exact ⟨Memory.read_writeBytes_placed _ off bytes hk, Memory.read_writeBytes_placed _ off bytes hk⟩
    · exact ⟨Memory.read_writeBytes_frame _ bytes ha, Memory.read_writeBytes_frame _ bytes ha⟩

/-- Settles O44: what a reset abandons is DST's bytes at the addresses of the image, each of which is drawn. -/
theorem resetAbandonsTheCommand : Obligations.ResetAbandonsTheCommand := by
  intro s
  refine ⟨(abandon s).dst, (abandon s).draws, rfl, fun hb => by rw [abandon_of_not_busy hb], fun L hb hL => ?_⟩
  rw [abandon_of_busy hb hL]
  exact ⟨fun a ha => read_drawBytes_frame (mt mem_imageOffsets.mp ha) s,
    fun a ha => read_drawBytes_drawn (mem_imageOffsets.mpr ha) s⟩

/-- Settles O35. -/
theorem freeTurnIsOneOfTheTwoMoves : Obligations.FreeTurnIsOneOfTheTwoMoves := by
  intro s a rest hb hprog hturns
  rcases takeTurn_nil hturns with ht | ⟨k, ht⟩
  · right
    rw [step_of_engine_turn hb hprog ht, ← hturns]
  · exact .inl ⟨k, step_of_host_turn hb hprog ht⟩

/-- Settles O36. -/
theorem idleMachineStays : Obligations.IdleMachineStays :=
  fun _ hprog hb => step_of_idle hb hprog

/-- Settles O56: a byte fits in the word that the host gets. -/
theorem hostReadsDstBytes : Obligations.HostReadsDstBytes := by
  intro s off hb
  have hval : ((Memory.byteAt .dst s.dst off).zeroExtend 32).toNat = (Memory.byteAt .dst s.dst off).toNat :=
    BitVec.toNat_setWidth_of_le (by decide)
  refine ⟨_, hostBuffer_of_not_busy hb _, ?_, fun b hread => ?_, fun hread => ?_⟩
  · rw [hval]
    exact BitVec.isLt _
  · rw [hval, Memory.byteAt_of_read hread]
  · rw [hval, Memory.byteAt_of_unwritten hread]

end Sys2Proof.Machine.Claims

/-! ## The engine's turn comes, and every command ends (70_reset_and_hazards.md R249, R253) -/

namespace Sys2Proof.Machine

open Sys2Proof Sys2Proof.Machine.Claims

/-- A step of a dutiful host while BUSY took the machine from `s` to `t`: it changed the host's own side, ABORT_REQ only where the
host may abort, and the engine's next turn is nearer. -/
structure HostStepped (mayAbort : Bool) (s t : State) : Prop where
  frame : t = { s with prog := t.prog, turns := t.turns, draws := t.draws, rdata := t.rdata, abortReq := t.abortReq }
  host : dutiful mayAbort t.prog = true
  abort : mayAbort = false → t.abortReq = s.abortReq
  nearer : turnsBeforeEngine t.turns t.draws < turnsBeforeEngine s.turns s.draws

/-- While BUSY a step that is not the engine's completes where the host keeps its duties. -/
theorem step_hostStepped {mayAbort : Bool} {s : State} (hb : s.status = .busy) (hhost : dutiful mayAbort s.prog = true)
    (hnext : engineNext s = false) : ∃ t, step s = .next t ∧ HostStepped mayAbort s t := by
  obtain ⟨a, rest, hp, hturn, he⟩ := step_of_hostNext hb hnext
  rw [hp] at hhost
  obtain ⟨pr, rd, ar, hmove, hpr, har⟩ :=
    hostMove_of_dutiful_of_busy (s := (takeTurn s).2) ((takeTurn_status s).trans hb) hhost
  refine ⟨_, he.trans hmove, ?_⟩
  exact
    { frame := by rw [takeTurn_frame s]
      host := hpr
      abort := fun hm => (har hm).trans (takeTurn_abortReq s)
      nearer := Nat.lt_of_succ_le (turnsBeforeEngine_takeTurn hturn).le }

/-- While BUSY beside a dutiful host the engine's turn comes, after steps of the host alone: each leaves fewer before it. -/
theorem run_to_engineNext {mayAbort : Bool} {s : State} (hb : s.status = .busy) (hhost : dutiful mayAbort s.prog = true) :
    ∃ k u, Host.Core.run Sys2Proof.core k s = .next u ∧ engineMoves k s = 0 ∧ engineNext u = true := by
  cases hnext : engineNext s with
  | true => exact ⟨0, s, rfl, rfl, hnext⟩
  | false =>
    obtain ⟨t, hstep, ht⟩ := step_hostStepped hb hhost hnext
    have hnearer := ht.nearer
    have hb' : t.status = .busy := by rw [ht.frame]; exact hb
    obtain ⟨k, u, hrun, hmoves, hu⟩ := run_to_engineNext hb' ht.host
    exact ⟨k + 1, u, (run_succ hstep k).trans hrun, by rw [engineMoves_succ hstep, hnext, hmoves]; rfl, hu⟩
termination_by turnsBeforeEngine s.turns s.draws

/-- A command under way, at any point of it, beside a host that keeps its duties: where the host may not abort, no ABORT is
requested. -/
structure UnderWay (L : Latch) (mayAbort : Bool) (s : State) : Prop where
  inv : Inv s
  busy : s.status = .busy
  latch : s.latch = some L
  host : dutiful mayAbort s.prog = true
  abort : mayAbort = false → s.abortReq = false

/-- The ends that a command may come to: DONE, or Cancelled where the host may abort. -/
def MayEnd (mayAbort : Bool) (t : State) : Prop := t.status = .done ∨ (mayAbort = true ∧ t.status = .error .cancelled)

theorem MayEnd.not_busy {mayAbort : Bool} {t : State} (h : MayEnd mayAbort t) : t.status ≠ .busy := by
  rcases h with h | ⟨-, h⟩ <;> simp [h]

/-- What is not BUSY has ended. -/
theorem endsAt_zero {s : State} (hb : s.status ≠ .busy) : EndsAt 0 s s :=
  ⟨fun j hj => absurd hj (Nat.not_lt_zero j), rfl, hb⟩

/-- A step of the host leaves the command under way, with as many blocks decoded. -/
theorem UnderWay.host_step {L : Latch} {mayAbort : Bool} {s : State} (h : UnderWay L mayAbort s)
    (hnext : engineNext s = false) :
    ∃ t, step s = .next t ∧ UnderWay L mayAbort t ∧ decodedCount L t = decodedCount L s ∧
      turnsBeforeEngine t.turns t.draws < turnsBeforeEngine s.turns s.draws := by
  obtain ⟨t, hstep, ht⟩ := step_hostStepped h.busy h.host hnext
  refine ⟨t, hstep, ?_, by rw [ht.frame]; rfl, ht.nearer⟩
  exact
    { inv := step_keeps_inv h.inv hstep
      busy := by rw [ht.frame]; exact h.busy
      latch := by rw [ht.frame]; exact h.latch
      host := ht.host
      abort := fun hm => (ht.abort hm).trans (h.abort hm) }

/-- A block step of any worker that is not cancelled leaves the command under way with one block more decoded, or done. -/
theorem UnderWay.decoding_step {L : Latch} {mayAbort : Bool} {s : State} (h : UnderWay L mayAbort s)
    (habort : s.abortReq = false) :
    ∃ t, execBlockStep s = .next t ∧
      (t.status = .done ∨ UnderWay L mayAbort t ∧ decodedCount L t = decodedCount L s + 1) := by
  have hr := h.inv.running_of_latch h.busy h.latch
  obtain ⟨t, ht⟩ := execBlockStep_completes h.inv
  have hstep := (execBlockStep_of_enabled h.busy h.latch hr.row habort).symm.trans ht
  obtain ⟨blk, v, -, -, hframe, rfl⟩ := stepBlock_cases hstep
  generalize (pickBlock L s).1 = n at *
  have hbusy : v.status = .busy := by rw [hframe]; simpa using h.busy
  have hr' : Running L v := by rw [hframe]; exact hr.congr (by simp) (by simp) (by simp) (by simp) (by simp)
  have hcount : decodedCount L v = decodedCount L s := by
    rw [hframe]
    exact (isDecoded_congr (pickBlock_bX L s) (pickBlock_bY L s) (pickBlock_ahead L s)).2
  refine ⟨_, ht, (advance_status hbusy).symm.imp And.left fun hb => ⟨?_, ?_⟩⟩
  · exact
      { inv := execBlockStep_keeps_inv h.inv ht
        busy := hb
        latch := by rw [hframe]; simpa using h.latch
        host := by rw [hframe]; simpa using h.host
        abort := fun _ => by rw [hframe]; simpa using habort }
  · rw [(hr'.advance_decodesOne n).count, hcount]

/-- A block step ends the command, cancelled or done, or decodes one block more. -/
theorem UnderWay.block_step {L : Latch} {mayAbort : Bool} {s : State} (h : UnderWay L mayAbort s) :
    ∃ t, execBlockStep s = .next t ∧
      (MayEnd mayAbort t ∨ UnderWay L mayAbort t ∧ decodedCount L t = decodedCount L s + 1) := by
  cases ha : s.abortReq with
  | true =>
    have hmay : mayAbort = true := by simpa [ha] using h.abort
    have hrow := (h.inv.running_of_latch h.busy h.latch).row
    exact ⟨_, execBlockStep_of_abort h.busy h.latch hrow ha, .inl (.inr ⟨hmay, cancel_status _⟩)⟩
  | false =>
    obtain ⟨t, hstep, ht⟩ := h.decoding_step ha
    exact ⟨t, hstep, ht.imp_left .inl⟩

/-- So does a step of the engine, whose turn is taken off the schedule. -/
theorem UnderWay.engine_step {L : Latch} {mayAbort : Bool} {s : State} (h : UnderWay L mayAbort s)
    (hnext : engineNext s = true) :
    ∃ t, step s = .next t ∧
      (MayEnd mayAbort t ∨ UnderWay L mayAbort t ∧ decodedCount L t = decodedCount L s + 1) := by
  obtain ⟨-, ts, d, he⟩ := step_of_engineNext hnext
  have h' : UnderWay L mayAbort { s with turns := ts, draws := d } :=
    { inv := h.inv.of_engine_side_eq rfl, busy := h.busy, latch := h.latch, host := h.host, abort := h.abort }
  rw [he]
  exact h'.block_step

/-- Every command under way ends: a step of the engine ends it or leaves fewer blocks, one of the host fewer turns before the
engine's. -/
theorem UnderWay.ends {L : Latch} {mayAbort : Bool} {s : State} (h : UnderWay L mayAbort s) :
    ∃ k t, EndsAt k s t ∧ MayEnd mayAbort t := by
  have hleft := (h.inv.running_of_latch h.busy h.latch).decodedCount_lt
  cases hnext : engineNext s with
  | true =>
    obtain ⟨v, hstep, hend | ⟨hv, hcount⟩⟩ := h.engine_step hnext
    · exact ⟨1, v, endsAt_of_step (endsAt_zero hend.not_busy) h.busy hstep, hend⟩
    · obtain ⟨k, t, hends, ht⟩ := hv.ends
      exact ⟨k + 1, t, endsAt_of_step hends h.busy hstep, ht⟩
  | false =>
    obtain ⟨v, hstep, hv, hcount, hnearer⟩ := h.host_step hnext
    obtain ⟨k, t, hends, ht⟩ := hv.ends
    exact ⟨k + 1, t, endsAt_of_step hends h.busy hstep, ht⟩
termination_by (L.bcx * L.bcy - decodedCount L s, turnsBeforeEngine s.turns s.draws)
decreasing_by
  · rw [hcount]
    exact Prod.Lex.right _ hnearer
  · exact Prod.Lex.left _ _ (by omega)

end Sys2Proof.Machine

/-! ## The obligations about fairness -/

namespace Sys2Proof.Machine.Claims

open Sys2Proof Sys2Proof.Machine

/-- Settles O55: each turn of the host's is one less before the engine's. -/
theorem enabledBlockStepIsTaken : Obligations.EnabledBlockStepIsTaken := by
  intro s hb hhost
  obtain ⟨k, u, hrun, hmoves, hnext⟩ := run_to_engineNext hb hhost
  obtain ⟨hb', ts, d, hstep⟩ := step_of_engineNext hnext
  exact ⟨k, u, ts, d, hrun, hmoves, hb', hstep⟩

/-- Settles O54: with no ABORT requested or pending the command is under way beside a host that may not abort, and can only end
DONE. -/
theorem everyCommandEnds : Obligations.EveryCommandEnds := by
  intro s hinv hb hhost
  obtain ⟨L, hL, -⟩ := hinv.running hb
  by_cases hcalm : s.abortReq = false ∧ dutiful false s.prog = true
  · obtain ⟨k, t, hend, ht⟩ := UnderWay.ends ⟨hinv, hb, hL, hcalm.2, fun _ => hcalm.1⟩
    have hdone : t.status = .done := ht.resolve_right fun hcancelled => Bool.noConfusion hcancelled.1
    exact ⟨k, t, hend, .inl hdone, fun _ _ => hdone⟩
  · obtain ⟨k, t, hend, ht⟩ := UnderWay.ends ⟨hinv, hb, hL, hhost, fun hmay => Bool.noConfusion hmay⟩
    exact ⟨k, t, hend, ht.imp_right And.right, fun ha hp => absurd ⟨ha, hp⟩ hcalm⟩

end Sys2Proof.Machine.Claims

/-! ## A command whose host has an ABORT pending (43_orchestrator.md R189, R190, 70_reset_and_hazards.md R249) -/

namespace Sys2Proof.Machine

open Sys2Proof Sys2Proof.Machine.Claims

/-- The state with other pending actions of the host and another schedule. -/
def withHost (prog : List HostAction) (turns : List Agent) (s : State) : State := { s with prog := prog, turns := turns }

/-- A block step is enabled whatever the host has pending and whatever the schedule. -/
theorem stepReady_withHost {L : Latch} {blk : List Byte} {s : State} (h : StepReady L blk s) (prog : List HostAction)
    (turns : List Agent) : StepReady L blk (withHost prog turns s) where
  inv := h.inv.of_engine_side_eq rfl
  busy := h.busy
  latch := h.latch
  oneWorker := h.oneWorker
  noAbort := h.noAbort
  block := h.block

/-- With WORKERS = 1 a block step does not depend on the pending actions and the schedule: the block, the position and what DST held
determine the position, STATUS and every byte of DST after it. -/
theorem execBlockStep_withHost {L : Latch} {blk : List Byte} {s t : State} (h : StepReady L blk s)
    (ht : execBlockStep s = .next t) (prog : List HostAction) (turns : List Agent) :
    execBlockStep (withHost prog turns s) = .next (withHost prog turns t) := by
  have h' := stepReady_withHost h prog turns
  obtain ⟨m, x, y, st, hstep, hinner, hlast, hdone, hbusy, hpix, hframe⟩ := blockStepDecodesItsBlock s L blk _ h rfl
  obtain ⟨m', x', y', st', hstep', hinner', hlast', hdone', hbusy', hpix', hframe'⟩ :=
    blockStepDecodesItsBlock _ L blk _ h' rfl
  cases hstep.symm.trans ht
  have hmem : m' = m := by
    refine Memory.ext_of_read (execBlockStep_keeps_inv h'.inv hstep').dstWf (execBlockStep_keeps_inv h.inv hstep).dstWf
      fun a => ?_
    by_cases ha : blockByte L { x := 4 * s.bX, y := 4 * s.bY } a
    · obtain ⟨p, hp, k, rfl⟩ := ha
      exact (hpix' p hp k).trans (hpix p hp k).symm
    · exact (hframe' a ha).trans (hframe a ha).symm
  have hpos : x' = x ∧ y' = y := by
    rcases Nat.lt_or_eq_of_le (h.inv.running_of_latch h.busy h.latch).column with hcol | hcol
    · obtain ⟨rfl, rfl⟩ := hinner hcol
      exact hinner' hcol
    · obtain ⟨rfl, rfl⟩ := hlast hcol
      exact hlast' hcol
  obtain ⟨rfl, rfl⟩ := hpos
  have hst : st' = st := by
    by_cases hend : y' = L.bcy
    · rw [hdone hend, hdone' hend]
    · rw [hbusy hend, hbusy' hend]
  rw [hmem, hst] at hstep'
  exact hstep'

/-- On the engine's turn a command with WORKERS = 1 steps with any action pending as it does with none. -/
theorem Progress.step_withHost {L : Latch} {s u t : State} (h : Progress L s u) (hb : u.status = .busy)
    (hw : s.params.extraWorkers = 0) (hp : u.prog = []) (hstep : step u = .next t) (a : HostAction)
    (rest : List HostAction) (ts : List Agent) :
    step (withHost (a :: rest) (.engine :: ts) u) = .next (withHost (a :: rest) ts t) := by
  have hready : StepReady L (Memory.bytesAt .src u.src u.cursor L.bs) u :=
    { inv := h.inv
      busy := hb
      latch := h.latch
      oneWorker := by rw [h.params]; exact hw
      noAbort := h.noAbort
      block := rfl }
  rw [step_of_no_action hb hp] at hstep
  rw [step_of_engine_turn (s := withHost (a :: rest) (.engine :: ts) u) hb rfl (takeTurn_cons rfl)]
  exact execBlockStep_withHost hready hstep (a :: rest) ts

/-- As long as the turns are the engine's, a command with WORKERS = 1 runs with any action pending as it does with none. -/
theorem Progress.run_withHost {L : Latch} {s u t : State} {k : Nat} (h : Progress L s u) (hw : s.params.extraWorkers = 0)
    (hp : u.prog = []) (hbusy : BusyFor k u) (hrun : Host.Core.run Sys2Proof.core k u = .next t) (a : HostAction)
    (rest : List HostAction) (ts : List Agent) :
    Host.Core.run Sys2Proof.core k (withHost (a :: rest) (List.replicate k .engine ++ ts) u) =
      .next (withHost (a :: rest) ts t) := by
  induction k generalizing u with
  | zero =>
    cases hrun
    rfl
  | succ k ih =>
    have hb := status_of_busyFor hbusy
    have hnext : engineNext u = true := by simp [engineNext, hb, hp]
    obtain ⟨v, hstep, hv, -, hprog⟩ := h.engine_step hnext
    rw [run_succ hstep] at hrun
    rw [List.replicate_succ, List.cons_append, run_succ (h.step_withHost hb hw hp hstep a rest _)]
    exact ih hv (hprog.trans hp) ((busyFor_succ_iff hstep).mp hbusy).2 hrun

/-- With WORKERS = 1 and no pending action a command has decoded `k` blocks after `k` steps, the one at the position being next. -/
theorem progress_and_cursor_of_run {L : Latch} {s u : State} {k : Nat} (h : AtStart L s)
    (hw : s.params.extraWorkers = 0) (hp : s.prog = []) (hbusy : BusyFor k s)
    (hrun : Host.Core.run Sys2Proof.core k s = .next u) :
    Progress L s u ∧ (u.status = .busy → u.cursor = L.bs * k) := by
  obtain ⟨hstart, hzero⟩ := progress_of_atStart h
  obtain ⟨t, hrun', ht, hcount⟩ := hstart.run hbusy
  cases hrun'.symm.trans hrun
  refine ⟨ht, fun hb => ?_⟩
  have hr := (ht.running hb).1
  have hahead : u.ahead = [] := hr.oneWorker (by rw [ht.params]; exact hw)
  rw [hstart.engineMoves_of_no_action hbusy hp, hzero, decodedCount, hahead, List.length_nil, Nat.add_zero, Nat.zero_add]
    at hcount
  rw [hr.cursor, hcount]

/-- A run of any machine goes on from the state that a run answers. -/
theorem coreRun_add {M : Host.Core} {s t : M.State} {k : Nat} (h : M.run k s = .next t) (j : Nat) :
    M.run (k + j) s = M.run j t := by
  induction k generalizing s with
  | zero =>
    cases h
    rw [Nat.zero_add]
  | succ k ih =>
    rw [Nat.succ_add]
    simp only [Host.Core.run] at h ⊢
    cases hs : M.step s with
    | next u =>
      rw [hs] at h
      exact ih h
    | fault r | refused r =>
      rw [hs] at h
      cases h

/-- While BUSY, on the host's turn, an ABORT and the block step after it cancel the command (43_orchestrator.md R189, R190). -/
theorem run_abort_of_busy {s : State} {L : Latch} (hb : s.status = .busy) (hL : s.latch = some L) (hrow : s.bY < L.bcy) :
    Host.Core.run Sys2Proof.core 2 (withHost [.wr offCmd 2] [.host] s) =
      .next (cancel { withHost [] [] s with abortReq := true }) := by
  have hreq : step (withHost [.wr offCmd 2] [.host] s) = .next { withHost [] [] s with abortReq := true } := by
    rw [step_of_host_turn (s := withHost [.wr offCmd 2] [.host] s) hb rfl (takeTurn_cons rfl), hostMove_wr_abort]
    exact execAbort_of_busy hb
  have hcancel : step { withHost [] [] s with abortReq := true } =
      .next (cancel { withHost [] [] s with abortReq := true }) := by
    rw [step_of_no_action (s := { withHost [] [] s with abortReq := true }) hb rfl]
    exact execBlockStep_of_abort (s := { withHost [] [] s with abortReq := true }) hb hL hrow rfl
  rw [run_succ hreq, run_succ hcancel]
  rfl

/-- While not BUSY an ABORT is used up without effect (43_orchestrator.md R189). -/
theorem run_abort_of_not_busy {s : State} (hb : s.status ≠ .busy) (ts : List Agent) :
    Host.Core.run Sys2Proof.core 1 (withHost [.wr offCmd 2] ts s) = .next (withHost [] ts s) := by
  have hstep : step (withHost [.wr offCmd 2] ts s) = .next (withHost [] ts s) := by
    rw [step_of_not_busy (s := withHost [.wr offCmd 2] ts s) hb rfl, hostMove_wr_abort]
    exact execAbort_of_not_busy hb
  rw [run_succ hstep]
  rfl

end Sys2Proof.Machine

/-! ## The obligation about a pending ABORT -/

namespace Sys2Proof.Machine.Claims

open Sys2Proof Sys2Proof.Machine

/-- Settles O53: on the engine's turns the pending ABORT does not matter, so that the run comes to each boundary as it does without
it; there the host's turn cancels the command, and after the last boundary the ABORT has no effect. -/
theorem abortMayTakeEffectAtEveryBoundary : Obligations.AbortMayTakeEffectAtEveryBoundary := by
  intro L s h hp hw
  obtain ⟨hstart, -⟩ := progress_of_atStart h
  obtain ⟨v, hbusy, hrunAll, hend⟩ := (commandDecodesTheImage L s h).2.2 hp
  constructor
  · intro k hk
    obtain ⟨u, hrun, hb⟩ := hbusy k hk
    have hbusyTo : BusyFor k s := fun j hj => hbusy j (hj.trans hk)
    obtain ⟨hu, hcursor⟩ := progress_and_cursor_of_run h hw hp hbusyTo hrun
    have hrun' := coreRun_add (hstart.run_withHost hw hp hbusyTo hrun (.wr offCmd 2) [] [.host]) 2
    rw [run_abort_of_busy hb hu.latch (hu.running hb).1.row] at hrun'
    exact ⟨u, _, hrun, hrun', rfl, rfl, rfl, hcursor hb⟩
  · obtain ⟨hv, -⟩ := progress_and_cursor_of_run h hw hp hbusy hrunAll
    have hrun' := coreRun_add (hstart.run_withHost hw hp hbusy hrunAll (.wr offCmd 2) [] []) 1
    rw [run_abort_of_not_busy hend, List.append_nil] at hrun'
    exact ⟨v, _, hrunAll, hrun', (hv.finished hend).1, hv.noAbort, rfl⟩

end Sys2Proof.Machine.Claims
